-- ==== Sys2Proof/Word.lean ====
section
/-! DEFINITION. The two bit widths the spec gives data: a byte and a register word (rules R6, R30). -/

namespace Sys2Proof

/-- One byte of a buffer, of the command stream or of the response stream (rule R30). -/
abbrev Byte := BitVec 8

/-- A register, the `arg` field of a command and the `val` field of a response: `AW` = 32 bits,
unsigned (rule R6). -/
abbrev Word := BitVec 32

end Sys2Proof
end

