-- ==== Sys2Proof/Machine/Bytes.lean ====
section
/-! DEFINITION. Byte order: how a wide value is laid out in ascending byte offsets. Every stream and
every buffer of the core is little-endian (rules R14, R51, R52, R80, R82). -/

namespace Sys2Proof.Machine

/-- The low `n` bytes of `v`, least significant first (rule R14's `MemWrite`). -/
def leBytes (n : Nat) {w : Nat} (v : BitVec w) : List Byte :=
  (List.range n).map fun i => v.extractLsb' (8 * i) 8

/-- Four bytes, least significant first, as one word (rule R80: byte `i` is `cmd[8i+7 : 8i]`). -/
def leWord (b0 b1 b2 b3 : Byte) : Word := b3 ++ b2 ++ b1 ++ b0

end Sys2Proof.Machine
end

