-- ==== Sys2Proof/Config.lean ====
section
/-! DEFINITION. The parameters of the step relation (rules R7 to R10, R33). They are the machine's
build, not its state: `State` carries one record of them so that the fixed type of `exec` can read
them, and no command writes it. A claim about every state is a claim about every parameter value. -/

namespace Sys2Proof

/-- The configuration fields of rules R7 to R10. `memMax` is `OPEN` in the spec (rule R8), so it
has no default here. -/
structure Config where
  /-- `PAGE`: granularity of a grown backing memory, in bytes (rule R7). -/
  page : Nat := 65536
  /-- `T_PUT`: pending bytes at or above which a `put` runs a bulk pass (rule R9). -/
  tPut : Nat := 131072
  /-- `OVH_DEC`: bytes of the decoder's backing memory that are not working buffer (rule R10). -/
  ovhDec : Nat := 0
  /-- `OVH_ENC`: the same for the encoder (rule R10). -/
  ovhEnc : Nat := 0
  /-- `MEM_MAX`: largest backing memory of one unit, in bytes (rule R8). -/
  memMax : Nat
deriving DecidableEq, Repr

/-- The constraints rules R7, R8 and R9 put on the parameters. -/
abbrev Config.Legal (c : Config) : Prop :=
  1 ≤ c.page ∧ 1 ≤ c.tPut ∧ c.memMax % c.page = 0 ∧ c.page ≤ c.memMax ∧ c.memMax + c.page ≤ 2 ^ 32

/-- The configuration the spec's vectors call the default one (95_test_vectors.md): the defaults of
rules R7, R9, R10 and `MEM_MAX` = 2^31. DESIGN CHOICE for `memMax`, log entry 1. -/
def Config.standard : Config := { memMax := 2147483648 }

end Sys2Proof
end

