-- ==== Sys2Proof/Syntax.lean ====
section
/-! DEFINITION. The commands: one constructor for each row of spec/opcode_table.json (rule R83). -/

namespace Sys2Proof

/-- A whole command, header and payload. A command of format `H` keeps its 32-bit `arg`, also where
the command ignores it (rule R85), so that no bit of a header is lost. A command of format `HP`
keeps its payload, whose length is its `arg` (rules R80, R87). -/
inductive Instr where
  /-- `DEC.NEW keepSize`, op 0x00 (rule R120). -/
  | decNew (keepSize : Word)
  /-- `DEC.INIT size`, op 0x01 (rule R121). -/
  | decInit (size : Word)
  /-- `DEC.PUT n, bytes`, op 0x02 (rule R122). -/
  | decPut (chunk : List Byte)
  /-- `DEC.END`, op 0x03, `arg` ignored (rule R126). -/
  | decEnd (arg : Word)
  /-- `DEC.DATA`, op 0x04, `arg` ignored (rule R128). -/
  | decData (arg : Word)
  /-- `DEC.RELEASE`, op 0x05, `arg` ignored (rule R129). -/
  | decRelease (arg : Word)
  /-- `DEC.STAT r`, op 0x06 (rule R130). -/
  | decStat (reg : Word)
  /-- `ENC.NEW keepSize`, op 0x08 (rule R160). -/
  | encNew (keepSize : Word)
  /-- `ENC.ENCODE n, bytes`, op 0x09 (rule R161). -/
  | encEncode (source : List Byte)
  /-- `ENC.RELEASE`, op 0x0D, `arg` ignored (rule R166). -/
  | encRelease (arg : Word)
  /-- `ENC.STAT r`, op 0x0E (rule R167). -/
  | encStat (reg : Word)
deriving DecidableEq, Repr

end Sys2Proof
end

