-- ==== Sys2Proof/WellFormed.lean ====
section
/-! DEFINITION. Which terms of `Instr` are commands a host can send: the payload length of an `HP`
command is the 32-bit `arg` (rules R80, R122, R161). Every other operand has its width in its type. -/

namespace Sys2Proof

/-- The length of a payload fits the `arg` field. -/
def payloadFits (payload : List Byte) : Bool := decide (payload.length < 2 ^ 32)

/-- A command that the command format of rule R80 can carry. -/
def Instr.wellFormed : Instr → Bool
  | .decNew _ => true
  | .decInit _ => true
  | .decPut chunk => payloadFits chunk
  | .decEnd _ => true
  | .decData _ => true
  | .decRelease _ => true
  | .decStat _ => true
  | .encNew _ => true
  | .encEncode source => payloadFits source
  | .encRelease _ => true
  | .encStat _ => true

end Sys2Proof
end

