-- ==== Sys2Proof/Decode.lean ====
section
/-! DEFINITION. The command format of rules R80 to R86: a decoder of the command stream, total on
any bytes, and an encoder written from the same opcode map. -/

namespace Sys2Proof

open Sys2Proof.Machine (leBytes leWord)

/-- The two units, and with them the two ports (rules R20, R80). -/
inductive Port where
  | dec
  | enc
deriving DecidableEq, Repr

/-- The other port. -/
def Port.other : Port → Port
  | .dec => .enc
  | .enc => .dec

/-- The operations of the opcode map, one for each row of rule R83. -/
inductive Op where
  | decNew | decInit | decPut | decEnd | decData | decRelease | decStat
  | encNew | encEncode | encRelease | encStat
deriving DecidableEq, Repr

/-- Rule R83: the operation code in `cmd[7:0]`. -/
def Op.code : Op → Byte
  | .decNew => 0x00
  | .decInit => 0x01
  | .decPut => 0x02
  | .decEnd => 0x03
  | .decData => 0x04
  | .decRelease => 0x05
  | .decStat => 0x06
  | .encNew => 0x08
  | .encEncode => 0x09
  | .encRelease => 0x0D
  | .encStat => 0x0E

/-- Every row of rule R83. -/
def Op.all : List Op :=
  [.decNew, .decInit, .decPut, .decEnd, .decData, .decRelease, .decStat,
   .encNew, .encEncode, .encRelease, .encStat]

/-- The operation an `op` field stands for; none when the code is reserved (rule R84). -/
def Op.ofCode? (b : Byte) : Option Op := Op.all.find? fun o => o.code == b

/-- Format `HP`: a payload of `arg` bytes follows the header (rule R80). -/
def Op.hasPayload : Op → Bool
  | .decPut => true
  | .encEncode => true
  | _ => false

/-- The port a header is routed to by its `op` field: `op[7:4]` = 0 and `op[3]` = 1 go to the
encoder port, everything else to the decoder port (rules R80, R84). -/
def portOfOp (b : Byte) : Port :=
  if b.extractLsb' 4 4 = 0#4 ∧ b.extractLsb' 3 1 = 1#1 then .enc else .dec

/-- The operation of a command. -/
def Instr.op : Instr → Op
  | .decNew _ => .decNew
  | .decInit _ => .decInit
  | .decPut _ => .decPut
  | .decEnd _ => .decEnd
  | .decData _ => .decData
  | .decRelease _ => .decRelease
  | .decStat _ => .decStat
  | .encNew _ => .encNew
  | .encEncode _ => .encEncode
  | .encRelease _ => .encRelease
  | .encStat _ => .encStat

/-- The `arg` field of a command: its operand, or the length of its payload (rules R80, R83). -/
def Instr.arg : Instr → Word
  | .decNew keepSize => keepSize
  | .decInit size => size
  | .decPut chunk => BitVec.ofNat 32 chunk.length
  | .decEnd arg => arg
  | .decData arg => arg
  | .decRelease arg => arg
  | .decStat reg => reg
  | .encNew keepSize => keepSize
  | .encEncode source => BitVec.ofNat 32 source.length
  | .encRelease arg => arg
  | .encStat reg => reg

/-- The payload bytes of a command; none for format `H`. -/
def Instr.payload : Instr → List Byte
  | .decPut chunk => chunk
  | .encEncode source => source
  | _ => []

/-- The port whose unit executes a command. -/
def Instr.port (i : Instr) : Port := portOfOp i.op.code

/-- The command with operation `o`, operand `arg` and payload `payload`. -/
def Instr.build (o : Op) (arg : Word) (payload : List Byte) : Instr :=
  match o with
  | .decNew => .decNew arg
  | .decInit => .decInit arg
  | .decPut => .decPut payload
  | .decEnd => .decEnd arg
  | .decData => .decData arg
  | .decRelease => .decRelease arg
  | .decStat => .decStat arg
  | .encNew => .encNew arg
  | .encEncode => .encEncode payload
  | .encRelease => .encRelease arg
  | .encStat => .encStat arg

/-- Why bytes at the front of a command stream are no whole command. -/
inductive Reject where
  /-- Fewer than the 5 bytes of a header are there (rule R80): the unit waits for more. -/
  | shortHeader
  /-- The header is whole and `missing` payload bytes are not there yet (rules R81, R224). -/
  | shortPayload (missing : Nat)
  /-- The `op` field is a reserved code (rule R84); the header is 5 bytes and has no payload. -/
  | reserved (op : Byte)
deriving DecidableEq, Repr

/-- The first command of a command stream and the bytes after it (rules R80 to R84). -/
def decode : List Byte → Except Reject (Instr × List Byte)
  | op :: a0 :: a1 :: a2 :: a3 :: rest =>
    match Op.ofCode? op with
    | none => .error (.reserved op)
    | some o =>
      let arg := leWord a0 a1 a2 a3
      if o.hasPayload then
        if rest.length < arg.toNat then .error (.shortPayload (arg.toNat - rest.length))
        else .ok (Instr.build o arg (rest.take arg.toNat), rest.drop arg.toNat)
      else .ok (Instr.build o arg [], rest)
  | _ => .error .shortHeader

/-- The 5 bytes of a header (rule R80): `op`, then `arg` least significant byte first. -/
def headerBytes (op : Byte) (arg : Word) : List Byte := op :: leBytes 4 arg

/-- The bytes of a command on the command stream (rules R80, R81). -/
def encode (i : Instr) : List Byte := headerBytes i.op.code i.arg ++ i.payload

/-- The bytes of a command whose table bits are `w`: `nbits / 8` bytes (at least a header), least
significant first, then zero payload bytes up to the length the header names. -/
def tableBytes (nbits w : Nat) : List Byte :=
  let given := max 5 (nbits / 8)
  let header := BitVec.ofNat (8 * given) w
  let arg := (header.extractLsb' 8 32).toNat
  let payload :=
    match Op.ofCode? (header.extractLsb' 0 8) with
    | some o => if o.hasPayload then arg else 0
    | none => 0
  leBytes given header ++ List.replicate (payload - (given - 5)) 0#8

/-- The instruction the decoder reads from the opcode table's bits (bit 0 is the least significant
bit of the first byte of the stream). -/
def decodeTableWord (nbits w : Nat) : Option Instr :=
  match decode (tableBytes nbits w) with
  | .ok (i, _) => some i
  | .error _ => none

end Sys2Proof
end

