-- ==== Sys2Proof/Machine/State.lean ====
section
/-! DEFINITION. The state of the core as plain data: the decoder unit, the encoder unit (rules R20 to
R31), their command and response streams (rule R80), the reasons a step can stop, and reset (R34). -/

namespace Sys2Proof.Machine

/-- `d.phase` (rule R25). The reserved code 3 is held by no state, since no command writes it. -/
inductive Phase where
  /-- OPEN, code 0: `put` and `end` are accepted. -/
  | opened
  /-- CLOSED, code 1: `end` has succeeded. -/
  | closed
  /-- FAILED, code 2: a `put` or an `end` of this transaction failed on its data. -/
  | failed
deriving DecidableEq, Repr

/-- The failure classes of rule R180. The wire carries one status bit; the class tags the outcome. -/
inductive FailClass where
  /-- `E_INVALID_SYMBOL` (rule R181). -/
  | invalidSymbol
  /-- `E_INCOMPLETE_TRAILER` (rule R182). -/
  | incompleteTrailer
  /-- `E_CAPACITY` (rule R183). -/
  | capacity
  /-- `E_PHASE` (rule R184). -/
  | phase
  /-- `E_NOMEM` (rule R185). -/
  | noMem
  /-- `E_ILLEGAL` (rule R186). -/
  | illegal
deriving DecidableEq, Repr

/-- One response (rule R82): success with `val` and the data bytes that follow the header, or a
failure, tagged with its class as rule R180 asks of a model. -/
inductive Response where
  | ok (val : Word) (data : List Byte)
  | fail (c : FailClass)
deriving DecidableEq, Repr

/-- A buffer: (offset, byte) pairs, offsets strictly rising. An offset that is not listed holds no
value (log entry 2). -/
abbrev Memory := List Host.Cell

/-- The decoder unit: the registers of rules R21, R24, R25 and the working buffer of rule R30. -/
structure DecUnit where
  /-- Register 0: the retention threshold (rule R24). -/
  keepSize : Word
  /-- Register 1: size of the backing memory held, 0 when released (rule R24). -/
  memBytes : Word
  /-- Register 2: reserved input capacity (rule R21). -/
  capacity : Word
  /-- Register 3: one past the last input byte stored (rule R21). -/
  writePos : Word
  /-- Register 4: first input byte not decoded and committed (rule R21). -/
  streamPos : Word
  /-- Register 5: decoded bytes committed (rule R21). -/
  decodePos : Word
  /-- Register 6: position in the life of a stream (rule R25). -/
  phase : Phase
  /-- `d.buf` (rule R30). -/
  buf : Memory
deriving DecidableEq, Repr

/-- The encoder unit: the registers and the buffer of rule R31. -/
structure EncUnit where
  /-- Register 0: the retention threshold (rule R31). -/
  keepSize : Word
  /-- Register 1: size of the backing memory held, 0 when released (rule R31). -/
  memBytes : Word
  /-- `e.buf` (rule R31). -/
  buf : Memory
deriving DecidableEq, Repr

/-- The core: its build parameters, its two units, and the streams between it and the host. -/
structure State where
  /-- The build parameters (rule R33); no command writes them. -/
  cfg : Config
  /-- The decoder unit. -/
  dec : DecUnit
  /-- The encoder unit. -/
  enc : EncUnit
  /-- Bytes on the single command input of a core that has one, not routed yet (rule R80). -/
  cmdIn : List Byte
  /-- The decoder port's command stream: bytes arrived and not consumed (rule R80). -/
  decCmd : List Byte
  /-- The encoder port's command stream: bytes arrived and not consumed (rule R80). -/
  encCmd : List Byte
  /-- The decoder port's response stream since reset, oldest first (rule R82). -/
  decRsp : List Response
  /-- The encoder port's response stream since reset, oldest first (rule R82). -/
  encRsp : List Response
  /-- The port a step looks at first. The model's own field (log entry 5): the order in which the two
  ports are served is open, and no result depends on it (rule R65). -/
  turn : Port
deriving DecidableEq, Repr

/-- Why the machine stops. Rule R57: no command of a run from reset reaches one of these. -/
inductive Fault where
  /-- Raised by a buffer access of unit `p` at an offset the buffer does not have (rules R30, R50).
  Safe: the model stops, and rule R57 says no run from reset gets here. -/
  | outOfRange (p : Port) (offset : Nat)
  /-- Raised by a read of unit `p` at an offset that exists and that nothing has written since it came
  into existence (rule R34: unspecified contents). Safe, and unreachable by rule R57. -/
  | unwritten (p : Port) (offset : Nat)
deriving DecidableEq, Repr

/-- Why a step has no meaning. -/
inductive Refusal where
  /-- An instruction whose meaning is not written; no arm of `exec` answers it. Safe. -/
  | notModelled (mnemonic : String)
  /-- Raised by `step` when the host has put a header with the other unit's `op` on port `p`. Rule R80
  says such a command never reaches a unit and needs no rule. Safe. -/
  | misrouted (p : Port) (op : Byte)
deriving DecidableEq, Repr

/-- The decoder unit after power-on (rule R34). -/
def DecUnit.reset : DecUnit where
  keepSize := 0
  memBytes := 0
  capacity := 0
  writePos := 0
  streamPos := 0
  decodePos := 0
  phase := .opened
  buf := []

/-- The encoder unit after power-on (rule R34). -/
def EncUnit.reset : EncUnit where
  keepSize := 0
  memBytes := 0
  buf := []

/-- A core with build parameters `c` after power-on (rules R34, R210): both units in their reset state,
no byte on any stream. `turn` is the model's choice (log entry 5). -/
def State.powerOn (c : Config) : State where
  cfg := c
  dec := .reset
  enc := .reset
  cmdIn := []
  decCmd := []
  encCmd := []
  decRsp := []
  encRsp := []
  turn := .dec

/-- The machine right after reset, with the configuration of the spec's vectors (log entry 1). -/
def State.reset : State := State.powerOn Config.standard

end Sys2Proof.Machine
end

