-- ==== Sys2Proof/Machine/Flags.lean ====
section
/-! DEFINITION. What plays the part of flags (rule R28): the error accumulator, the status bit of a
response, and the phase a failure leaves; with them the response format of rule R82. -/

namespace Sys2Proof.Machine

/-- `acc[31:24] != 0`: some byte that went into the accumulator was no symbol (rules R28, R99, R123). -/
def errorSeen (acc : Word) : Bool := acc.extractLsb' 24 8 != 0#8

/-- The phase after a failure of class `c` (rule R189): the two classes about the data of a stream set
FAILED, the four others leave the phase as it is. -/
def FailClass.phaseAfter (c : FailClass) (p : Phase) : Phase :=
  match c with
  | .invalidSymbol => .failed
  | .incompleteTrailer => .failed
  | .capacity => p
  | .phase => p
  | .noMem => p
  | .illegal => p

/-- The status bit `rsp[0]` (rule R82): false is success. -/
def Response.status : Response → Bool
  | .ok _ _ => false
  | .fail _ => true

/-- The `val` field `rsp[39:8]`, 0 on failure (rule R82). -/
def Response.val : Response → Word
  | .ok val _ => val
  | .fail _ => 0

/-- The data bytes after the header, none on failure (rule R82). -/
def Response.data : Response → List Byte
  | .ok _ data => data
  | .fail _ => []

/-- The 40-bit response header: `val`, seven zero bits, the status bit (rule R82). -/
def Response.header (r : Response) : BitVec 40 := r.val ++ 0#7 ++ BitVec.ofBool r.status

/-- The bytes of a response on the response stream (rule R82). -/
def Response.bytes (r : Response) : List Byte := leBytes 5 r.header ++ r.data

end Sys2Proof.Machine
end

