-- ==== Sys2Proof/Machine/Tables.lean ====
section
/-! DEFINITION. The alphabet and the five constant tables (rules R5, R29, R90 to R101). They are
read-only memories, valid from reset; no command writes them, so they are no state. -/

namespace Sys2Proof.Machine

/-- `ALPHA[v]` (rules R90, R91). -/
def alpha (v : BitVec 6) : Byte :=
  if v.toNat < 26 then BitVec.ofNat 8 (0x41 + v.toNat)
  else if v.toNat < 52 then BitVec.ofNat 8 (0x61 + (v.toNat - 26))
  else if v.toNat < 62 then BitVec.ofNat 8 (0x30 + (v.toNat - 52))
  else if v.toNat = 62 then 0x2B
  else 0x2F

/-- `val(c)`: the 6-bit value of a symbol byte, none for the 192 other bytes (rules R90, R91, R98). -/
def symVal (c : Byte) : Option (BitVec 6) :=
  if 0x41 ≤ c.toNat ∧ c.toNat ≤ 0x5A then some (BitVec.ofNat 6 (c.toNat - 0x41))
  else if 0x61 ≤ c.toNat ∧ c.toNat ≤ 0x7A then some (BitVec.ofNat 6 (c.toNat - 0x61 + 26))
  else if 0x30 ≤ c.toNat ∧ c.toNat ≤ 0x39 then some (BitVec.ofNat 6 (c.toNat - 0x30 + 52))
  else if c.toNat = 0x2B then some 62
  else if c.toNat = 0x2F then some 63
  else none

/-- The pad symbol `=` (rule R92). -/
def pad : Byte := 0x3D

/-- What all four decode tables hold at a byte that is no symbol (rule R98). -/
def invalidEntry : Word := 0xFF000000

/-- `D0[c]` (rules R94, R98). -/
def tableD0 (c : Byte) : Word :=
  match symVal c with
  | some v => v.setWidth 32 <<< 2
  | none => invalidEntry

/-- `D1[c]` (rules R95, R98). -/
def tableD1 (c : Byte) : Word :=
  match symVal c with
  | some v => (v.extractLsb' 4 2).setWidth 32 ||| ((v.extractLsb' 0 4).setWidth 32 <<< 12)
  | none => invalidEntry

/-- `D2[c]` (rules R96, R98). -/
def tableD2 (c : Byte) : Word :=
  match symVal c with
  | some v => ((v.extractLsb' 2 4).setWidth 32 <<< 8) ||| ((v.extractLsb' 0 2).setWidth 32 <<< 22)
  | none => invalidEntry

/-- `D3[c]` (rules R97, R98). -/
def tableD3 (c : Byte) : Word :=
  match symVal c with
  | some v => v.setWidth 32 <<< 16
  | none => invalidEntry

/-- `LUT[i]` (rule R100): low byte the symbol of the high digit, high byte that of the low digit. -/
def lut (i : BitVec 12) : BitVec 16 :=
  (alpha (i.extractLsb' 6 6)).setWidth 16 ||| ((alpha (i.extractLsb' 0 6)).setWidth 16 <<< 8)

end Sys2Proof.Machine
end

