-- ==== Sys2Proof/Machine/Operands.lean ====
section
/-! DEFINITION. Operand assembly (rule R86): the sizes, offsets and table indices the commands compute,
in naturals with no wrap-around (rule R13), and the registers `STAT` reads (rule R26). -/

namespace Sys2Proof.Machine

/-- `ceil(a / b)` (rule R13). -/
def ceilDiv (a b : Nat) : Nat := (a + b - 1) / b

/-- `roundUp(a, p) = p * ceil(a / p)` (rule R13). -/
def roundUp (a p : Nat) : Nat := p * ceilDiv a p

/-- The input capacity `DEC.INIT size` reserves (rule R121). -/
def capacityFor (size : Nat) : Nat := 4 * ceilDiv size 3

/-- The backing memory `DEC.INIT size` needs (rule R121). -/
def decNeed (c : Config) (size : Nat) : Nat := capacityFor size + c.ovhDec

/-- The length of the encoding of `n` bytes (rule R161). -/
def encOutLen (n : Nat) : Nat := 4 * ceilDiv n 3

/-- The room of the source copy, aligned to 4 (rules R55, R61). -/
def encSourceRoom (n : Nat) : Nat := 4 * ceilDiv n 4

/-- The backing memory `ENC.ENCODE` of `n` bytes needs (rule R161). -/
def encNeed (c : Config) (n : Nat) : Nat := encOutLen n + encSourceRoom n + c.ovhEnc

/-- `memBytes` once it covers `need`: kept when large enough, else the need rounded up to `PAGE`
(rules R24, R121, R161). -/
def grownTo (c : Config) (memBytes : Word) (need : Nat) : Word :=
  if memBytes.toNat < need then BitVec.ofNat 32 (roundUp need c.page) else memBytes

/-- Bytes in the decoder's working buffer: offsets `0 .. d.memBytes - OVH_DEC - 1` (rule R30). -/
def DecUnit.bufSize (c : Config) (d : DecUnit) : Nat := d.memBytes.toNat - c.ovhDec

/-- Bytes in the encoder's working buffer (rule R31). -/
def EncUnit.bufSize (c : Config) (e : EncUnit) : Nat := e.memBytes.toNat - c.ovhEnc

/-- `srcOff`: where the source copy of `n` bytes begins in `e.buf` (rule R61). -/
def EncUnit.sourceOffset (c : Config) (e : EncUnit) (n : Nat) : Nat := e.bufSize c - encSourceRoom n

/-- `nsp`, step 1 of a bulk pass: the largest multiple of 4 not above `writePos - 1` (rule R123). -/
def nextStreamPos (writePos : Nat) : Nat := 4 * ((writePos - 1) / 4)

/-- How often the loop `while s < nsp` of rule R123 runs when each turn adds 4 to `s`. -/
def groupsBetween (s nsp : Nat) : Nat := ceilDiv (nsp - s) 4

/-- Input bytes stored and not decoded (rule R30: `[streamPos, writePos)`). -/
def DecUnit.pending (d : DecUnit) : Nat := d.writePos.toNat - d.streamPos.toNat

/-- The group word `D0[c0] | D1[c1] | D2[c2] | D3[c3]` (rule R124). -/
def groupWord (c0 c1 c2 c3 : Byte) : Word := tableD0 c0 ||| tableD1 c1 ||| tableD2 c2 ||| tableD3 c3

/-- The encoder's 24-bit accumulator `{b0, b1, b2}` (rule R101). -/
def blockAcc (b0 b1 b2 : Byte) : BitVec 24 := b0 ++ b1 ++ b2

/-- `acc[23:12]`, the first table index of a block (rule R101). -/
def highIndex (acc : BitVec 24) : BitVec 12 := acc.extractLsb' 12 12

/-- `acc[11:0]`, the second table index of a block (rule R101). -/
def lowIndex (acc : BitVec 24) : BitVec 12 := acc.extractLsb' 0 12

/-- `acc[11:6]`, the alphabet index of a tail of two bytes (rule R163). -/
def tailIndex (acc : BitVec 24) : BitVec 6 := acc.extractLsb' 6 6

/-- `d.phase` as the 2-bit register it is (rule R25). -/
def Phase.code : Phase → BitVec 2
  | .opened => 0
  | .closed => 1
  | .failed => 2

/-- A decoder register by its number, zero-extended; none from number 7 on (rule R26). -/
def DecUnit.reg? (d : DecUnit) (r : Nat) : Option Word :=
  match r with
  | 0 => some d.keepSize
  | 1 => some d.memBytes
  | 2 => some d.capacity
  | 3 => some d.writePos
  | 4 => some d.streamPos
  | 5 => some d.decodePos
  | 6 => some (d.phase.code.setWidth 32)
  | _ => none

/-- An encoder register by its number; none from number 2 on (rule R26). -/
def EncUnit.reg? (e : EncUnit) (r : Nat) : Option Word :=
  match r with
  | 0 => some e.keepSize
  | 1 => some e.memBytes
  | _ => none

end Sys2Proof.Machine
end

