-- ==== Sys2Proof/Machine/Ops.lean ====
section
/-! DEFINITION. The named operations over buffers, units and streams that the meanings share: one byte
read, one write, bounded access, answering a command, failing it, and reopening the decoder. -/

namespace Sys2Proof.Machine

/-- The byte at offset `a`, none where nothing has been written (rule R50: byte-addressed). -/
def Memory.read? : Memory → Nat → Option Byte
  | [], _ => none
  | (k, v) :: m, a => if a = k then some v else Memory.read? m a

/-- Store one byte, keeping the offsets strictly rising. -/
def Memory.write : Memory → Nat → Byte → Memory
  | [], a, b => [(a, b)]
  | (k, v) :: m, a, b =>
    if a < k then (a, b) :: (k, v) :: m
    else if a = k then (a, b) :: m
    else (k, v) :: Memory.write m a b

/-- Store bytes at ascending offsets from `a`. -/
def Memory.writeBytes : Memory → Nat → List Byte → Memory
  | m, _, [] => m
  | m, a, b :: bs => Memory.writeBytes (m.write a b) (a + 1) bs

/-- The `n` bytes from offset `a` on; none when one of them was never written. -/
def Memory.readBytes? (m : Memory) (a : Nat) : Nat → Option (List Byte)
  | 0 => some []
  | n + 1 =>
    match m.read? a, Memory.readBytes? m (a + 1) n with
    | some b, some bs => some (b :: bs)
    | _, _ => none

/-- Every offset of `m` is at least `lo` and the offsets rise strictly. -/
def Memory.risingFrom (lo : Nat) : Memory → Bool
  | [] => true
  | (k, _) :: m => decide (lo ≤ k) && Memory.risingFrom (k + 1) m

/-- The canonical form of a buffer. -/
def Memory.wf (m : Memory) : Bool := Memory.risingFrom 0 m

/-- `MemRead(m, a, 1)` of unit `p`, whose buffer has `size` bytes (rules R14, R50, R56). -/
def load (p : Port) (size : Nat) (m : Memory) (a : Nat) : Except Fault Byte :=
  if size ≤ a then .error (.outOfRange p a)
  else
    match m.read? a with
    | none => .error (.unwritten p a)
    | some b => .ok b

/-- The `n` bytes from offset `a` on, read one by one in ascending offset (rule R56). -/
def loadBytes (p : Port) (size : Nat) (m : Memory) (a : Nat) : Nat → Except Fault (List Byte)
  | 0 => .ok []
  | n + 1 => do
    let b ← load p size m a
    let bs ← loadBytes p size m (a + 1) n
    return b :: bs

/-- `MemWrite` of the bytes `bs` at offset `a` of unit `p`'s buffer, at any alignment (rules R14, R54,
R56). A wide value is given as its bytes, least significant first (rules R51, R52). -/
def store (p : Port) (size : Nat) (m : Memory) (a : Nat) (bs : List Byte) : Except Fault Memory :=
  if size < a + bs.length then .error (.outOfRange p (a + bs.length - 1)) else .ok (m.writeBytes a bs)

/-- Append a response to a port's response stream (rule R82). -/
def State.respond (p : Port) (r : Response) (s : State) : State :=
  match p with
  | .dec => { s with decRsp := s.decRsp ++ [r] }
  | .enc => { s with encRsp := s.encRsp ++ [r] }

/-- End a decoder command: its new unit state and its one response (rules R15, R82). -/
def answerDec (s : State) (r : Except Fault (DecUnit × Response)) : Host.Outcome State Fault Refusal :=
  match r with
  | .error f => .fault f
  | .ok (d, rsp) => .next (State.respond .dec rsp { s with dec := d })

/-- End an encoder command: its new unit state and its one response (rules R15, R82). -/
def answerEnc (s : State) (r : Except Fault (EncUnit × Response)) : Host.Outcome State Fault Refusal :=
  match r with
  | .error f => .fault f
  | .ok (e, rsp) => .next (State.respond .enc rsp { s with enc := e })

/-- `fail <Class>` of a decoder command, the core's only exception entry (rules R180, R189): nothing is
saved, control goes nowhere, the phase becomes FAILED for the two classes about the stream's data,
and the response is a failure. `d` holds the changes the command made before it failed. -/
def DecUnit.raise (d : DecUnit) (c : FailClass) : DecUnit × Response :=
  ({ d with phase := c.phaseAfter d.phase }, .fail c)

/-- `fail <Class>` of an encoder command (rules R180, R185, R186): no state changes. -/
def EncUnit.raise (e : EncUnit) (c : FailClass) : EncUnit × Response := (e, .fail c)

/-- A reserved operation code at a port (rules R84, R186): no unit state changes. -/
def State.raiseIllegal (p : Port) (s : State) : State := s.respond p (.fail .illegal)

/-- The way back from FAILED and CLOSED (rule R191): the cursors are zeroed and the phase is OPEN. -/
def DecUnit.reopen (d : DecUnit) : DecUnit :=
  { d with writePos := 0, streamPos := 0, decodePos := 0, phase := .opened }

end Sys2Proof.Machine
end

