-- ==== Sys2Proof/Machine/DecoderUnit.lean ====
section
/-! DEFINITION. The streaming decoder unit: its two internal procedures (rules R123, R127) and one meaning
for each of its commands (rules R120 to R130). -/

namespace Sys2Proof.Machine

/-- Steps 2 and 3 of a bulk pass (rule R123): `groups` turns of the loop from input offset `s` and output
offset `o`. A group's four bytes are read before its word is stored (rule R58). Answers the error
accumulator, the final output offset and the buffer with its tentative words. -/
def bulkLoop (size : Nat) : (groups s o : Nat) → Word → Memory → Except Fault (Word × Nat × Memory)
  | 0, _, o, acc, m => .ok (acc, o, m)
  | groups + 1, s, o, acc, m => do
    let c0 ← load .dec size m s
    let c1 ← load .dec size m (s + 1)
    let c2 ← load .dec size m (s + 2)
    let c3 ← load .dec size m (s + 3)
    let w := groupWord c0 c1 c2 c3
    let m' ← store .dec size m o (leBytes 4 w)
    bulkLoop size groups (s + 4) (o + 3) (acc ||| w) m'

/-- `BulkDecode()` (rule R123): true when the pass is good, and only then are `streamPos` and `decodePos`
committed. The tentative words stay in the buffer either way (rule R32). -/
def bulkDecode (c : Config) (d : DecUnit) : Except Fault (Bool × DecUnit) := do
  let nsp := nextStreamPos d.writePos.toNat
  let groups := groupsBetween d.streamPos.toNat nsp
  let (acc, o, m) ← bulkLoop (d.bufSize c) groups d.streamPos.toNat d.decodePos.toNat 0 d.buf
  if errorSeen acc then return (false, { d with buf := m })
  else return (true, { d with buf := m, streamPos := BitVec.ofNat 32 nsp, decodePos := BitVec.ofNat 32 o })

/-- The effective symbol count of a tail once its legal pads are removed (rules R103, R127). -/
def effectiveSymbols : List Byte → Nat
  | [_, _, t2, t3] => if t3 = pad then (if t2 = pad then 2 else 3) else 4
  | tail => tail.length

/-- The tail word: one lookup for each effective symbol (rule R127). -/
def tailWord (tail : List Byte) (symbols : Nat) : Word :=
  let w := tableD0 (tail.getD 0 0) ||| tableD1 (tail.getD 1 0)
  if symbols > 2 then
    let w := w ||| tableD2 (tail.getD 2 0)
    if symbols = 4 then w ||| tableD3 (tail.getD 3 0) else w
  else w

/-- `TailDecode(sp, rem)` (rule R127): the tail word and the number of bytes it holds. -/
def tailDecode (size : Nat) (m : Memory) (sp rem : Nat) : Except Fault (Word × Nat) := do
  let tail ← loadBytes .dec size m sp rem
  let symbols := effectiveSymbols tail
  return (tailWord tail symbols, symbols - 1)

/-- `DEC.NEW` on the unit (rule R120): the reset state with this `keepSize`. -/
def DecUnit.renew (keepSize : Word) (d : DecUnit) : DecUnit :=
  { d.reopen with keepSize := keepSize, memBytes := 0, capacity := 0, buf := [] }

/-- `DEC.INIT` on the unit (rule R121). The memory never shrinks; bytes of the buffer keep what they hold. -/
def DecUnit.init (c : Config) (size : Word) (d : DecUnit) : DecUnit × Response :=
  let need := decNeed c size.toNat
  if c.memMax < need then d.raise .noMem
  else
    ({ d.reopen with
        memBytes := grownTo c d.memBytes need
        capacity := BitVec.ofNat 32 (capacityFor size.toNat) },
      .ok 0 [])

/-- `DEC.PUT` on the unit (rule R122): the tests in the order of rule R188, then the append, then a bulk
pass when `T_PUT` or more bytes are pending. -/
def DecUnit.put (c : Config) (chunk : List Byte) (d : DecUnit) : Except Fault (DecUnit × Response) :=
  if d.phase ≠ .opened then .ok (d.raise .phase)
  else if d.capacity.toNat < d.writePos.toNat + chunk.length then .ok (d.raise .capacity)
  else do
    let m ← store .dec (d.bufSize c) d.buf d.writePos.toNat chunk
    let d' := { d with buf := m, writePos := BitVec.ofNat 32 (d.writePos.toNat + chunk.length) }
    if c.tPut ≤ d'.pending then
      let (good, d'') ← bulkDecode c d'
      if good then return (d'', .ok 0 []) else return d''.raise .invalidSymbol
    else return (d', .ok 0 [])

/-- The part of `DEC.END` after its bulk step (rule R126): the trailer check, the tail decode and the
commit of 1 to 3 bytes. -/
def DecUnit.finish (c : Config) (d : DecUnit) : Except Fault (DecUnit × Response) :=
  if d.pending < 2 then .ok (d.raise .incompleteTrailer)
  else do
    let (w, dp) ← tailDecode (d.bufSize c) d.buf d.streamPos.toNat d.pending
    if errorSeen w then return d.raise .invalidSymbol
    else
      let m ← store .dec (d.bufSize c) d.buf d.decodePos.toNat (leBytes dp w)
      return ({ d with
          buf := m
          decodePos := BitVec.ofNat 32 (d.decodePos.toNat + dp)
          streamPos := d.writePos
          phase := .closed }, .ok 0 [])

/-- `DEC.END` on the unit (rule R126). -/
def DecUnit.close (c : Config) (d : DecUnit) : Except Fault (DecUnit × Response) :=
  if d.phase ≠ .opened then .ok (d.raise .phase)
  else if 4 < d.pending then do
    let (good, d') ← bulkDecode c d
    if good then d'.finish c else return d'.raise .invalidSymbol
  else d.finish c

/-- `DEC.DATA` on the unit (rule R128): a copy of the output region (rule R68). -/
def DecUnit.data (c : Config) (d : DecUnit) : Except Fault (DecUnit × Response) := do
  let bytes ← loadBytes .dec (d.bufSize c) d.buf 0 d.decodePos.toNat
  return (d, .ok d.decodePos bytes)

/-- `DEC.RELEASE` on the unit (rule R129): the memory is freed when it exceeds `keepSize`, strictly. -/
def DecUnit.release (d : DecUnit) : DecUnit :=
  if d.keepSize.toNat < d.memBytes.toNat then { d.reopen with memBytes := 0, capacity := 0, buf := [] }
  else d.reopen

/-- `DEC.STAT` on the unit (rule R130). -/
def DecUnit.stat (reg : Word) (d : DecUnit) : DecUnit × Response :=
  match d.reg? reg.toNat with
  | some v => (d, .ok v [])
  | none => d.raise .illegal

/-- `DEC.NEW keepSize` (rule R120). -/
def execDecNew (keepSize : Word) (s : State) : Host.Outcome State Fault Refusal :=
  answerDec s (.ok (s.dec.renew keepSize, .ok 0 []))

/-- `DEC.INIT size` (rule R121). -/
def execDecInit (size : Word) (s : State) : Host.Outcome State Fault Refusal :=
  answerDec s (.ok (s.dec.init s.cfg size))

/-- `DEC.PUT n, bytes` (rule R122). -/
def execDecPut (chunk : List Byte) (s : State) : Host.Outcome State Fault Refusal :=
  answerDec s (s.dec.put s.cfg chunk)

/-- `DEC.END`, its `arg` ignored (rules R85, R126). -/
def execDecEnd (_arg : Word) (s : State) : Host.Outcome State Fault Refusal :=
  answerDec s (s.dec.close s.cfg)

/-- `DEC.DATA`, its `arg` ignored (rules R85, R128). -/
def execDecData (_arg : Word) (s : State) : Host.Outcome State Fault Refusal :=
  answerDec s (s.dec.data s.cfg)

/-- `DEC.RELEASE`, its `arg` ignored (rules R85, R129). -/
def execDecRelease (_arg : Word) (s : State) : Host.Outcome State Fault Refusal :=
  answerDec s (.ok (s.dec.release, .ok 0 []))

/-- `DEC.STAT r` (rule R130). -/
def execDecStat (reg : Word) (s : State) : Host.Outcome State Fault Refusal :=
  answerDec s (.ok (s.dec.stat reg))

end Sys2Proof.Machine
end

