-- ==== Sys2Proof/Machine/EncoderUnit.lean ====
section
/-! DEFINITION. The one-shot encoder unit: its two internal procedures (rules R162, R163) and one meaning
for each of its commands (rules R160 to R167). -/

namespace Sys2Proof.Machine

/-- `EncodeBlock(src, dst)` (rule R162). -/
def encodeBlock (size : Nat) (m : Memory) (src dst : Nat) : Except Fault Memory := do
  let b0 ← load .enc size m src
  let b1 ← load .enc size m (src + 1)
  let b2 ← load .enc size m (src + 2)
  let acc := blockAcc b0 b1 b2
  let m' ← store .enc size m dst (leBytes 2 (lut (highIndex acc)))
  store .enc size m' (dst + 2) (leBytes 2 (lut (lowIndex acc)))

/-- The complete blocks (rule R161): `blocks` of them, the first from `src` to `dst`. -/
def encodeBlocks (size : Nat) : (blocks src dst : Nat) → Memory → Except Fault Memory
  | 0, _, _, m => .ok m
  | blocks + 1, src, dst, m => do
    let m' ← encodeBlock size m src dst
    encodeBlocks size blocks (src + 3) (dst + 4) m'

/-- `b1` of a tail of `r` bytes whose second byte is at `a` (rule R163): a missing byte is 0x00. -/
def loadTailSecond (size : Nat) (m : Memory) (a r : Nat) : Except Fault Byte :=
  if r = 2 then load .enc size m a else .ok 0x00

/-- Symbol 2 of a tail of `r` bytes (rule R163): an alphabet symbol for two bytes, a pad for one. -/
def tailThird (acc : BitVec 24) (r : Nat) : Byte := if r = 2 then alpha (tailIndex acc) else pad

/-- `EncodeTail(src, dst, r)` for the `r` leftover bytes (rule R163); nothing when `r` = 0 (rule R161). -/
def encodeTail (size : Nat) (m : Memory) (src dst r : Nat) : Except Fault Memory :=
  if r = 0 then .ok m
  else do
    let b0 ← load .enc size m src
    let b1 ← loadTailSecond size m (src + 1) r
    let acc := blockAcc b0 b1 0x00
    let m1 ← store .enc size m dst (leBytes 2 (lut (highIndex acc)))
    let m2 ← store .enc size m1 (dst + 2) [tailThird acc r]
    store .enc size m2 (dst + 3) [pad]

/-- `ENC.NEW` on the unit (rule R160): the reset state with this `keepSize`. -/
def EncUnit.renew (keepSize : Word) (e : EncUnit) : EncUnit :=
  { e with keepSize := keepSize, memBytes := 0, buf := [] }

/-- `ENC.ENCODE` on the unit (rule R161): grow, copy the source to the top, encode to the bottom, read
the result. -/
def EncUnit.encode (c : Config) (source : List Byte) (e : EncUnit) : Except Fault (EncUnit × Response) :=
  let n := source.length
  if c.memMax < encNeed c n then .ok (e.raise .noMem)
  else do
    let e' := { e with memBytes := grownTo c e.memBytes (encNeed c n) }
    let size := e'.bufSize c
    let srcOff := e'.sourceOffset c n
    let m0 ← store .enc size e.buf srcOff source
    let m1 ← encodeBlocks size (n / 3) srcOff 0 m0
    let m2 ← encodeTail size m1 (srcOff + 3 * (n / 3)) (4 * (n / 3)) (n % 3)
    let bytes ← loadBytes .enc size m2 0 (encOutLen n)
    return ({ e' with buf := m2 }, .ok (BitVec.ofNat 32 (encOutLen n)) bytes)

/-- `ENC.RELEASE` on the unit (rule R166): the memory is freed when it exceeds `keepSize`, strictly. -/
def EncUnit.release (e : EncUnit) : EncUnit :=
  if e.keepSize.toNat < e.memBytes.toNat then { e with memBytes := 0, buf := [] } else e

/-- `ENC.STAT` on the unit (rule R167). -/
def EncUnit.stat (reg : Word) (e : EncUnit) : EncUnit × Response :=
  match e.reg? reg.toNat with
  | some v => (e, .ok v [])
  | none => e.raise .illegal

/-- `ENC.NEW keepSize` (rule R160). -/
def execEncNew (keepSize : Word) (s : State) : Host.Outcome State Fault Refusal :=
  answerEnc s (.ok (s.enc.renew keepSize, .ok 0 []))

/-- `ENC.ENCODE n, bytes` (rule R161). -/
def execEncEncode (source : List Byte) (s : State) : Host.Outcome State Fault Refusal :=
  answerEnc s (s.enc.encode s.cfg source)

/-- `ENC.RELEASE`, its `arg` ignored (rules R85, R166). -/
def execEncRelease (_arg : Word) (s : State) : Host.Outcome State Fault Refusal :=
  answerEnc s (.ok (s.enc.release, .ok 0 []))

/-- `ENC.STAT r` (rule R167). -/
def execEncStat (reg : Word) (s : State) : Host.Outcome State Fault Refusal :=
  answerEnc s (.ok (s.enc.stat reg))

end Sys2Proof.Machine
end

