-- ==== Sys2Proof/Machine/Dispatch.lean ====
section
/-! DEFINITION. The meaning of every command, one arm for each constructor of `Instr`. -/

namespace Sys2Proof.Machine

/-- The effect of one whole command (rule R15: one atomic transition) and its one response (rule R82). -/
def exec (i : Instr) (s : State) : Host.Outcome State Fault Refusal :=
  match i with
  | .decNew keepSize => Sys2Proof.Machine.execDecNew keepSize s
  | .decInit size => Sys2Proof.Machine.execDecInit size s
  | .decPut chunk => Sys2Proof.Machine.execDecPut chunk s
  | .decEnd arg => Sys2Proof.Machine.execDecEnd arg s
  | .decData arg => Sys2Proof.Machine.execDecData arg s
  | .decRelease arg => Sys2Proof.Machine.execDecRelease arg s
  | .decStat reg => Sys2Proof.Machine.execDecStat reg s
  | .encNew keepSize => Sys2Proof.Machine.execEncNew keepSize s
  | .encEncode source => Sys2Proof.Machine.execEncEncode source s
  | .encRelease arg => Sys2Proof.Machine.execEncRelease arg s
  | .encStat reg => Sys2Proof.Machine.execEncStat reg s

end Sys2Proof.Machine
end

