-- ==== Sys2Proof/Machine/Fetch.lean ====
section
/-! DEFINITION. The streams between the host and the units (rules R80 to R84): what arrives, the router of
a core with a single command input, which command is executed next, and what the host reads back. -/

namespace Sys2Proof.Machine

/-- A port's command stream. -/
def State.cmd (s : State) (p : Port) : List Byte :=
  match p with
  | .dec => s.decCmd
  | .enc => s.encCmd

/-- Replace a port's command stream. -/
def State.setCmd (p : Port) (bs : List Byte) (s : State) : State :=
  match p with
  | .dec => { s with decCmd := bs }
  | .enc => { s with encCmd := bs }

/-- A port's responses, oldest first. -/
def State.rsp (s : State) (p : Port) : List Response :=
  match p with
  | .dec => s.decRsp
  | .enc => s.encRsp

/-- The bytes of a port's response stream since reset (rule R82). -/
def State.rspBytes (s : State) (p : Port) : List Byte := (s.rsp p).flatMap Response.bytes

/-- The host sends bytes to a port (rule R80). It may do so between any two steps. -/
def State.arrive (p : Port) (bs : List Byte) (s : State) : State := s.setCmd p (s.cmd p ++ bs)

/-- The host sends bytes to the single command input of a core that has one (rule R80). -/
def State.arriveSingle (bs : List Byte) (s : State) : State := { s with cmdIn := s.cmdIn ++ bs }

/-- What is at the front of a command stream: a whole command, a reserved header, or neither yet. -/
inductive Front where
  /-- A whole command of operation code `op`, and the bytes after it. -/
  | command (i : Instr) (rest : List Byte)
  /-- A header with a reserved `op`, and the bytes after its 5 bytes (rule R84: no payload). -/
  | reservedOp (op : Byte) (rest : List Byte)
  /-- No whole command: the unit waits for bytes (rule R224). -/
  | incomplete
deriving DecidableEq, Repr

/-- The front of a command stream. -/
def front (bs : List Byte) : Front :=
  match decode bs with
  | .ok (i, rest) => .command i rest
  | .error (.reserved op) => .reservedOp op (bs.drop 5)
  | .error .shortHeader => .incomplete
  | .error (.shortPayload _) => .incomplete

/-- A port can be served: its stream begins with a whole command or a reserved header. -/
def State.ready (s : State) (p : Port) : Bool := front (s.cmd p) != .incomplete

/-- The port a step serves: the one whose turn it is when it is ready, else the other (log entry 5). -/
def State.served (s : State) : Option Port :=
  if s.ready s.turn then some s.turn
  else if s.ready s.turn.other then some s.turn.other
  else none

/-- Take the bytes before `rest` off port `p`'s stream and give the turn to the other port. -/
def State.consume (p : Port) (rest : List Byte) (s : State) : State :=
  { s.setCmd p rest with turn := p.other }

/-- The router of a core with a single command input (rules R80, R84): one whole command, header and
payload, or one reserved header, moves to the port its `op` selects. -/
def State.routeOne (s : State) : Option State :=
  match front s.cmdIn with
  | .command i rest => some (State.arrive i.port (encode i) { s with cmdIn := rest })
  | .reservedOp op rest => some (State.arrive (portOfOp op) (s.cmdIn.take 5) { s with cmdIn := rest })
  | .incomplete => none

/-- What a step is about to do. -/
inductive Fetched where
  /-- A unit executes a command already taken off its stream. -/
  | run (i : Instr) (s : State)
  /-- A unit answers a reserved header already taken off its stream (rule R84). -/
  | illegal (p : Port) (s : State)
  /-- Port `p` was given a command of the other unit (rule R80: such a command never reaches a unit). -/
  | misrouted (p : Port) (op : Byte)
  /-- The router has moved a command to its port. -/
  | routed (s : State)
  /-- Nothing whole is there: the units wait (rules R210, R224). -/
  | idle

/-- The first command of the port being served, taken off its stream. -/
def State.takeFrom (p : Port) (s : State) : Fetched :=
  match front (s.cmd p) with
  | .command i rest => if i.port = p then .run i (s.consume p rest) else .misrouted p i.op.code
  | .reservedOp op rest => if portOfOp op = p then .illegal p (s.consume p rest) else .misrouted p op
  | .incomplete => .idle

/-- What the next step does: serve a port that is ready, else route, else wait. -/
def State.fetch (s : State) : Fetched :=
  match s.served with
  | some p => s.takeFrom p
  | none =>
    match s.routeOne with
    | some s' => .routed s'
    | none => .idle

/-- The command with table bits `w` placed at the front of its port's stream, that port next in turn. -/
def State.placeFront (nbits w : Nat) (s : State) : State :=
  let p := portOfOp (BitVec.ofNat 8 w)
  { s.setCmd p (tableBytes nbits w ++ s.cmd p) with turn := p }

end Sys2Proof.Machine
end

