-- ==== Sys2Proof/Machine/Step.lean ====
section
/-! DEFINITION. One step of the core: one command executed and answered, or one command routed, or, when
no whole command has arrived, nothing (rules R15, R63, R80 to R84, R210). -/

namespace Sys2Proof.Machine

/-- One step. It is a function of the state alone (rule R33). -/
def step (s : State) : Host.Outcome State Fault Refusal :=
  match s.fetch with
  | .run i s' => exec i s'
  | .illegal p s' => .next (s'.raiseIllegal p)
  | .misrouted p op => .refused (.misrouted p op)
  | .routed s' => .next s'
  | .idle => .next s

/-- `s` with the instruction of these table bits at the front of its port's command stream, where the
next step takes it (log entry 6). -/
def State.withFetchWord (s : State) (nbits w : Nat) : State := s.placeFront nbits w

end Sys2Proof.Machine
end

