-- ==== Sys2Proof/Safety.lean ====
section
/-! DEFINITION. The terms claims are stated in: the invariant of the core (rules R22 to R24, R30, R31, R57),
and base64 itself, written from rules R90 to R106 and not from the tables, against which the units are
compared. -/

namespace Sys2Proof

open Sys2Proof.Machine

/-- What holds of the decoder unit in every state reached from reset. -/
structure Machine.DecUnit.Inv (c : Config) (d : DecUnit) : Prop where
  /-- Rule R22. -/
  decoded_le : d.decodePos.toNat ≤ d.streamPos.toNat
  /-- Rule R22. -/
  stream_le : d.streamPos.toNat ≤ d.writePos.toNat
  /-- Rule R22. -/
  write_le : d.writePos.toNat ≤ d.capacity.toNat
  /-- Rule R23, phases OPEN and FAILED. -/
  grouped : d.phase ≠ .closed →
    d.streamPos.toNat % 4 = 0 ∧ d.decodePos.toNat = 3 * d.streamPos.toNat / 4
  /-- Rule R23, phase CLOSED. -/
  finished : d.phase = .closed → d.streamPos = d.writePos
  /-- Rule R24: a multiple of `PAGE` (0 is one). -/
  mem_paged : d.memBytes.toNat % c.page = 0
  /-- Rule R24: not above `MEM_MAX`. -/
  mem_le : d.memBytes.toNat ≤ c.memMax
  /-- Rule R24: what is reserved is held. -/
  reserved : 0 < d.capacity.toNat → d.capacity.toNat + c.ovhDec ≤ d.memBytes.toNat
  /-- The buffer is in its canonical form. -/
  buf_wf : d.buf.wf = true
  /-- Rule R30: no byte exists outside the buffer. -/
  buf_range : ∀ a, d.bufSize c ≤ a → d.buf.read? a = none
  /-- Rule R57: every input offset below `writePos` has been written. -/
  written : ∀ a, a < d.writePos.toNat → (d.buf.read? a).isSome = true

/-- What holds of the encoder unit in every state reached from reset. -/
structure Machine.EncUnit.Inv (c : Config) (e : EncUnit) : Prop where
  /-- Rule R31: a multiple of `PAGE` (0 is one). -/
  mem_paged : e.memBytes.toNat % c.page = 0
  /-- Rule R31: not above `MEM_MAX`. -/
  mem_le : e.memBytes.toNat ≤ c.memMax
  /-- The buffer is in its canonical form. -/
  buf_wf : e.buf.wf = true
  /-- Rule R31: no byte exists outside the buffer. -/
  buf_range : ∀ a, e.bufSize c ≤ a → e.buf.read? a = none

/-- The invariant of the core: legal parameters (rules R7 to R9) and both units in order. -/
structure Machine.State.Inv (s : State) : Prop where
  cfg : s.cfg.Legal
  dec : s.dec.Inv s.cfg
  enc : s.enc.Inv s.cfg

/-- The first header on a port's stream, when one is whole, is for that port's unit (rules R80, R84). -/
def Machine.State.Routed (s : State) (p : Port) : Prop :=
  ∀ op rest, s.cmd p = op :: rest → portOfOp op = p

/-- The committed output `d.buf[0 .. decodePos)` (rules R30, R60). -/
def Machine.DecUnit.output? (d : DecUnit) : Option (List Byte) := d.buf.readBytes? 0 d.decodePos.toNat

/-- A byte is one of the 64 symbols (rule R102). -/
def isSymbol (c : Byte) : Bool := (symVal c).isSome

/-- The 6-bit value of a symbol; 0 for any other byte. -/
def symValue (c : Byte) : BitVec 6 := (symVal c).getD 0

/-- Rule R93: the three bytes of four 6-bit values. -/
def bytesOfValues (v0 v1 v2 v3 : BitVec 6) : List Byte :=
  [v0 ++ v1.extractLsb' 4 2, v1.extractLsb' 0 4 ++ v2.extractLsb' 2 4, v2.extractLsb' 0 2 ++ v3]

/-- Rule R93: the four 6-bit values of three bytes, as symbols. -/
def symbolsOfBytes (b0 b1 b2 : Byte) : List Byte :=
  [alpha (b0.extractLsb' 2 6), alpha (b0.extractLsb' 0 2 ++ b1.extractLsb' 4 4),
   alpha (b1.extractLsb' 0 4 ++ b2.extractLsb' 6 2), alpha (b2.extractLsb' 0 6)]

/-- `G(g)` (rule R135): the bytes of whole groups of symbols. -/
def decodedGroups : List Byte → List Byte
  | c0 :: c1 :: c2 :: c3 :: rest =>
    bytesOfValues (symValue c0) (symValue c1) (symValue c2) (symValue c3) ++ decodedGroups rest
  | _ => []

/-- The bytes of `n` symbols of a last group, the missing symbols having value 0 (rules R93, R106). -/
def partialGroup (symbols : List Byte) : Option (List Byte) :=
  if symbols.all isSymbol then
    let v (i : Nat) := symValue (symbols.getD i 0x41)
    some ((bytesOfValues (v 0) (v 1) (v 2) (v 3)).take (symbols.length - 1))
  else none

/-- Base64 decoding of a tail of 2, 3 or 4 bytes, padded or not (rules R103, R104, R106). -/
def decodedTail : List Byte → Option (List Byte)
  | [t0, t1] => partialGroup [t0, t1]
  | [t0, t1, t2] => partialGroup [t0, t1, t2]
  | [t0, t1, t2, t3] =>
    if t3 = pad ∧ t2 = pad then partialGroup [t0, t1]
    else if t3 = pad then partialGroup [t0, t1, t2]
    else partialGroup [t0, t1, t2, t3]
  | _ => none

/-- Where the tail of a stream of `n` bytes begins (rule R137): the last 1 to 4 bytes. -/
def tailStart (n : Nat) : Nat := 4 * ((n - 1) / 4)

/-- Base64 decoding of a whole stream (rule R137); none when it is not a base64 text. -/
def base64Decode (s : List Byte) : Option (List Byte) :=
  if (s.take (tailStart s.length)).all isSymbol then
    (decodedTail (s.drop (tailStart s.length))).map fun tail =>
      decodedGroups (s.take (tailStart s.length)) ++ tail
  else none

/-- `E(b)`, base64 encoding (rules R93, R168): whole groups, then a tail with its pads. -/
def base64Encode : List Byte → List Byte
  | b0 :: b1 :: b2 :: rest => symbolsOfBytes b0 b1 b2 ++ base64Encode rest
  | [b0, b1] => (symbolsOfBytes b0 b1 0).take 3 ++ [pad]
  | [b0] => (symbolsOfBytes b0 0 0).take 2 ++ [pad, pad]
  | [] => []

/-- Rule R135: the decoder unit holds the stream `input`, the payload bytes accepted since it was last
opened. In OPEN the pending bytes are still there; in OPEN and FAILED the output is that of the groups
committed; in CLOSED the output is that of the whole stream. -/
def Machine.DecUnit.Holds (d : DecUnit) (input : List Byte) : Prop :=
  input.length = d.writePos.toNat ∧
  match d.phase with
  | .opened =>
    d.buf.readBytes? d.streamPos.toNat d.pending = some (input.drop d.streamPos.toNat) ∧
    (input.take d.streamPos.toNat).all isSymbol = true ∧
    d.output? = some (decodedGroups (input.take d.streamPos.toNat))
  | .failed =>
    (input.take d.streamPos.toNat).all isSymbol = true ∧
    d.output? = some (decodedGroups (input.take d.streamPos.toNat))
  | .closed => ∃ out, base64Decode input = some out ∧ d.output? = some out

/-- The stream after a command (rule R135): `put` appends the chunk it accepts, `new`, `release` and an
`init` that succeeds begin an empty one, everything else leaves it. -/
def acceptedAfter (i : Instr) (s : State) (input : List Byte) : List Byte :=
  match i with
  | .decNew _ => []
  | .decInit size => if s.cfg.memMax < decNeed s.cfg size.toNat then input else []
  | .decPut chunk =>
    if s.dec.phase = .opened ∧ s.dec.writePos.toNat + chunk.length ≤ s.dec.capacity.toNat then input ++ chunk
    else input
  | .decEnd _ => input
  | .decData _ => input
  | .decRelease _ => []
  | .decStat _ => input
  | .encNew _ => input
  | .encEncode _ => input
  | .encRelease _ => input
  | .encStat _ => input

/-- Bytes a bulk pass over `groups` groups stores from `decodePos` on (rules R54, R123): 3 for each group and the fourth
byte of the last word; none when the pass has no group. -/
def passStores (groups : Nat) : Nat := if groups = 0 then 0 else 3 * groups + 1

/-- The lag of rule R128: in phase OPEN fewer than `T_PUT` bytes are pending, or at most 4. -/
def Machine.DecUnit.Lag (c : Config) (d : DecUnit) : Prop :=
  d.phase = .opened → d.pending < c.tPut ∨ d.pending ≤ 4

/-- The states a core with parameters `c` can be in: power-on, then steps, and bytes sent by the host at any time to
either port or to the single command input (rules R80, R210). -/
inductive Reachable (c : Config) : State → Prop where
  | powerOn : Reachable c (State.powerOn c)
  | step {s t : State} : Reachable c s → Machine.step s = .next t → Reachable c t
  | arrive {s : State} (p : Port) (bs : List Byte) : Reachable c s → Reachable c (s.arrive p bs)
  | arriveSingle {s : State} (bs : List Byte) : Reachable c s → Reachable c (s.arriveSingle bs)

/-- Commands executed one after another, stopping at the first that does not answer a next state. -/
def execAll : List Instr → State → Host.Outcome State Fault Refusal
  | [], s => .next s
  | i :: is, s =>
    match exec i s with
    | .next t => execAll is t
    | .fault f => .fault f
    | .refused r => .refused r

/-- Every response of a list reports success. -/
def allOk (rs : List Response) : Bool := rs.all fun r => !r.status

end Sys2Proof
end

