-- ==== Sys2Proof/Certificates/Slice0/Obligations.lean ====
section
/-! DEFINITION. The statements for the provers. A next state `t` is given by what its new fields hold and by one equation
`t = State.respond p r …` that says every other field is that of `s`: the frame. -/

open Sys2Proof Sys2Proof.Machine

/-! ### Reset and the invariant -/

/-- Rules R34, R210: whatever the build parameters, every register is zero, the phase is OPEN, no memory is held and no
byte exists; no byte is on a stream and nothing starts running. (`State.reset` uses the parameters of log entry 1.) -/
def Obligations.PowerOnStateIsZeroAndIdle : Prop :=
  ∀ c : Config, ∀ s : State, s = State.powerOn c →
    s.cfg = c ∧
    s.dec.keepSize = 0 ∧ s.dec.memBytes = 0 ∧ s.dec.capacity = 0 ∧ s.dec.writePos = 0 ∧ s.dec.streamPos = 0 ∧
    s.dec.decodePos = 0 ∧ s.dec.phase = .opened ∧ s.dec.buf = [] ∧ s.dec.bufSize c = 0 ∧
    s.enc.keepSize = 0 ∧ s.enc.memBytes = 0 ∧ s.enc.buf = [] ∧ s.enc.bufSize c = 0 ∧
    s.cmdIn = [] ∧ s.decCmd = [] ∧ s.encCmd = [] ∧ s.decRsp = [] ∧ s.encRsp = [] ∧
    step s = .next s

/-- Rule R136: the invariants hold at power-on, for all legal parameters, and so at reset. -/
def Obligations.PowerOnMeetsInvariant : Prop :=
  (∀ c : Config, c.Legal → (State.powerOn c).Inv ∧ (State.powerOn c).dec.Lag c ∧ (State.powerOn c).dec.Holds []) ∧
  State.reset.Inv

/-- Rules R22, R23, R24, R30, R31, R57, R136: from every state that meets the invariant, a step that answers keeps it.
(The canonical form of the buffers, which the invariant includes, is the model's own choice, log entry 2.) -/
def Obligations.StepKeepsInvariant : Prop :=
  ∀ s t : State, s.Inv → step s = .next t → t.Inv

/-- Rule R57 and the totality of every command: from every state that meets the invariant and whose ports hold their own
commands, a step answers a next state; no access leaves a buffer and no unwritten byte is read. -/
def Obligations.StepAlwaysAnswers : Prop :=
  ∀ s : State, s.Inv → s.Routed .dec → s.Routed .enc → ∃ t, step s = .next t

/-- Rule R22: the ordering of the cursors in every state reachable from reset, whatever the host sends. -/
def Obligations.ReachableCursorsAreOrdered : Prop :=
  ∀ (c : Config) (s : State), c.Legal → Reachable c s →
    s.dec.decodePos.toNat ≤ s.dec.streamPos.toNat ∧ s.dec.streamPos.toNat ≤ s.dec.writePos.toNat ∧
    s.dec.writePos.toNat ≤ s.dec.capacity.toNat

/-- Rules R23, R24, R27, R31, R57: in every reachable state the group invariant holds, each memory size is a multiple of
`PAGE` not above `MEM_MAX`, the reserved capacity is held, and a cursor cannot wrap. -/
def Obligations.ReachableGroupsAndMemorySizes : Prop :=
  ∀ (c : Config) (s : State), c.Legal → Reachable c s →
    (s.dec.phase = .opened ∨ s.dec.phase = .failed →
      s.dec.streamPos.toNat % 4 = 0 ∧ s.dec.decodePos.toNat = 3 * s.dec.streamPos.toNat / 4) ∧
    (s.dec.phase = .closed → s.dec.streamPos = s.dec.writePos) ∧
    s.dec.memBytes.toNat % c.page = 0 ∧ s.dec.memBytes.toNat ≤ c.memMax ∧
    s.enc.memBytes.toNat % c.page = 0 ∧ s.enc.memBytes.toNat ≤ c.memMax ∧
    (0 < s.dec.capacity.toNat → s.dec.capacity.toNat + c.ovhDec ≤ s.dec.memBytes.toNat) ∧
    s.dec.streamPos.toNat ≤ c.memMax ∧ c.memMax < 2 ^ 32

/-- Rule R128: the lag of the output behind the input stays below `max(T_PUT - 1, 4)` bytes. -/
def Obligations.StepKeepsLag : Prop :=
  ∀ s t : State, s.Inv → s.dec.Lag s.cfg → step s = .next t → t.dec.Lag t.cfg

/-- The canonical form of a buffer says everything: two buffers in it with the same bytes are equal (log entry 2). -/
def Obligations.CanonicalBuffersAreEqual : Prop :=
  ∀ m m' : Memory, m.wf = true → m'.wf = true → (∀ a, m.read? a = m'.read? a) → m = m'

/-! ### Encodings -/

/-- Rules R80, R81, R83: every well-formed command is read back from its bytes, whatever follows them. -/
def Obligations.DecodeOfEncode : Prop :=
  ∀ (i : Instr) (rest : List Byte), i.wellFormed = true → decode (encode i ++ rest) = .ok (i, rest)

/-- Rules R80, R81: the bytes a decoded command was read from are its encoding; no bit of a header is dropped. -/
def Obligations.EncodeOfDecode : Prop :=
  ∀ (bs rest : List Byte) (i : Instr), decode bs = .ok (i, rest) → i.wellFormed = true ∧ encode i ++ rest = bs

/-- Rules R80, R83: the header of each command, its operation code and its port. -/
def Obligations.HeadersFollowOpcodeMap : Prop :=
  (∀ k, encode (.decNew k) = 0x00#8 :: leBytes 4 k) ∧ (∀ n, encode (.decInit n) = 0x01#8 :: leBytes 4 n) ∧
  (∀ p : List Byte, encode (.decPut p) = 0x02#8 :: leBytes 4 (BitVec.ofNat 32 p.length) ++ p) ∧
  (∀ a, encode (.decEnd a) = 0x03#8 :: leBytes 4 a) ∧ (∀ a, encode (.decData a) = 0x04#8 :: leBytes 4 a) ∧
  (∀ a, encode (.decRelease a) = 0x05#8 :: leBytes 4 a) ∧ (∀ r, encode (.decStat r) = 0x06#8 :: leBytes 4 r) ∧
  (∀ k, encode (.encNew k) = 0x08#8 :: leBytes 4 k) ∧
  (∀ p : List Byte, encode (.encEncode p) = 0x09#8 :: leBytes 4 (BitVec.ofNat 32 p.length) ++ p) ∧
  (∀ a, encode (.encRelease a) = 0x0D#8 :: leBytes 4 a) ∧ (∀ r, encode (.encStat r) = 0x0E#8 :: leBytes 4 r) ∧
  (∀ i : Instr, i.port = if i.op.code.toNat < 8 then .dec else .enc)

/-- Rule R84: exactly the codes 0x07, 0x0A, 0x0B, 0x0C, 0x0F and 0x10 to 0xFF are rejected as reserved, with any `arg`
and whatever follows. -/
def Obligations.ReservedCodesAreRejected : Prop :=
  ∀ (op a0 a1 a2 a3 : Byte) (rest : List Byte),
    decode (op :: a0 :: a1 :: a2 :: a3 :: rest) = .error (.reserved op) ↔
      op.toNat = 0x07 ∨ op.toNat = 0x0A ∨ op.toNat = 0x0B ∨ op.toNat = 0x0C ∨ op.toNat = 0x0F ∨ 0x10 ≤ op.toNat

/-- Rule R83: words written out from the opcode map decode to the commands they stand for (95_test_vectors.md, V-X, P1
to P7). -/
def Obligations.SampleWordsDecode : Prop :=
  decode [0x00, 0x00, 0x00, 0x01, 0x00] = .ok (.decNew 65536, []) ∧
  decode [0x02, 0x03, 0x00, 0x00, 0x00, 0x54, 0x57, 0x46] = .ok (.decPut [0x54, 0x57, 0x46], []) ∧
  decode [0x03, 0xEF, 0xBE, 0xAD, 0xDE] = .ok (.decEnd 0xDEADBEEF, []) ∧
  decode [0x09, 0x03, 0x00, 0x00, 0x00, 0x4D, 0x61, 0x6E] = .ok (.encEncode [0x4D, 0x61, 0x6E], []) ∧
  decode [0x0E, 0x02, 0x00, 0x00, 0x00] = .ok (.encStat 2, [])

/-! ### Alphabet and tables -/

/-- Rules R90, R91: the 64 symbols in order with their codes, and the bijection with the values 0 to 63. -/
def Obligations.AlphabetIsBase64 : Prop :=
  (∀ v : BitVec 6,
    (v.toNat < 26 → (alpha v).toNat = 0x41 + v.toNat) ∧
    (26 ≤ v.toNat ∧ v.toNat < 52 → (alpha v).toNat = 0x61 + (v.toNat - 26)) ∧
    (52 ≤ v.toNat ∧ v.toNat < 62 → (alpha v).toNat = 0x30 + (v.toNat - 52)) ∧
    (v.toNat = 62 → alpha v = 0x2B#8) ∧ (v.toNat = 63 → alpha v = 0x2F#8) ∧
    symVal (alpha v) = some v) ∧
  (∀ c v, symVal c = some v → alpha v = c) ∧ symVal 0x3D#8 = none

/-- Rules R94 to R97: what the four decode tables hold at the symbol of value `v`. -/
def Obligations.DecodeTablesAtSymbols : Prop :=
  ∀ (c : Byte) (v : BitVec 6), symVal c = some v →
    tableD0 c = v.setWidth 32 <<< 2 ∧
    tableD1 c = ((v.extractLsb' 4 2).setWidth 32 ||| ((v.extractLsb' 0 4).setWidth 32 <<< 12)) ∧
    tableD2 c = (((v.extractLsb' 2 4).setWidth 32 <<< 8) ||| ((v.extractLsb' 0 2).setWidth 32 <<< 22)) ∧
    tableD3 c = v.setWidth 32 <<< 16

/-- Rule R98: every byte that is not one of the 64 alphabet bytes has 0xFF000000 in all four tables.
(The rule is the spec's own decision D8.) -/
def Obligations.DecodeTablesAtOtherBytes : Prop :=
  ∀ c : Byte, (∀ v, alpha v ≠ c) →
    tableD0 c = 0xFF000000#32 ∧ tableD1 c = 0xFF000000#32 ∧ tableD2 c = 0xFF000000#32 ∧ tableD3 c = 0xFF000000#32

/-- Rules R99, R124: the group word of four symbols has a zero top byte and the three bytes of rule R93 below it; with any
other byte among the four the top byte is 0xFF; an OR of such words has a non-zero top byte exactly when some byte
that went into it is no symbol. -/
def Obligations.GroupWordValidatesAndDecodes : Prop :=
  (∀ c0 c1 c2 c3 : Byte, [c0, c1, c2, c3].all isSymbol = true →
    (groupWord c0 c1 c2 c3).extractLsb' 24 8 = 0#8 ∧
    leBytes 3 (groupWord c0 c1 c2 c3) =
      bytesOfValues (symValue c0) (symValue c1) (symValue c2) (symValue c3)) ∧
  (∀ c0 c1 c2 c3 : Byte, [c0, c1, c2, c3].all isSymbol = false →
    (groupWord c0 c1 c2 c3).extractLsb' 24 8 = 0xFF#8) ∧
  (∀ groups : List (Byte × Byte × Byte × Byte),
    errorSeen (groups.foldl (fun acc g => acc ||| groupWord g.1 g.2.1 g.2.2.1 g.2.2.2) 0) =
      !groups.all fun g => [g.1, g.2.1, g.2.2.1, g.2.2.2].all isSymbol)

/-- Rule R100: a `LUT` word holds the symbol of the high digit in its low byte and that of the low digit in its high byte. -/
def Obligations.EncodeTableWords : Prop :=
  ∀ i : BitVec 12,
    (lut i).extractLsb' 0 8 = alpha (i.extractLsb' 6 6) ∧ (lut i).extractLsb' 8 8 = alpha (i.extractLsb' 0 6)

/-- Rules R52, R93, R101, R162: the two table words of a 3-byte block, stored little-endian, are the four symbols of rule
R93 in stream order. -/
def Obligations.BlockWordsAreFourSymbols : Prop :=
  ∀ b0 b1 b2 : Byte,
    (blockAcc b0 b1 b2).toNat = b0.toNat * 65536 + b1.toNat * 256 + b2.toNat ∧
    leBytes 2 (lut (highIndex (blockAcc b0 b1 b2))) ++ leBytes 2 (lut (lowIndex (blockAcc b0 b1 b2))) =
      symbolsOfBytes b0 b1 b2

/-! ### The decoder's commands -/

/-- Rule R120: `DEC.NEW` leaves the reset state with the given `keepSize`, in every state.
(The rule is the spec's own decision D28.) -/
def Obligations.DecNewRestoresReset : Prop :=
  ∀ (k : Word) (s : State), ∃ t, exec (.decNew k) s = .next t ∧
    t.dec.keepSize = k ∧ t.dec.memBytes = 0 ∧ t.dec.capacity = 0 ∧ t.dec.writePos = 0 ∧ t.dec.streamPos = 0 ∧
    t.dec.decodePos = 0 ∧ t.dec.phase = .opened ∧ t.dec.buf = [] ∧
    t = State.respond .dec (.ok 0 []) { s with dec := t.dec }

/-- Rule R121: `DEC.INIT` that fits `MEM_MAX` reserves `4 * ceil(size / 3)` bytes, grows the memory only when needed and
then to the least multiple of `PAGE` that covers the need, zeroes the cursors and opens the stream. -/
def Obligations.DecInitReservesCapacity : Prop :=
  ∀ (size : Word) (s : State), s.Inv → 4 * ((size.toNat + 2) / 3) + s.cfg.ovhDec ≤ s.cfg.memMax →
    ∃ t, exec (.decInit size) s = .next t ∧
      t.dec.capacity.toNat = 4 * ((size.toNat + 2) / 3) ∧
      (4 * ((size.toNat + 2) / 3) + s.cfg.ovhDec ≤ s.dec.memBytes.toNat → t.dec.memBytes = s.dec.memBytes) ∧
      (s.dec.memBytes.toNat < 4 * ((size.toNat + 2) / 3) + s.cfg.ovhDec →
        t.dec.memBytes.toNat % s.cfg.page = 0 ∧
        4 * ((size.toNat + 2) / 3) + s.cfg.ovhDec ≤ t.dec.memBytes.toNat ∧
        t.dec.memBytes.toNat < 4 * ((size.toNat + 2) / 3) + s.cfg.ovhDec + s.cfg.page) ∧
      t = State.respond .dec (.ok 0 []) { s with dec := { s.dec with
        capacity := t.dec.capacity, memBytes := t.dec.memBytes,
        writePos := 0, streamPos := 0, decodePos := 0, phase := .opened } }

/-- Rules R121, R185: a request above `MEM_MAX` fails `E_NOMEM` and changes nothing else. -/
def Obligations.DecInitBeyondMemMaxFails : Prop :=
  ∀ (size : Word) (s : State), s.cfg.memMax < 4 * ((size.toNat + 2) / 3) + s.cfg.ovhDec →
    exec (.decInit size) s = .next (State.respond .dec (.fail .noMem) s)

/-- Rule R184: `put` and `end` in phase CLOSED or FAILED fail `E_PHASE` and change nothing else, whatever the chunk.
(The rule is the spec's own decision D16.) -/
def Obligations.PutAndEndOutsideOpenFail : Prop :=
  ∀ (chunk : List Byte) (a : Word) (s : State), s.dec.phase = .closed ∨ s.dec.phase = .failed →
    exec (.decPut chunk) s = .next (State.respond .dec (.fail .phase) s) ∧
    exec (.decEnd a) s = .next (State.respond .dec (.fail .phase) s)

/-- Rule R183: a chunk that does not fit the reserved capacity fails `E_CAPACITY` and changes nothing else. -/
def Obligations.PutBeyondCapacityFails : Prop :=
  ∀ (chunk : List Byte) (s : State), s.dec.phase = .opened →
    s.dec.capacity.toNat < s.dec.writePos.toNat + chunk.length →
    exec (.decPut chunk) s = .next (State.respond .dec (.fail .capacity) s)

/-- Rule R122, below the threshold: the chunk is stored at `writePos`, nothing is decoded, no other byte changes. -/
def Obligations.PutBelowThresholdAppends : Prop :=
  ∀ (chunk : List Byte) (s : State), s.Inv → s.dec.phase = .opened →
    s.dec.writePos.toNat + chunk.length ≤ s.dec.capacity.toNat →
    s.dec.writePos.toNat + chunk.length - s.dec.streamPos.toNat < s.cfg.tPut →
    ∃ t, exec (.decPut chunk) s = .next t ∧
      t.dec.writePos.toNat = s.dec.writePos.toNat + chunk.length ∧
      t.dec.buf.readBytes? s.dec.writePos.toNat chunk.length = some chunk ∧
      (∀ x, x < s.dec.writePos.toNat ∨ s.dec.writePos.toNat + chunk.length ≤ x →
        t.dec.buf.read? x = s.dec.buf.read? x) ∧
      t = State.respond .dec (.ok 0 []) { s with dec := { s.dec with
        writePos := t.dec.writePos, buf := t.dec.buf } }

/-- Rules R122, R123, the threshold reached by a chunk whose whole groups are all symbols: they are decoded and committed,
the last 1 to 4 bytes stay pending, and no byte changes but the chunk's and the pass's stores. -/
def Obligations.PutAtThresholdDecodes : Prop :=
  ∀ (chunk pending groups : List Byte) (s : State), s.Inv → s.dec.phase = .opened →
    s.dec.writePos.toNat + chunk.length ≤ s.dec.capacity.toNat →
    s.cfg.tPut ≤ s.dec.writePos.toNat + chunk.length - s.dec.streamPos.toNat →
    s.dec.buf.readBytes? s.dec.streamPos.toNat s.dec.pending = some pending →
    groups = (pending ++ chunk).take (tailStart (pending ++ chunk).length) → groups.all isSymbol = true →
    ∃ t, exec (.decPut chunk) s = .next t ∧
      t.dec.writePos.toNat = s.dec.writePos.toNat + chunk.length ∧
      t.dec.streamPos.toNat = s.dec.streamPos.toNat + groups.length ∧
      t.dec.decodePos.toNat = s.dec.decodePos.toNat + 3 * (groups.length / 4) ∧
      t.dec.output? = s.dec.output?.map (· ++ decodedGroups groups) ∧
      t.dec.buf.readBytes? t.dec.streamPos.toNat t.dec.pending = some ((pending ++ chunk).drop groups.length) ∧
      (∀ x, ¬(s.dec.writePos.toNat ≤ x ∧ x < s.dec.writePos.toNat + chunk.length) →
        ¬(s.dec.decodePos.toNat ≤ x ∧ x < s.dec.decodePos.toNat + passStores (groups.length / 4)) →
        t.dec.buf.read? x = s.dec.buf.read? x) ∧
      t = State.respond .dec (.ok 0 []) { s with dec := { s.dec with
        writePos := t.dec.writePos, streamPos := t.dec.streamPos, decodePos := t.dec.decodePos, buf := t.dec.buf } }

/-- Rules R122, R123, R181, the threshold reached and some byte of the whole groups no symbol: nothing of the pass is
committed, the output is as before, the phase is FAILED, and the chunk stays counted in `writePos`. -/
def Obligations.PutAtThresholdRejects : Prop :=
  ∀ (chunk pending groups : List Byte) (s : State), s.Inv → s.dec.phase = .opened →
    s.dec.writePos.toNat + chunk.length ≤ s.dec.capacity.toNat →
    s.cfg.tPut ≤ s.dec.writePos.toNat + chunk.length - s.dec.streamPos.toNat →
    s.dec.buf.readBytes? s.dec.streamPos.toNat s.dec.pending = some pending →
    groups = (pending ++ chunk).take (tailStart (pending ++ chunk).length) → groups.all isSymbol = false →
    ∃ t, exec (.decPut chunk) s = .next t ∧
      t.dec.writePos.toNat = s.dec.writePos.toNat + chunk.length ∧ t.dec.output? = s.dec.output? ∧
      (∀ x, ¬(s.dec.writePos.toNat ≤ x ∧ x < s.dec.writePos.toNat + chunk.length) →
        ¬(s.dec.decodePos.toNat ≤ x ∧ x < s.dec.decodePos.toNat + passStores (groups.length / 4)) →
        t.dec.buf.read? x = s.dec.buf.read? x) ∧
      t = State.respond .dec (.fail .invalidSymbol) { s with dec := { s.dec with
        writePos := t.dec.writePos, phase := .failed, buf := t.dec.buf } }

/-- Rules R126, R127: `end` on pending bytes that are base64, padded or not: the rest of the output is theirs, the stream
is CLOSED with `streamPos` at `writePos`, and no byte changes but those of the new output. -/
def Obligations.EndClosesValidStream : Prop :=
  ∀ (a : Word) (pending out : List Byte) (s : State), s.Inv → s.dec.phase = .opened →
    s.dec.buf.readBytes? s.dec.streamPos.toNat s.dec.pending = some pending → base64Decode pending = some out →
    ∃ t, exec (.decEnd a) s = .next t ∧
      t.dec.decodePos.toNat = s.dec.decodePos.toNat + out.length ∧
      t.dec.output? = s.dec.output?.map (· ++ out) ∧
      (∀ x, x < s.dec.decodePos.toNat ∨ s.dec.decodePos.toNat + out.length ≤ x →
        t.dec.buf.read? x = s.dec.buf.read? x) ∧
      t = State.respond .dec (.ok 0 []) { s with dec := { s.dec with
        streamPos := s.dec.writePos, decodePos := t.dec.decodePos, phase := .closed, buf := t.dec.buf } }

/-- Rules R126, R181, R188: some byte of the whole groups before the tail is no symbol. `end` fails `E_INVALID_SYMBOL`,
whatever the tail is, and commits nothing. -/
def Obligations.EndRejectsInvalidGroups : Prop :=
  ∀ (a : Word) (pending : List Byte) (s : State), s.Inv → s.dec.phase = .opened →
    s.dec.buf.readBytes? s.dec.streamPos.toNat s.dec.pending = some pending →
    (pending.take (tailStart pending.length)).all isSymbol = false →
    ∃ t, exec (.decEnd a) s = .next t ∧ t.dec.output? = s.dec.output? ∧
      (∀ x, ¬(s.dec.decodePos.toNat ≤ x ∧
          x < s.dec.decodePos.toNat + passStores (tailStart pending.length / 4)) →
        t.dec.buf.read? x = s.dec.buf.read? x) ∧
      t = State.respond .dec (.fail .invalidSymbol) { s with dec := { s.dec with
        phase := .failed, buf := t.dec.buf } }

/-- Rules R126, R181, R182, R188: the whole groups are symbols and the tail is no base64 text. They stay committed, the
tail adds nothing, and the class is `E_INCOMPLETE_TRAILER` when the tail has fewer than 2 bytes (the stream is empty or
has 1 byte more than its groups), else `E_INVALID_SYMBOL`. -/
def Obligations.EndRejectsInvalidTail : Prop :=
  ∀ (a : Word) (pending groups tail : List Byte) (s : State), s.Inv → s.dec.phase = .opened →
    s.dec.buf.readBytes? s.dec.streamPos.toNat s.dec.pending = some pending →
    groups = pending.take (tailStart pending.length) → tail = pending.drop (tailStart pending.length) →
    groups.all isSymbol = true → decodedTail tail = none →
    ∃ t, exec (.decEnd a) s = .next t ∧
      t.dec.streamPos.toNat = s.dec.streamPos.toNat + groups.length ∧
      t.dec.decodePos.toNat = s.dec.decodePos.toNat + 3 * (groups.length / 4) ∧
      t.dec.output? = s.dec.output?.map (· ++ decodedGroups groups) ∧
      (∀ x, ¬(s.dec.decodePos.toNat ≤ x ∧ x < s.dec.decodePos.toNat + passStores (groups.length / 4)) →
        t.dec.buf.read? x = s.dec.buf.read? x) ∧
      t = State.respond .dec (.fail (if tail.length < 2 then .incompleteTrailer else .invalidSymbol))
        { s with dec := { s.dec with
          streamPos := t.dec.streamPos, decodePos := t.dec.decodePos, phase := .failed, buf := t.dec.buf } }

/-- Rule R128: `DEC.DATA` answers the committed output and changes nothing else, in every phase. -/
def Obligations.DataAnswersOutput : Prop :=
  ∀ (a : Word) (s : State), s.Inv →
    ∃ bytes, s.dec.output? = some bytes ∧ bytes.length = s.dec.decodePos.toNat ∧
      exec (.decData a) s = .next (State.respond .dec (.ok s.dec.decodePos bytes) s)

/-- Rule R129: `DEC.RELEASE` frees the memory when its size exceeds `keepSize`, strictly, and keeps it with its capacity
otherwise; the cursors are zeroed and the phase is OPEN either way.
(The rule is the spec's own decisions D14, D18.) -/
def Obligations.ReleaseKeepsOrFreesDecoderMemory : Prop :=
  ∀ (a : Word) (s : State), ∃ t, exec (.decRelease a) s = .next t ∧
    t.dec.writePos = 0 ∧ t.dec.streamPos = 0 ∧ t.dec.decodePos = 0 ∧ t.dec.phase = .opened ∧
    (s.dec.keepSize.toNat < s.dec.memBytes.toNat → t.dec.memBytes = 0 ∧ t.dec.capacity = 0 ∧ t.dec.buf = []) ∧
    (s.dec.memBytes.toNat ≤ s.dec.keepSize.toNat →
      t.dec.memBytes = s.dec.memBytes ∧ t.dec.capacity = s.dec.capacity ∧ t.dec.buf = s.dec.buf) ∧
    t = State.respond .dec (.ok 0 []) { s with dec := { t.dec with keepSize := s.dec.keepSize } }

/-- Rules R26, R130: `DEC.STAT r` answers register `r`, zero-extended, and changes nothing else; from 7 on it fails
`E_ILLEGAL`.
(The rule is the spec's own decision D21.) -/
def Obligations.DecStatReadsRegisters : Prop :=
  ∀ (s : State) (r : Word),
    (r = 0 → exec (.decStat r) s = .next (State.respond .dec (.ok s.dec.keepSize []) s)) ∧
    (r = 1 → exec (.decStat r) s = .next (State.respond .dec (.ok s.dec.memBytes []) s)) ∧
    (r = 2 → exec (.decStat r) s = .next (State.respond .dec (.ok s.dec.capacity []) s)) ∧
    (r = 3 → exec (.decStat r) s = .next (State.respond .dec (.ok s.dec.writePos []) s)) ∧
    (r = 4 → exec (.decStat r) s = .next (State.respond .dec (.ok s.dec.streamPos []) s)) ∧
    (r = 5 → exec (.decStat r) s = .next (State.respond .dec (.ok s.dec.decodePos []) s)) ∧
    (r = 6 → s.dec.phase = .opened → exec (.decStat r) s = .next (State.respond .dec (.ok 0 []) s)) ∧
    (r = 6 → s.dec.phase = .closed → exec (.decStat r) s = .next (State.respond .dec (.ok 1 []) s)) ∧
    (r = 6 → s.dec.phase = .failed → exec (.decStat r) s = .next (State.respond .dec (.ok 2 []) s)) ∧
    (7 ≤ r.toNat → exec (.decStat r) s = .next (State.respond .dec (.fail .illegal) s))

/-! ### The encoder's commands -/

/-- Rule R160: `ENC.NEW` leaves the reset state with the given `keepSize`, in every state.
(The rule is the spec's own decision D28.) -/
def Obligations.EncNewRestoresReset : Prop :=
  ∀ (k : Word) (s : State), ∃ t, exec (.encNew k) s = .next t ∧
    t.enc.keepSize = k ∧ t.enc.memBytes = 0 ∧ t.enc.buf = [] ∧
    t = State.respond .enc (.ok 0 []) { s with enc := t.enc }

/-- Rules R161, R163, R168: `ENC.ENCODE` that fits `MEM_MAX` answers the base64 text of its payload, and grows the memory
only when needed and then to the least multiple of `PAGE` that covers the need. -/
def Obligations.EncodeAnswersBase64 : Prop :=
  ∀ (source : List Byte) (need : Nat) (s : State), s.Inv →
    need = 4 * ((source.length + 2) / 3) + 4 * ((source.length + 3) / 4) + s.cfg.ovhEnc → need ≤ s.cfg.memMax →
    ∃ t val, exec (.encEncode source) s = .next t ∧
      val.toNat = 4 * ((source.length + 2) / 3) ∧ (base64Encode source).length = val.toNat ∧
      (need ≤ s.enc.memBytes.toNat → t.enc.memBytes = s.enc.memBytes) ∧
      (s.enc.memBytes.toNat < need →
        t.enc.memBytes.toNat % s.cfg.page = 0 ∧ need ≤ t.enc.memBytes.toNat ∧
        t.enc.memBytes.toNat < need + s.cfg.page) ∧
      t = State.respond .enc (.ok val (base64Encode source)) { s with enc := { s.enc with
        memBytes := t.enc.memBytes, buf := t.enc.buf } }

/-- Rules R59, R61: what `ENC.ENCODE` leaves in `e.buf`: the result from offset 0, the source copy at `srcOff`, apart from
each other and inside the buffer. The last clause, every other byte as before, also when `e.buf` grows, is no rule of the
spec but the model's own choice, log entry 13. -/
def Obligations.EncodeBufferMap : Prop :=
  ∀ (source : List Byte) (s t : State), s.Inv → encNeed s.cfg source.length ≤ s.cfg.memMax →
    exec (.encEncode source) s = .next t →
    (base64Encode source).length ≤ t.enc.sourceOffset s.cfg source.length ∧
    t.enc.sourceOffset s.cfg source.length + source.length ≤ t.enc.bufSize s.cfg ∧
    t.enc.buf.readBytes? 0 (base64Encode source).length = some (base64Encode source) ∧
    t.enc.buf.readBytes? (t.enc.sourceOffset s.cfg source.length) source.length = some source ∧
    (∀ x, (base64Encode source).length ≤ x →
      ¬(t.enc.sourceOffset s.cfg source.length ≤ x ∧
        x < t.enc.sourceOffset s.cfg source.length + source.length) →
      t.enc.buf.read? x = s.enc.buf.read? x)

/-- Rules R161, R185: a source that needs more than `MEM_MAX` fails `E_NOMEM` and changes nothing else. -/
def Obligations.EncodeBeyondMemMaxFails : Prop :=
  ∀ (source : List Byte) (s : State),
    s.cfg.memMax < 4 * ((source.length + 2) / 3) + 4 * ((source.length + 3) / 4) + s.cfg.ovhEnc →
    exec (.encEncode source) s = .next (State.respond .enc (.fail .noMem) s)

/-- Rule R168: the encoder has no incremental mode, and pieces of a multiple of 3 bytes join: the data answered for
`x ++ y` is that for `x` followed by that for `y`, whatever the states the three commands ran in. -/
def Obligations.EncodedPiecesJoin : Prop :=
  ∀ (x y dx dy dxy : List Byte) (vx vy vxy : Word) (s1 s2 s3 t1 t2 t3 : State),
    s1.Inv → s2.Inv → s3.Inv → x.length % 3 = 0 →
    exec (.encEncode x) s1 = .next t1 → t1.encRsp = s1.encRsp ++ [.ok vx dx] →
    exec (.encEncode y) s2 = .next t2 → t2.encRsp = s2.encRsp ++ [.ok vy dy] →
    exec (.encEncode (x ++ y)) s3 = .next t3 → t3.encRsp = s3.encRsp ++ [.ok vxy dxy] →
    dxy = dx ++ dy

/-- Rule R166: `ENC.RELEASE` frees the memory when its size exceeds `keepSize`, strictly, and otherwise changes nothing.
(The rule is the spec's own decision D14.) -/
def Obligations.ReleaseKeepsOrFreesEncoderMemory : Prop :=
  ∀ (a : Word) (s : State),
    (s.enc.keepSize.toNat < s.enc.memBytes.toNat →
      exec (.encRelease a) s = .next (State.respond .enc (.ok 0 []) { s with enc := { s.enc with
        memBytes := 0, buf := [] } })) ∧
    (s.enc.memBytes.toNat ≤ s.enc.keepSize.toNat →
      exec (.encRelease a) s = .next (State.respond .enc (.ok 0 []) s))

/-- Rules R26, R167: `ENC.STAT r` answers register `r` and changes nothing else; from 2 on it fails `E_ILLEGAL`.
(The rule is the spec's own decision D21.) -/
def Obligations.EncStatReadsRegisters : Prop :=
  ∀ (s : State) (r : Word),
    (r = 0 → exec (.encStat r) s = .next (State.respond .enc (.ok s.enc.keepSize []) s)) ∧
    (r = 1 → exec (.encStat r) s = .next (State.respond .enc (.ok s.enc.memBytes []) s)) ∧
    (2 ≤ r.toNat → exec (.encStat r) s = .next (State.respond .enc (.fail .illegal) s))

/-! ### Steps -/

/-- A step runs the decoded command: when the port being served begins with a command of its own unit, the step takes its
bytes off that port's stream, gives the turn to the other port, and is `exec` of it. (The turn, and so which port is served first, is the model's own
choice, log entry 5.) -/
def Obligations.StepRunsDecodedCommand : Prop :=
  (∀ (s : State) (p : Port) (i : Instr) (rest : List Byte), s.served = some p → i.wellFormed = true → i.port = p →
    s.cmd p = encode i ++ rest → step s = exec i { s.setCmd p rest with turn := p.other }) ∧
  (∀ (s : State) (i : Instr) (rest : List Byte), i.wellFormed = true → s.cmd s.turn = encode i ++ rest →
    s.served = some s.turn) ∧
  (∀ (s : State) (i : Instr) (rest : List Byte), i.wellFormed = true → decode (s.cmd s.turn) = .error .shortHeader →
    s.cmd s.turn.other = encode i ++ rest → s.served = some s.turn.other)

/-- Rule R84: a header with a reserved `op` at its port (the encoder's when `op[7:4]` = 0 and `op[3]` = 1, else the
decoder's) is answered with a failure there; its 5 bytes are consumed and no payload, and no unit state changes.
(The rule is the spec's own decision D5. That the turn then passes to the other port is the model's own choice, log
entry 5.) -/
def Obligations.StepAnswersReservedHeader : Prop :=
  ∀ (s : State) (p : Port) (op a0 a1 a2 a3 : Byte) (rest : List Byte),
    op.toNat = 0x07 ∨ op.toNat = 0x0A ∨ op.toNat = 0x0B ∨ op.toNat = 0x0C ∨ op.toNat = 0x0F ∨ 0x10 ≤ op.toNat →
    p = (if op.toNat / 16 = 0 ∧ op.toNat / 8 % 2 = 1 then .enc else .dec) → s.served = some p →
    s.cmd p = op :: a0 :: a1 :: a2 :: a3 :: rest →
    step s = .next (State.respond p (.fail .illegal) { s.setCmd p rest with turn := p.other })

/-- Rules R80, R84: the router of a core with a single command input moves the next whole command, or the next reserved
header, to the port its `op` selects, behind what waits there; nothing else changes. (That it moves only when no port can be served, one command a step, is the
model's own choice, log entry 7.) -/
def Obligations.StepRoutesSingleInput : Prop :=
  (∀ (s : State) (i : Instr) (rest : List Byte), s.served = none → i.wellFormed = true →
    s.cmdIn = encode i ++ rest →
    step s = .next (State.setCmd i.port (s.cmd i.port ++ encode i) { s with cmdIn := rest })) ∧
  (∀ (s : State) (op a0 a1 a2 a3 : Byte) (rest : List Byte), s.served = none → Op.ofCode? op = none →
    s.cmdIn = op :: a0 :: a1 :: a2 :: a3 :: rest →
    step s = .next (State.setCmd (portOfOp op) (s.cmd (portOfOp op) ++ [op, a0, a1, a2, a3]) { s with cmdIn := rest })) ∧
  (∀ op : Byte, portOfOp op = .enc ↔ op.toNat / 16 = 0 ∧ op.toNat / 8 % 2 = 1)

/-- Rules R210, R224: with no whole command on either port or on the single input, the core waits: a step changes
nothing. A whole command is there exactly when `decode` answers neither a short header nor a short payload. -/
def Obligations.StepWaitsForWholeCommand : Prop :=
  ∀ s : State, (∀ bs : List Byte, bs = s.decCmd ∨ bs = s.encCmd ∨ bs = s.cmdIn →
      decode bs = .error .shortHeader ∨ ∃ n, decode bs = .error (.shortPayload n)) →
    step s = .next s

/-! ### Rules about every command -/

/-- Rule R82: every command produces exactly one response, on its own unit's stream, after the earlier ones. Bit 0 is the
status, bits 7:1 are 0, bits 39:8 are `val`, sent least significant byte first and then the data; a failure has `val`
0 and no data; only `DEC.DATA` and `ENC.ENCODE` send data, `val` bytes of it; a `STAT` answers the register; every
other `val` is 0.
(The rule is the spec's own decision D3.) -/
def Obligations.OneResponsePerCommand : Prop :=
  (∀ (i : Instr) (s t : State), s.cfg.Legal → exec i s = .next t →
    ∃ r, t.rsp i.port = s.rsp i.port ++ [r] ∧ t.rsp i.port.other = s.rsp i.port.other ∧
      (r.status = true → r.val = 0 ∧ r.data = []) ∧
      (r.status = false → i.op = .decData ∨ i.op = .encEncode → r.val.toNat = r.data.length) ∧
      (i.op ≠ .decData → i.op ≠ .encEncode → r.data = []) ∧
      (∀ reg, i = .decStat reg → r.status = false → s.dec.reg? reg.toNat = some r.val) ∧
      (∀ reg, i = .encStat reg → r.status = false → s.enc.reg? reg.toNat = some r.val) ∧
      (i.op ≠ .decData → i.op ≠ .encEncode → i.op ≠ .decStat → i.op ≠ .encStat → r.val = 0)) ∧
  (∀ (p : Port) (s : State), (s.raiseIllegal p).rsp p = s.rsp p ++ [.fail .illegal] ∧
    (s.raiseIllegal p).rsp p.other = s.rsp p.other) ∧
  (∀ r : Response,
    r.header.extractLsb' 0 1 = BitVec.ofBool r.status ∧ r.header.extractLsb' 1 7 = 0 ∧
    r.header.extractLsb' 8 32 = r.val ∧ r.bytes = leBytes 5 r.header ++ r.data)

/-- Rule R131: the table of phase transitions, row by row.
(The rule is the spec's own decision D16.) -/
def Obligations.PhaseTransitions : Prop :=
  (∀ (i : Instr) (s t : State), exec i s = .next t →
    match i with
    | .decNew _ => t.dec.phase = .opened
    | .decRelease _ => t.dec.phase = .opened
    | .decInit _ =>
      (t.decRsp = s.decRsp ++ [.ok 0 []] ∧ t.dec.phase = .opened) ∨
      (t.decRsp = s.decRsp ++ [.fail .noMem] ∧ t.dec.phase = s.dec.phase)
    | .decPut _ =>
      (s.dec.phase = .opened ∧ t.decRsp = s.decRsp ++ [.ok 0 []] ∧ t.dec.phase = .opened) ∨
      (s.dec.phase = .opened ∧ t.decRsp = s.decRsp ++ [.fail .capacity] ∧ t.dec.phase = .opened) ∨
      (s.dec.phase = .opened ∧ t.decRsp = s.decRsp ++ [.fail .invalidSymbol] ∧ t.dec.phase = .failed) ∨
      (s.dec.phase ≠ .opened ∧ t.decRsp = s.decRsp ++ [.fail .phase] ∧ t.dec.phase = s.dec.phase)
    | .decEnd _ =>
      (s.dec.phase = .opened ∧ t.decRsp = s.decRsp ++ [.ok 0 []] ∧ t.dec.phase = .closed) ∨
      (s.dec.phase = .opened ∧ t.decRsp = s.decRsp ++ [.fail .invalidSymbol] ∧ t.dec.phase = .failed) ∨
      (s.dec.phase = .opened ∧ t.decRsp = s.decRsp ++ [.fail .incompleteTrailer] ∧ t.dec.phase = .failed) ∨
      (s.dec.phase ≠ .opened ∧ t.decRsp = s.decRsp ++ [.fail .phase] ∧ t.dec.phase = s.dec.phase)
    | .decData _ => t.dec.phase = s.dec.phase
    | .decStat _ => t.dec.phase = s.dec.phase
    | .encNew _ => t.dec.phase = s.dec.phase
    | .encEncode _ => t.dec.phase = s.dec.phase
    | .encRelease _ => t.dec.phase = s.dec.phase
    | .encStat _ => t.dec.phase = s.dec.phase) ∧
  (∀ (p : Port) (s : State), (s.raiseIllegal p).dec.phase = s.dec.phase)

/-- Rules R21, R24, R25, R31: a register changes only by the commands its rule lists as its writers, and no command
writes a build parameter. -/
def Obligations.RegistersHaveOnlyTheirWriters : Prop :=
  ∀ (i : Instr) (s t : State), exec i s = .next t →
    t.cfg = s.cfg ∧
    (t.dec.keepSize ≠ s.dec.keepSize → i.op = .decNew) ∧
    (t.dec.memBytes ≠ s.dec.memBytes → i.op = .decInit ∨ i.op = .decRelease ∨ i.op = .decNew) ∧
    (t.dec.capacity ≠ s.dec.capacity → i.op = .decInit ∨ i.op = .decRelease ∨ i.op = .decNew) ∧
    (t.dec.writePos ≠ s.dec.writePos →
      i.op = .decPut ∨ i.op = .decInit ∨ i.op = .decRelease ∨ i.op = .decNew) ∧
    (t.dec.streamPos ≠ s.dec.streamPos →
      i.op = .decPut ∨ i.op = .decEnd ∨ i.op = .decInit ∨ i.op = .decRelease ∨ i.op = .decNew) ∧
    (t.dec.decodePos ≠ s.dec.decodePos →
      i.op = .decPut ∨ i.op = .decEnd ∨ i.op = .decInit ∨ i.op = .decRelease ∨ i.op = .decNew) ∧
    (t.dec.phase ≠ s.dec.phase →
      i.op = .decPut ∨ i.op = .decEnd ∨ i.op = .decInit ∨ i.op = .decRelease ∨ i.op = .decNew) ∧
    (t.enc.keepSize ≠ s.enc.keepSize → i.op = .encNew) ∧
    (t.enc.memBytes ≠ s.enc.memBytes → i.op = .encEncode ∨ i.op = .encRelease ∨ i.op = .encNew)

/-- Rules R24, R31: a memory size never decreases except to 0, and only `RELEASE` and `NEW` take it there. -/
def Obligations.MemoryGrowsOrIsFreed : Prop :=
  ∀ (i : Instr) (s t : State), s.Inv → exec i s = .next t →
    (t.dec.memBytes.toNat < s.dec.memBytes.toNat → t.dec.memBytes = 0 ∧ (i.op = .decRelease ∨ i.op = .decNew)) ∧
    (t.enc.memBytes.toNat < s.enc.memBytes.toNat → t.enc.memBytes = 0 ∧ (i.op = .encRelease ∨ i.op = .encNew))

/-- Rules R20, R65, R192: a command changes neither the other unit nor its streams, and its effect on its own unit does not
depend on the other unit: in any two states that agree on the parameters and on its unit it answers the same. -/
def Obligations.UnitsAreIsolated : Prop :=
  ∀ (i : Instr) (s s' t : State), s.cfg = s'.cfg →
    (i.port = .dec → s.dec = s'.dec) → (i.port = .enc → s.enc = s'.enc) → exec i s = .next t →
    ∃ t' r, exec i s' = .next t' ∧
      (i.port = .dec → t = State.respond .dec r { s with dec := t.dec } ∧
        t' = State.respond .dec r { s' with dec := t.dec }) ∧
      (i.port = .enc → t = State.respond .enc r { s with enc := t.enc } ∧
        t' = State.respond .enc r { s' with enc := t.enc })

/-- Rule R65: a decoder command and an encoder command may be executed in either order with the same result. -/
def Obligations.UnitsCommute : Prop :=
  ∀ (i j : Instr) (s t u : State), i.port = .dec → j.port = .enc → exec i s = .next t → exec j t = .next u →
    ∃ t', exec j s = .next t' ∧ exec i t' = .next u

/-- Rules R183 to R186, R189: a failure of one of the four classes that are not about the stream's data leaves nothing
behind but its response. -/
def Obligations.OtherFailuresChangeNothing : Prop :=
  ∀ (i : Instr) (s t : State) (c : FailClass), exec i s = .next t → t.rsp i.port = s.rsp i.port ++ [.fail c] →
    c ≠ .invalidSymbol → c ≠ .incompleteTrailer → t = State.respond i.port (.fail c) s

/-- Rule R192: in phase FAILED (and CLOSED) any sequence of `put`, `end`, `DATA` and `STAT` runs and leaves the unit as it
is. -/
def Obligations.FailureIsSticky : Prop :=
  ∀ (cmds : List Instr) (s : State), s.Inv → s.dec.phase = .failed ∨ s.dec.phase = .closed →
    (∀ i ∈ cmds, i.op = .decPut ∨ i.op = .decEnd ∨ i.op = .decData ∨ i.op = .decStat) →
    ∃ t, execAll cmds s = .next t ∧ t.dec = s.dec ∧ t.enc = s.enc

/-- Rules R121, R129, R138: the memory policy. After `release`, a memory within `keepSize` is kept and the next `init` that
fits it grows nothing; a larger one is freed and the next `init` rebuilds it from nothing. -/
def Obligations.MemoryPolicy : Prop :=
  ∀ (a size : Word) (s : State), s.Inv → decNeed s.cfg size.toNat ≤ s.cfg.memMax →
    ∃ t u, exec (.decRelease a) s = .next t ∧ exec (.decInit size) t = .next u ∧
      t.dec.output? = some [] ∧
      (s.dec.memBytes.toNat ≤ s.dec.keepSize.toNat → decNeed s.cfg size.toNat ≤ s.dec.memBytes.toNat →
        u.dec.memBytes = s.dec.memBytes) ∧
      (s.dec.keepSize.toNat < s.dec.memBytes.toNat →
        t.dec.memBytes = 0 ∧ u.dec.memBytes.toNat = roundUp (decNeed s.cfg size.toNat) s.cfg.page)

/-! ### Laws of the whole -/

/-- Rules R135, R190: the abstract form. When the decoder holds a stream, after any command it holds that stream with the
chunk a `put` added: every committed input byte is a symbol and the output is exactly that of the committed groups, or,
once closed, of the whole stream. -/
def Obligations.AbstractFormIsKept : Prop :=
  ∀ (i : Instr) (s t : State) (input : List Byte), s.Inv → s.dec.Holds input → exec i s = .next t →
    t.dec.Holds (acceptedAfter i s input)

/-- Rule R137: chunk-boundary invariance. A stream that fits the reserved capacity, put in any chunks under any threshold,
runs to `end`; it succeeds at every command exactly when it is base64, and then the output is its decoding. -/
def Obligations.ChunkBoundariesDoNotMatter : Prop :=
  ∀ (size a : Word) (chunks : List (List Byte)) (s : State), s.Inv →
    decNeed s.cfg size.toNat ≤ s.cfg.memMax → chunks.flatten.length ≤ capacityFor size.toNat →
    ∃ t rs, execAll (.decInit size :: (chunks.map .decPut ++ [.decEnd a])) s = .next t ∧
      t.decRsp = s.decRsp ++ rs ∧ rs.length = chunks.length + 2 ∧
      (allOk rs = true ↔ (base64Decode chunks.flatten).isSome = true) ∧
      (∀ out, base64Decode chunks.flatten = some out →
        t.dec.phase = .closed ∧ t.dec.writePos.toNat = chunks.flatten.length ∧ t.dec.output? = some out)

/-- Rules R88, R138: the round trip. What `ENC.ENCODE` answers for a non-empty source, put into the decoder, decodes to
that source with every command succeeding; for the empty source `end` answers `E_INCOMPLETE_TRAILER` and the data is
empty, as the source is. -/
def Obligations.RoundTrip : Prop :=
  ∀ (source : List Byte) (size a a' : Word) (s : State), s.Inv → encNeed s.cfg source.length ≤ s.cfg.memMax →
    decNeed s.cfg size.toNat ≤ s.cfg.memMax → encOutLen source.length ≤ capacityFor size.toNat →
    ∃ t u val text, exec (.encEncode source) s = .next t ∧ t.encRsp = s.encRsp ++ [.ok val text] ∧
      execAll [.decInit size, .decPut text, .decEnd a, .decData a'] t = .next u ∧
      u.decRsp = s.decRsp ++ [.ok 0 [], .ok 0 [],
        if source = [] then .fail .incompleteTrailer else .ok 0 [],
        .ok (BitVec.ofNat 32 source.length) source]

/-- Rules R104, R138: an encoding with its pads stripped decodes to the same bytes, under any chunking. -/
def Obligations.UnpaddedTextDecodes : Prop :=
  ∀ (source : List Byte) (size a : Word) (chunks : List (List Byte)) (s : State), s.Inv → source ≠ [] →
    decNeed s.cfg size.toNat ≤ s.cfg.memMax → encOutLen source.length ≤ capacityFor size.toNat →
    chunks.flatten = (base64Encode source).filter (fun c => c != pad) →
    ∃ t rs, execAll (.decInit size :: (chunks.map .decPut ++ [.decEnd a])) s = .next t ∧
      t.decRsp = s.decRsp ++ rs ∧ allOk rs = true ∧ t.dec.output? = some source

/-- Rule R138: alphabet rejection. An encoding with one byte replaced by one that is neither a symbol nor, in the last two
positions, a pad makes some command of the stream fail, under any chunking. -/
def Obligations.CorruptedTextIsRejected : Prop :=
  ∀ (source : List Byte) (j : Nat) (x : Byte) (size a : Word) (chunks : List (List Byte)) (s : State), s.Inv →
    decNeed s.cfg size.toNat ≤ s.cfg.memMax → encOutLen source.length ≤ capacityFor size.toNat →
    j < encOutLen source.length → isSymbol x = false → (x = pad → j + 2 < encOutLen source.length) →
    chunks.flatten = (base64Encode source).set j x →
    ∃ t rs, execAll (.decInit size :: (chunks.map .decPut ++ [.decEnd a])) s = .next t ∧
      t.decRsp = s.decRsp ++ rs ∧ allOk rs = false ∧ t.dec.phase = .failed

/-- Rules R126, R138: tail completeness. After whole groups of symbols, one trailing symbol makes the stream fail, and 2, 3
or 4 trailing symbols make it succeed with 1, 2 or 3 more bytes. -/
def Obligations.TailCompleteness : Prop :=
  ∀ (groups tail : List Byte) (size a : Word) (chunks : List (List Byte)) (s : State), s.Inv →
    decNeed s.cfg size.toNat ≤ s.cfg.memMax → (groups ++ tail).length ≤ capacityFor size.toNat →
    groups.length % 4 = 0 → groups.all isSymbol = true → tail.all isSymbol = true →
    1 ≤ tail.length → tail.length ≤ 4 → chunks.flatten = groups ++ tail →
    ∃ t rs, execAll (.decInit size :: (chunks.map .decPut ++ [.decEnd a])) s = .next t ∧
      t.decRsp = s.decRsp ++ rs ∧
      (tail.length = 1 → allOk rs = false ∧ t.dec.output? = some (decodedGroups groups)) ∧
      (2 ≤ tail.length → allOk rs = true ∧
        ∃ more, more.length = tail.length - 1 ∧ t.dec.output? = some (decodedGroups groups ++ more))
end

