-- ==== Sys2Proof/Laws/Tables.lean ====
section
/-! SUPPORT. Laws of the alphabet and the tables: the alphabet is a bijection, the top byte of an OR of table
words says whether every byte was a symbol, and the low bytes are the group layout of rule R93. -/

namespace Sys2Proof.Machine

@[simp] theorem symVal_alpha (v : BitVec 6) : symVal (alpha v) = some v := by
  revert v; decide

theorem alpha_of_symVal {c : Byte} {v : BitVec 6} (h : symVal c = some v) : alpha v = c := by
  have all : ∀ c : Byte, (match symVal c with | some v => decide (alpha v = c) | none => true) = true := by
    decide
  have := all c
  rw [h] at this
  simpa using this

@[simp] theorem isSymbol_alpha (v : BitVec 6) : isSymbol (alpha v) = true := by simp [isSymbol]

@[simp] theorem symValue_alpha (v : BitVec 6) : symValue (alpha v) = v := by simp [symValue]

theorem isSymbol_pad : isSymbol pad = false := by decide

theorem alpha_ne_pad (v : BitVec 6) : alpha v ≠ pad := fun h => by
  have := isSymbol_alpha v
  rw [h, isSymbol_pad] at this
  cases this

theorem symVal_eq_of_isSymbol {c : Byte} (h : isSymbol c = true) : symVal c = some (symValue c) := by
  unfold isSymbol at h
  obtain ⟨v, hv⟩ := Option.isSome_iff_exists.1 h
  simp [symValue, hv]

@[simp] theorem errorSeen_zero : errorSeen 0 = false := by decide

/-- The error flag of an OR is the OR of the error flags (rule R99). -/
theorem errorSeen_or (a b : Word) : errorSeen (a ||| b) = (errorSeen a || errorSeen b) := by
  unfold errorSeen
  rw [BitVec.extractLsb'_or]
  rw [Bool.eq_iff_iff]
  simp only [bne_iff_ne, ne_eq, BitVec.or_eq_zero_iff, Bool.or_eq_true]
  tauto

theorem errorSeen_tableD0 (c : Byte) : errorSeen (tableD0 c) = !isSymbol c := by revert c; decide
theorem errorSeen_tableD1 (c : Byte) : errorSeen (tableD1 c) = !isSymbol c := by revert c; decide
theorem errorSeen_tableD2 (c : Byte) : errorSeen (tableD2 c) = !isSymbol c := by revert c; decide
theorem errorSeen_tableD3 (c : Byte) : errorSeen (tableD3 c) = !isSymbol c := by revert c; decide

/-- The top byte of a group word is non-zero exactly when one of its bytes is no symbol (rule R99). -/
theorem errorSeen_groupWord (c0 c1 c2 c3 : Byte) :
    errorSeen (groupWord c0 c1 c2 c3) = !([c0, c1, c2, c3].all isSymbol) := by
  simp [groupWord, errorSeen_or, errorSeen_tableD0, errorSeen_tableD1, errorSeen_tableD2, errorSeen_tableD3,
    Bool.or_assoc]

/-- The low three bytes of a group word of four symbols are the bytes of rule R93. -/
theorem leBytes_groupWord {c0 c1 c2 c3 : Byte} (h0 : isSymbol c0 = true) (h1 : isSymbol c1 = true)
    (h2 : isSymbol c2 = true) (h3 : isSymbol c3 = true) :
    leBytes 3 (groupWord c0 c1 c2 c3) =
      bytesOfValues (symValue c0) (symValue c1) (symValue c2) (symValue c3) := by
  simp only [groupWord, tableD0, tableD1, tableD2, tableD3, symVal_eq_of_isSymbol h0, symVal_eq_of_isSymbol h1,
    symVal_eq_of_isSymbol h2, symVal_eq_of_isSymbol h3]
  generalize symValue c0 = v0
  generalize symValue c1 = v1
  generalize symValue c2 = v2
  generalize symValue c3 = v3
  simp only [leBytes, List.range, List.range.loop, List.map, bytesOfValues, List.cons.injEq, and_true]
  refine ⟨?_, ?_, ?_⟩ <;>
    (apply BitVec.eq_of_getLsbD_eq; intro i hi; interval_cases i <;>
      simp only [BitVec.getLsbD_append, BitVec.getLsbD_extractLsb', BitVec.getLsbD_or, BitVec.getLsbD_shiftLeft,
        BitVec.getLsbD_setWidth] <;> simp)

@[simp] theorem length_leBytes (n : Nat) {w : Nat} (v : BitVec w) : (leBytes n v).length = n := by
  simp [leBytes]

theorem leBytes_take {n k : Nat} {w : Nat} (v : BitVec w) (h : k ≤ n) : (leBytes n v).take k = leBytes k v := by
  simp [leBytes, ← List.map_take, List.take_range, Nat.min_eq_left h]

/-- The two bytes a `LUT` word stores are the symbols of its index, high digit first (rules R52, R100). -/
theorem leBytes_lut (i : BitVec 12) :
    leBytes 2 (lut i) = [alpha (i.extractLsb' 6 6), alpha (i.extractLsb' 0 6)] := by
  simp only [lut]
  generalize alpha (i.extractLsb' 6 6) = x
  generalize alpha (i.extractLsb' 0 6) = y
  simp only [leBytes, List.range, List.range.loop, List.map, List.cons.injEq, and_true]
  refine ⟨?_, ?_⟩ <;>
    (apply BitVec.eq_of_getLsbD_eq; intro i hi; interval_cases i <;> simp)

/-- The four bytes of a block are the symbols of rule R93 (rule R101). -/
theorem leBytes_block (b0 b1 b2 : Byte) :
    leBytes 2 (lut (highIndex (blockAcc b0 b1 b2))) ++ leBytes 2 (lut (lowIndex (blockAcc b0 b1 b2))) =
      symbolsOfBytes b0 b1 b2 := by
  simp only [leBytes_lut, symbolsOfBytes, List.cons_append, List.nil_append, List.cons.injEq, and_true]
  refine ⟨?_, ?_, ?_, ?_⟩ <;> congr 1 <;>
    (apply BitVec.eq_of_getLsbD_eq; intro i hi; interval_cases i <;>
      simp only [highIndex, lowIndex, blockAcc, BitVec.getLsbD_append, BitVec.getLsbD_extractLsb'] <;> simp)

/-- The alphabet index of a two-byte tail is the third value of rule R93 (rule R163). -/
theorem alpha_tailIndex (b0 b1 : Byte) :
    alpha (tailIndex (blockAcc b0 b1 0)) = (symbolsOfBytes b0 b1 0).getD 2 0 := by
  simp only [symbolsOfBytes, List.getD_cons_succ, List.getD_cons_zero]
  congr 1
  apply BitVec.eq_of_getLsbD_eq; intro i hi
  interval_cases i <;>
    simp only [tailIndex, blockAcc, BitVec.getLsbD_append, BitVec.getLsbD_extractLsb'] <;> simp

end Sys2Proof.Machine
end

