-- ==== Sys2Proof/Laws/Base64.lean ====
section
/-! SUPPORT. Laws of base64 itself, as Safety.lean states it: whole groups in front of a text decode on their own. -/

namespace Sys2Proof

open Sys2Proof.Machine

/-- Four symbols give three bytes. -/
theorem length_decodedGroups (k : Nat) : ∀ {x : List Byte}, x.length = 4 * k →
    (decodedGroups x).length = 3 * k := by
  induction k with
  | zero => intro x hx; obtain rfl : x = [] := List.eq_nil_of_length_eq_zero (by omega); rfl
  | succ k ih =>
    intro x hx
    rcases x with _ | ⟨b0, _ | ⟨b1, _ | ⟨b2, _ | ⟨b3, rest⟩⟩⟩⟩ <;>
      simp only [List.length_cons, List.length_nil] at hx <;> try omega
    simp only [decodedGroups, List.length_append, ih (x := rest) (by omega), bytesOfValues,
      List.length_cons, List.length_nil]
    omega

/-- Decoding whole groups is concatenative. -/
theorem decodedGroups_append (k : Nat) : ∀ {x : List Byte}, x.length = 4 * k → ∀ y,
    decodedGroups (x ++ y) = decodedGroups x ++ decodedGroups y := by
  induction k with
  | zero => intro x hx y; obtain rfl : x = [] := List.eq_nil_of_length_eq_zero (by omega); rfl
  | succ k ih =>
    intro x hx y
    rcases x with _ | ⟨b0, _ | ⟨b1, _ | ⟨b2, _ | ⟨b3, rest⟩⟩⟩⟩ <;>
      simp only [List.length_cons, List.length_nil] at hx <;> try omega
    simp only [List.cons_append, decodedGroups, ih (x := rest) (by omega), List.append_assoc]

/-- A tail of fewer than 2 bytes is no base64 text (rule R182). -/
theorem decodedTail_short {t : List Byte} (h : t.length < 2) : decodedTail t = none := by
  rcases t with _ | ⟨a, _ | ⟨b, t⟩⟩
  · rfl
  · rfl
  · simp at h

/-- Whole groups in front of a non-empty text: all of them must be symbols, and their bytes come first (rule R137). -/
theorem base64Decode_append {x p : List Byte} (k : Nat) (hx : x.length = 4 * k) (hp : p ≠ []) :
    base64Decode (x ++ p) = if x.all isSymbol then (base64Decode p).map (decodedGroups x ++ ·) else none := by
  have hl : 1 ≤ p.length := List.length_pos_of_ne_nil hp
  have ht : tailStart (x ++ p).length = x.length + tailStart p.length := by
    unfold tailStart; rw [List.length_append]; omega
  unfold base64Decode
  have htake : (x ++ p).take (x.length + tailStart p.length) = x ++ p.take (tailStart p.length) := by
    rw [List.take_append, List.take_of_length_le (by omega)]; simp
  rw [ht, htake, List.drop_append, List.all_append]
  simp only [Nat.add_sub_cancel_left,
    List.drop_eq_nil_of_le (show x.length ≤ x.length + tailStart p.length by omega), List.nil_append]
  rw [decodedGroups_append k hx]
  cases x.all isSymbol
  · simp
  · simp only [Bool.true_and, if_true]
    cases (p.take (tailStart p.length)).all isSymbol
    · simp
    · simp [Option.map_map, Function.comp_def]

end Sys2Proof
end

