-- ==== Sys2Proof/Laws/Decode.lean ====
section
/-! SUPPORT. Laws of the command format: the opcode map is read back, the four bytes of an `arg` are read back, and each
constructor is rebuilt from its operation, its `arg` and its payload. -/

namespace Sys2Proof

open Sys2Proof.Machine

@[simp] theorem Op.ofCode?_code (o : Op) : Op.ofCode? o.code = some o := by cases o <;> decide

theorem Op.code_of_ofCode? {b : Byte} {o : Op} (h : Op.ofCode? b = some o) : o.code = b := by
  have := List.find?_some h
  simpa using this

/-- The codes that stand for no operation are the reserved ones of rule R84. -/
theorem Op.ofCode?_eq_none_iff (b : Byte) : Op.ofCode? b = none ↔
    b.toNat = 0x07 ∨ b.toNat = 0x0A ∨ b.toNat = 0x0B ∨ b.toNat = 0x0C ∨ b.toNat = 0x0F ∨ 0x10 ≤ b.toNat := by
  revert b; decide

/-- The four bytes of a word, least significant first. -/
theorem leBytes_four (v : Word) : leBytes 4 v =
    [v.extractLsb' 0 8, v.extractLsb' 8 8, v.extractLsb' 16 8, v.extractLsb' 24 8] := rfl

/-- Reading back the bytes of a word gives the word (rule R80). -/
theorem leWord_of_leBytes (v : Word) :
    leWord (v.extractLsb' 0 8) (v.extractLsb' 8 8) (v.extractLsb' 16 8) (v.extractLsb' 24 8) = v := by
  apply BitVec.eq_of_getLsbD_eq; intro i hi
  interval_cases i <;> simp only [leWord, BitVec.getLsbD_append, BitVec.getLsbD_extractLsb'] <;> simp

/-- The bytes of a word read back from four bytes are those bytes (rule R80). -/
theorem leBytes_leWord (b0 b1 b2 b3 : Byte) : leBytes 4 (leWord b0 b1 b2 b3) = [b0, b1, b2, b3] := by
  simp only [leBytes_four, List.cons.injEq, and_true]
  refine ⟨?_, ?_, ?_, ?_⟩ <;>
    (apply BitVec.eq_of_getLsbD_eq; intro i hi; interval_cases i <;>
      simp only [leWord, BitVec.getLsbD_append, BitVec.getLsbD_extractLsb'] <;> simp)

/-- A command is rebuilt from its parts. -/
theorem Instr.build_parts (i : Instr) : Instr.build i.op i.arg i.payload = i := by cases i <;> rfl

/-- The `arg` of a well-formed `HP` command is the length of its payload (rule R80). -/
theorem Instr.toNat_arg_of_hasPayload {i : Instr} (h : i.op.hasPayload = true) (hw : i.wellFormed = true) :
    i.arg.toNat = i.payload.length := by
  cases i <;> simp_all [Instr.op, Op.hasPayload, Instr.arg, Instr.payload, Instr.wellFormed, payloadFits]

theorem Instr.payload_eq_nil {i : Instr} (h : i.op.hasPayload = false) : i.payload = [] := by
  cases i <;> simp_all [Instr.op, Op.hasPayload, Instr.payload]

@[simp] theorem Instr.op_build (o : Op) (arg : Word) (payload : List Byte) : (Instr.build o arg payload).op = o := by
  cases o <;> rfl

/-- A well-formed command's encoding is 5 bytes of header and then its payload (rules R80, R81). -/
theorem encode_eq (i : Instr) : encode i = i.op.code :: i.arg.extractLsb' 0 8 :: i.arg.extractLsb' 8 8 ::
    i.arg.extractLsb' 16 8 :: i.arg.extractLsb' 24 8 :: i.payload := rfl

/-- The port of each operation: codes below 8 are the decoder's (rules R80, R83). -/
theorem portOfOp_code (o : Op) : portOfOp o.code = if o.code.toNat < 8 then .dec else .enc := by cases o <;> decide

section Port
variable (v : Word) (bs : List Byte)
@[simp] theorem Instr.port_decNew : (Instr.decNew v).port = .dec := portOfOp_code .decNew
@[simp] theorem Instr.port_decInit : (Instr.decInit v).port = .dec := portOfOp_code .decInit
@[simp] theorem Instr.port_decPut : (Instr.decPut bs).port = .dec := portOfOp_code .decPut
@[simp] theorem Instr.port_decEnd : (Instr.decEnd v).port = .dec := portOfOp_code .decEnd
@[simp] theorem Instr.port_decData : (Instr.decData v).port = .dec := portOfOp_code .decData
@[simp] theorem Instr.port_decRelease : (Instr.decRelease v).port = .dec := portOfOp_code .decRelease
@[simp] theorem Instr.port_decStat : (Instr.decStat v).port = .dec := portOfOp_code .decStat
@[simp] theorem Instr.port_encNew : (Instr.encNew v).port = .enc := portOfOp_code .encNew
@[simp] theorem Instr.port_encEncode : (Instr.encEncode bs).port = .enc := portOfOp_code .encEncode
@[simp] theorem Instr.port_encRelease : (Instr.encRelease v).port = .enc := portOfOp_code .encRelease
@[simp] theorem Instr.port_encStat : (Instr.encStat v).port = .enc := portOfOp_code .encStat
end Port

end Sys2Proof
end

