-- ==== Sys2Proof/Laws/Memory.lean ====
section
/-! SUPPORT. Laws of the buffers: what a read sees after a write, that every operation keeps the canonical
form, and when a bounded access succeeds. -/

namespace Sys2Proof.Machine

namespace Memory

@[simp] theorem read?_nil (a : Nat) : Memory.read? [] a = none := rfl

@[simp] theorem read?_write_same (m : Memory) (a : Nat) (b : Byte) : (m.write a b).read? a = some b := by
  induction m with
  | nil => simp [Memory.write, Memory.read?]
  | cons c m ih =>
    obtain ⟨k, v⟩ := c
    simp only [Memory.write]
    split
    · simp [Memory.read?]
    · split
      · simp [Memory.read?]
      · next h => simpa [Memory.read?, h] using ih

theorem read?_write_of_ne (m : Memory) {a x : Nat} (b : Byte) (h : x ≠ a) :
    (m.write a b).read? x = m.read? x := by
  induction m with
  | nil => simp [Memory.write, Memory.read?, h]
  | cons c m ih =>
    obtain ⟨k, v⟩ := c
    simp only [Memory.write]
    split
    · simp [Memory.read?, h]
    · split
      · next h' => subst h'; simp [Memory.read?, h]
      · simp [Memory.read?, ih]

theorem read?_writeBytes_of_outside (m : Memory) (a x : Nat) (bs : List Byte)
    (h : x < a ∨ a + bs.length ≤ x) : (m.writeBytes a bs).read? x = m.read? x := by
  induction bs generalizing m a with
  | nil => rfl
  | cons b bs ih =>
    simp only [List.length_cons] at h
    rw [Memory.writeBytes, ih _ _ (by omega), read?_write_of_ne _ _ (by omega)]

theorem read?_writeBytes_of_inside (m : Memory) (a i : Nat) (bs : List Byte) (h : i < bs.length) :
    (m.writeBytes a bs).read? (a + i) = bs[i]? := by
  induction bs generalizing m a i with
  | nil => simp at h
  | cons b bs ih =>
    rw [Memory.writeBytes]
    cases i with
    | zero => rw [read?_writeBytes_of_outside _ _ _ _ (by omega)]; simp
    | succ i =>
      have := ih (m.write a b) (a + 1) i (by simpa using h)
      simpa [Nat.add_assoc, Nat.add_comm 1] using this

theorem risingFrom_mono {lo lo' : Nat} (h : lo' ≤ lo) {m : Memory} (hm : m.risingFrom lo = true) :
    m.risingFrom lo' = true := by
  cases m with
  | nil => rfl
  | cons c m =>
    obtain ⟨k, v⟩ := c
    simp only [Memory.risingFrom, Bool.and_eq_true, decide_eq_true_eq] at *
    exact ⟨by omega, hm.2⟩

theorem risingFrom_write {lo : Nat} {m : Memory} {a : Nat} (b : Byte) (h : lo ≤ a)
    (hm : m.risingFrom lo = true) : (m.write a b).risingFrom lo = true := by
  induction m generalizing lo with
  | nil => simp [Memory.write, Memory.risingFrom, h]
  | cons c m ih =>
    obtain ⟨k, v⟩ := c
    simp only [Memory.risingFrom, Bool.and_eq_true, decide_eq_true_eq] at hm
    simp only [Memory.write]
    split
    · simp only [Memory.risingFrom, Bool.and_eq_true, decide_eq_true_eq]
      exact ⟨h, by omega, hm.2⟩
    · split
      · next h' => subst h'; simp [Memory.risingFrom, h, hm.2]
      · simp only [Memory.risingFrom, Bool.and_eq_true, decide_eq_true_eq]
        exact ⟨hm.1, ih (by omega) hm.2⟩

/-- A one-byte write keeps the canonical form. -/
theorem wf_write {m : Memory} (a : Nat) (b : Byte) (hm : m.wf = true) : (m.write a b).wf = true :=
  risingFrom_write b (Nat.zero_le a) hm

/-- A write of several bytes keeps the canonical form. -/
theorem wf_writeBytes {m : Memory} (a : Nat) (bs : List Byte) (hm : m.wf = true) :
    (m.writeBytes a bs).wf = true := by
  induction bs generalizing m a with
  | nil => exact hm
  | cons b bs ih => exact ih _ (wf_write a b hm)

@[simp] theorem wf_nil : Memory.wf [] = true := rfl

theorem read?_eq_none_of_risingFrom {lo x : Nat} {m : Memory} (hm : m.risingFrom lo = true) (h : x < lo) :
    m.read? x = none := by
  induction m generalizing lo with
  | nil => rfl
  | cons c m ih =>
    obtain ⟨k, v⟩ := c
    simp only [Memory.risingFrom, Bool.and_eq_true, decide_eq_true_eq] at hm
    rw [Memory.read?, if_neg (by omega)]
    exact ih hm.2 (by omega)

theorem readBytes?_eq_some_iff {m : Memory} {a n : Nat} {bs : List Byte} :
    m.readBytes? a n = some bs ↔ bs.length = n ∧ ∀ i, i < n → m.read? (a + i) = bs[i]? := by
  induction n generalizing a bs with
  | zero => cases bs <;> simp [Memory.readBytes?]
  | succ n ih =>
    constructor
    · intro h
      simp only [Memory.readBytes?] at h
      split at h
      · next b bs' hb hbs =>
        cases h
        obtain ⟨hl, hr⟩ := ih.1 hbs
        refine ⟨by simp [hl], fun i hi => ?_⟩
        cases i with
        | zero => simpa using hb
        | succ i => simpa [Nat.add_assoc, Nat.add_comm 1] using hr i (by omega)
      · cases h
    · rintro ⟨hl, hr⟩
      cases bs with
      | nil => simp at hl
      | cons b bs =>
        have h0 : m.read? a = some b := by simpa using hr 0 (by omega)
        have hs : m.readBytes? (a + 1) n = some bs := ih.2
          ⟨by simpa using hl, fun i hi => by
            simpa [Nat.add_assoc, Nat.add_comm 1] using hr (i + 1) (by omega)⟩
        simp [Memory.readBytes?, h0, hs]

theorem readBytes?_congr {m m' : Memory} {a n : Nat} (h : ∀ i, i < n → m.read? (a + i) = m'.read? (a + i)) :
    m.readBytes? a n = m'.readBytes? a n := by
  induction n generalizing a with
  | zero => rfl
  | succ n ih =>
    have h0 := h 0 (by omega)
    have hs := ih (a := a + 1) fun i hi => by
      simpa [Nat.add_assoc, Nat.add_comm 1] using h (i + 1) (by omega)
    simp only [Nat.add_zero] at h0
    simp [Memory.readBytes?, h0, hs]

theorem readBytes?_isSome_iff {m : Memory} {a n : Nat} :
    (m.readBytes? a n).isSome = true ↔ ∀ i, i < n → (m.read? (a + i)).isSome = true := by
  induction n generalizing a with
  | zero => simp [Memory.readBytes?]
  | succ n ih =>
    constructor
    · intro h i hi
      simp only [Memory.readBytes?] at h
      split at h
      · next b bs hb hbs =>
        cases i with
        | zero => simp [hb]
        | succ i =>
          have := ih.1 (by rw [hbs]; rfl) i (by omega)
          rwa [Nat.add_right_comm] at this
      · simp at h
    · intro h
      obtain ⟨b, hb⟩ := Option.isSome_iff_exists.1 (by simpa using h 0 (by omega))
      obtain ⟨bs, hbs⟩ := Option.isSome_iff_exists.1
        (ih (a := a + 1) |>.2 fun i hi => by
          simpa [Nat.add_assoc, Nat.add_comm 1] using h (i + 1) (by omega))
      simp [Memory.readBytes?, hb, hbs]

theorem readBytes?_append {m : Memory} {a n k : Nat} {bs cs : List Byte}
    (h1 : m.readBytes? a n = some bs) (h2 : m.readBytes? (a + n) k = some cs) :
    m.readBytes? a (n + k) = some (bs ++ cs) := by
  rw [readBytes?_eq_some_iff] at *
  refine ⟨by simp [h1.1, h2.1], fun i hi => ?_⟩
  by_cases hin : i < n
  · rw [h1.2 i hin, List.getElem?_append_left (by omega)]
  · have := h2.2 (i - n) (by omega)
    rw [show a + n + (i - n) = a + i by omega] at this
    rw [this, List.getElem?_append_right (by omega), h1.1]

theorem readBytes?_drop {m : Memory} {a n k : Nat} {bs : List Byte}
    (h : m.readBytes? a n = some bs) (hk : k ≤ n) :
    m.readBytes? (a + k) (n - k) = some (bs.drop k) := by
  rw [readBytes?_eq_some_iff] at *
  refine ⟨by simp [h.1], fun i hi => ?_⟩
  rw [Nat.add_assoc, h.2 (k + i) (by omega), List.getElem?_drop]

theorem readBytes?_take {m : Memory} {a n k : Nat} {bs : List Byte}
    (h : m.readBytes? a n = some bs) (hk : k ≤ n) : m.readBytes? a k = some (bs.take k) := by
  rw [readBytes?_eq_some_iff] at *
  refine ⟨by simp [h.1, hk], fun i hi => ?_⟩
  rw [h.2 i (by omega), List.getElem?_take, if_pos hi]

theorem readBytes?_writeBytes_same (m : Memory) (a : Nat) (bs : List Byte) :
    (m.writeBytes a bs).readBytes? a bs.length = some bs :=
  readBytes?_eq_some_iff.2 ⟨rfl, fun i hi => read?_writeBytes_of_inside m a i bs hi⟩

theorem readBytes?_writeBytes_of_outside (m : Memory) (a x n : Nat) (bs : List Byte)
    (h : x + n ≤ a ∨ a + bs.length ≤ x) : (m.writeBytes a bs).readBytes? x n = m.readBytes? x n :=
  readBytes?_congr fun i hi => read?_writeBytes_of_outside m a (x + i) bs (by omega)

end Memory

/-- A bounded read succeeds exactly on a written byte inside the buffer. -/
theorem load_eq_ok_iff {p : Port} {size : Nat} {m : Memory} {a : Nat} {b : Byte} :
    load p size m a = .ok b ↔ a < size ∧ m.read? a = some b := by
  unfold load
  split
  · simp; omega
  · split <;> simp_all

/-- A bounded store succeeds exactly inside the buffer, and then it is the plain write. -/
theorem store_eq_ok_iff {p : Port} {size : Nat} {m m' : Memory} {a : Nat} {bs : List Byte} :
    store p size m a bs = .ok m' ↔ a + bs.length ≤ size ∧ m' = m.writeBytes a bs := by
  unfold store
  split
  · simp; omega
  · simp only [Except.ok.injEq]
    constructor
    · rintro rfl; exact ⟨by omega, rfl⟩
    · rintro ⟨-, rfl⟩; rfl

theorem store_of_le {p : Port} {size : Nat} {m : Memory} {a : Nat} {bs : List Byte}
    (h : a + bs.length ≤ size) : store p size m a bs = .ok (m.writeBytes a bs) :=
  store_eq_ok_iff.2 ⟨h, rfl⟩

/-- A bounded read of several bytes succeeds exactly on written bytes inside the buffer. -/
theorem loadBytes_eq_ok_iff {p : Port} {size : Nat} {m : Memory} {a n : Nat} {bs : List Byte} :
    loadBytes p size m a n = .ok bs ↔ (n = 0 ∨ a + n ≤ size) ∧ m.readBytes? a n = some bs := by
  induction n generalizing a bs with
  | zero => simp [loadBytes, Memory.readBytes?]
  | succ n ih =>
    simp only [loadBytes, bind, Except.bind, pure, Except.pure]
    cases hl : load p size m a with
    | error f =>
      simp only [reduceCtorEq, false_iff, not_and, false_or]
      intro hle hr
      rw [Memory.readBytes?_eq_some_iff] at hr
      have h0 := hr.2 0 (by omega)
      cases bs with
      | nil => simp at hr
      | cons b bs =>
        have := (load_eq_ok_iff (p := p) (size := size) (m := m) (a := a) (b := b)).2
          ⟨by omega, by simpa using h0⟩
        rw [hl] at this; cases this
    | ok b =>
      obtain ⟨ha, hb⟩ := load_eq_ok_iff.1 hl
      cases hs : loadBytes p size m (a + 1) n with
      | error f =>
        simp only [reduceCtorEq, false_iff, not_and, false_or]
        intro hle hr
        simp only [Memory.readBytes?, hb] at hr
        split at hr
        · next b' bs' hb' hbs' =>
          have := (ih (a := a + 1) (bs := bs')).2 ⟨.inr (by omega), hbs'⟩
          rw [hs] at this; cases this
        · cases hr
      | ok bs' =>
        obtain ⟨hle, hbs'⟩ := ih.1 hs
        simp only [Memory.readBytes?, hb, hbs', Except.ok.injEq, Option.some.injEq]
        constructor
        · rintro rfl; exact ⟨.inr (by omega), rfl⟩
        · rintro ⟨-, rfl⟩; rfl

end Sys2Proof.Machine
end

