-- ==== Sys2Proof/Laws/State.lean ====
section
/-! SUPPORT. One lemma for each field and each named update, so that no proof unfolds a record update. -/

namespace Sys2Proof.Machine

section Respond
variable (p : Port) (r : Response) (s : State)
@[simp] theorem State.respond_cfg : (s.respond p r).cfg = s.cfg := by cases p <;> rfl
@[simp] theorem State.respond_dec : (s.respond p r).dec = s.dec := by cases p <;> rfl
@[simp] theorem State.respond_enc : (s.respond p r).enc = s.enc := by cases p <;> rfl
@[simp] theorem State.respond_cmdIn : (s.respond p r).cmdIn = s.cmdIn := by cases p <;> rfl
@[simp] theorem State.respond_decCmd : (s.respond p r).decCmd = s.decCmd := by cases p <;> rfl
@[simp] theorem State.respond_encCmd : (s.respond p r).encCmd = s.encCmd := by cases p <;> rfl
@[simp] theorem State.respond_turn : (s.respond p r).turn = s.turn := by cases p <;> rfl
@[simp] theorem State.respond_dec_decRsp : (s.respond .dec r).decRsp = s.decRsp ++ [r] := rfl
@[simp] theorem State.respond_dec_encRsp : (s.respond .dec r).encRsp = s.encRsp := rfl
@[simp] theorem State.respond_enc_decRsp : (s.respond .enc r).decRsp = s.decRsp := rfl
@[simp] theorem State.respond_enc_encRsp : (s.respond .enc r).encRsp = s.encRsp ++ [r] := rfl
@[simp] theorem State.respond_rsp : (s.respond p r).rsp p = s.rsp p ++ [r] := by cases p <;> rfl
@[simp] theorem State.respond_cmd (q : Port) : (s.respond p r).cmd q = s.cmd q := by cases p <;> cases q <;> rfl
theorem State.respond_rsp_other : (s.respond p r).rsp p.other = s.rsp p.other := by cases p <;> rfl
end Respond

section SetCmd
variable (p : Port) (bs : List Byte) (s : State)
@[simp] theorem State.setCmd_cfg : (s.setCmd p bs).cfg = s.cfg := by cases p <;> rfl
@[simp] theorem State.setCmd_dec : (s.setCmd p bs).dec = s.dec := by cases p <;> rfl
@[simp] theorem State.setCmd_enc : (s.setCmd p bs).enc = s.enc := by cases p <;> rfl
@[simp] theorem State.setCmd_cmdIn : (s.setCmd p bs).cmdIn = s.cmdIn := by cases p <;> rfl
@[simp] theorem State.setCmd_decRsp : (s.setCmd p bs).decRsp = s.decRsp := by cases p <;> rfl
@[simp] theorem State.setCmd_encRsp : (s.setCmd p bs).encRsp = s.encRsp := by cases p <;> rfl
@[simp] theorem State.setCmd_turn : (s.setCmd p bs).turn = s.turn := by cases p <;> rfl
@[simp] theorem State.setCmd_cmd : (s.setCmd p bs).cmd p = bs := by cases p <;> rfl
theorem State.setCmd_cmd_other : (s.setCmd p bs).cmd p.other = s.cmd p.other := by cases p <;> rfl
end SetCmd

section Consume
variable (p : Port) (bs : List Byte) (s : State)
@[simp] theorem State.consume_cfg : (s.consume p bs).cfg = s.cfg := by cases p <;> rfl
@[simp] theorem State.consume_dec : (s.consume p bs).dec = s.dec := by cases p <;> rfl
@[simp] theorem State.consume_enc : (s.consume p bs).enc = s.enc := by cases p <;> rfl
@[simp] theorem State.consume_cmdIn : (s.consume p bs).cmdIn = s.cmdIn := by cases p <;> rfl
@[simp] theorem State.consume_decRsp : (s.consume p bs).decRsp = s.decRsp := by cases p <;> rfl
@[simp] theorem State.consume_encRsp : (s.consume p bs).encRsp = s.encRsp := by cases p <;> rfl
@[simp] theorem State.consume_turn : (s.consume p bs).turn = p.other := rfl
@[simp] theorem State.consume_cmd : (s.consume p bs).cmd p = bs := by cases p <;> rfl
theorem State.consume_cmd_other : (s.consume p bs).cmd p.other = s.cmd p.other := by cases p <;> rfl
end Consume

section Arrive
variable (p : Port) (bs : List Byte) (s : State)
@[simp] theorem State.arrive_cfg : (s.arrive p bs).cfg = s.cfg := by cases p <;> rfl
@[simp] theorem State.arrive_dec : (s.arrive p bs).dec = s.dec := by cases p <;> rfl
@[simp] theorem State.arrive_enc : (s.arrive p bs).enc = s.enc := by cases p <;> rfl
@[simp] theorem State.arrive_cmdIn : (s.arrive p bs).cmdIn = s.cmdIn := by cases p <;> rfl
@[simp] theorem State.arrive_decRsp : (s.arrive p bs).decRsp = s.decRsp := by cases p <;> rfl
@[simp] theorem State.arrive_encRsp : (s.arrive p bs).encRsp = s.encRsp := by cases p <;> rfl
@[simp] theorem State.arrive_cmd : (s.arrive p bs).cmd p = s.cmd p ++ bs := by cases p <;> rfl
end Arrive

section Raise
variable (d : DecUnit) (c : FailClass)
@[simp] theorem DecUnit.raise_snd : (d.raise c).2 = .fail c := rfl
@[simp] theorem DecUnit.raise_keepSize : (d.raise c).1.keepSize = d.keepSize := rfl
@[simp] theorem DecUnit.raise_memBytes : (d.raise c).1.memBytes = d.memBytes := rfl
@[simp] theorem DecUnit.raise_capacity : (d.raise c).1.capacity = d.capacity := rfl
@[simp] theorem DecUnit.raise_writePos : (d.raise c).1.writePos = d.writePos := rfl
@[simp] theorem DecUnit.raise_streamPos : (d.raise c).1.streamPos = d.streamPos := rfl
@[simp] theorem DecUnit.raise_decodePos : (d.raise c).1.decodePos = d.decodePos := rfl
@[simp] theorem DecUnit.raise_phase : (d.raise c).1.phase = c.phaseAfter d.phase := rfl
@[simp] theorem DecUnit.raise_buf : (d.raise c).1.buf = d.buf := rfl
/-- The four classes that change no state (rule R189). -/
theorem DecUnit.raise_fst_of_keeps (h : c.phaseAfter d.phase = d.phase) : (d.raise c).1 = d := by
  simp [DecUnit.raise, h]
end Raise

section Reopen
variable (d : DecUnit)
@[simp] theorem DecUnit.reopen_keepSize : d.reopen.keepSize = d.keepSize := rfl
@[simp] theorem DecUnit.reopen_memBytes : d.reopen.memBytes = d.memBytes := rfl
@[simp] theorem DecUnit.reopen_capacity : d.reopen.capacity = d.capacity := rfl
@[simp] theorem DecUnit.reopen_writePos : d.reopen.writePos = 0 := rfl
@[simp] theorem DecUnit.reopen_streamPos : d.reopen.streamPos = 0 := rfl
@[simp] theorem DecUnit.reopen_decodePos : d.reopen.decodePos = 0 := rfl
@[simp] theorem DecUnit.reopen_phase : d.reopen.phase = .opened := rfl
@[simp] theorem DecUnit.reopen_buf : d.reopen.buf = d.buf := rfl
end Reopen

@[simp] theorem answerDec_ok (s : State) (d : DecUnit) (r : Response) :
    answerDec s (.ok (d, r)) = .next (State.respond .dec r { s with dec := d }) := rfl

@[simp] theorem answerEnc_ok (s : State) (e : EncUnit) (r : Response) :
    answerEnc s (.ok (e, r)) = .next (State.respond .enc r { s with enc := e }) := rfl

/-- All a decoder command can do when it answers: change the decoder unit and send one response. -/
theorem answerDec_eq_next_iff {s t : State} {r : Except Fault (DecUnit × Response)} :
    answerDec s r = .next t ↔ ∃ d rsp, r = .ok (d, rsp) ∧ t = State.respond .dec rsp { s with dec := d } := by
  unfold answerDec
  rcases r with f | ⟨d, rsp⟩
  · simp
  · simp only [Host.Outcome.next.injEq, Except.ok.injEq, Prod.mk.injEq]
    constructor
    · rintro rfl; exact ⟨d, rsp, ⟨rfl, rfl⟩, rfl⟩
    · rintro ⟨_, _, ⟨rfl, rfl⟩, rfl⟩; rfl

/-- All an encoder command can do when it answers: change the encoder unit and send one response. -/
theorem answerEnc_eq_next_iff {s t : State} {r : Except Fault (EncUnit × Response)} :
    answerEnc s r = .next t ↔ ∃ e rsp, r = .ok (e, rsp) ∧ t = State.respond .enc rsp { s with enc := e } := by
  unfold answerEnc
  rcases r with f | ⟨e, rsp⟩
  · simp
  · simp only [Host.Outcome.next.injEq, Except.ok.injEq, Prod.mk.injEq]
    constructor
    · rintro rfl; exact ⟨e, rsp, ⟨rfl, rfl⟩, rfl⟩
    · rintro ⟨_, _, ⟨rfl, rfl⟩, rfl⟩; rfl

end Sys2Proof.Machine
end

