-- ==== Sys2Proof/Laws/DecoderUnit.lean ====
section
/-! SUPPORT. One lemma for each shared operation of the decoder unit that says everything it does: the loop and
the commit of a bulk pass, and the tail decode. -/

namespace Sys2Proof.Machine

theorem Memory.read?_isSome_writeBytes {m : Memory} {x : Nat} (a : Nat) (bs : List Byte)
    (h : (m.read? x).isSome = true) : ((m.writeBytes a bs).read? x).isSome = true := by
  by_cases hx : x < a ∨ a + bs.length ≤ x
  · rwa [read?_writeBytes_of_outside m a x bs hx]
  · obtain ⟨i, rfl⟩ : ∃ i, x = a + i := ⟨x - a, by omega⟩
    rw [read?_writeBytes_of_inside m a i bs (by omega)]
    simp; omega

/-- What a bulk loop leaves in the buffer: outside its stores nothing changes, the canonical form and every
written byte stay. -/
structure BulkFrame (groups o : Nat) (m m' : Memory) : Prop where
  unchanged : ∀ x, x < o ∨ o + 3 * groups < x ∨ groups = 0 → m'.read? x = m.read? x
  wf : m.wf = true → m'.wf = true
  kept : ∀ x, (m.read? x).isSome = true → (m'.read? x).isSome = true

/-- A loop of a bulk pass over written input whose output does not overtake its input (rules R58, R123): it
succeeds, its accumulator says whether all the input was symbols, and if so it stores their bytes. -/
theorem bulkLoop_spec {size : Nat} (groups : Nat) : ∀ {s o : Nat} {acc : Word} {m : Memory} {input : List Byte},
    m.readBytes? s (4 * groups) = some input → o ≤ s → s + 4 * groups ≤ size →
    ∃ acc' m', bulkLoop size groups s o acc m = .ok (acc', o + 3 * groups, m') ∧
      errorSeen acc' = (errorSeen acc || !input.all isSymbol) ∧
      (input.all isSymbol = true → m'.readBytes? o (3 * groups) = some (decodedGroups input)) ∧
      BulkFrame groups o m m' := by
  induction groups with
  | zero =>
    intro s o acc m input hin _ _
    simp only [Memory.readBytes?, Option.some.injEq] at hin
    subst hin
    exact ⟨acc, m, rfl, by simp, fun _ => rfl, ⟨fun _ _ => rfl, id, fun _ h => h⟩⟩
  | succ groups ih =>
    intro s o acc m input hin hos hle
    obtain ⟨hlen, hread⟩ := Memory.readBytes?_eq_some_iff.1 hin
    obtain ⟨c0, c1, c2, c3, rest, rfl⟩ : ∃ c0 c1 c2 c3 rest, input = c0 :: c1 :: c2 :: c3 :: rest := by
      rcases input with _ | ⟨c0, _ | ⟨c1, _ | ⟨c2, _ | ⟨c3, rest⟩⟩⟩⟩ <;>
        first | exact ⟨_, _, _, _, _, rfl⟩ | (simp at hlen <;> omega)
    have l0 : load .dec size m s = .ok c0 := load_eq_ok_iff.2 ⟨by omega, by simpa using hread 0 (by omega)⟩
    have l1 : load .dec size m (s + 1) = .ok c1 := load_eq_ok_iff.2 ⟨by omega, by simpa using hread 1 (by omega)⟩
    have l2 : load .dec size m (s + 2) = .ok c2 := load_eq_ok_iff.2 ⟨by omega, by simpa using hread 2 (by omega)⟩
    have l3 : load .dec size m (s + 3) = .ok c3 := load_eq_ok_iff.2 ⟨by omega, by simpa using hread 3 (by omega)⟩
    let w := groupWord c0 c1 c2 c3
    let m1 := m.writeBytes o (leBytes 4 w)
    have hst : store .dec size m o (leBytes 4 w) = .ok m1 := store_of_le (by simp; omega)
    have hrest : m1.readBytes? (s + 4) (4 * groups) = some rest := by
      rw [Memory.readBytes?_writeBytes_of_outside _ _ _ _ _ (by simp; omega)]
      simpa [Nat.mul_add] using Memory.readBytes?_drop hin (k := 4) (by omega)
    obtain ⟨acc', m', hrun, herr, hdata, hframe⟩ :=
      ih (acc := acc ||| w) (o := o + 3) hrest (by omega) (by omega)
    refine ⟨acc', m', ?_, ?_, ?_, ?_⟩
    · simp only [bulkLoop, l0, l1, l2, l3, bind, Except.bind]
      rw [hst]
      simp only []
      rw [hrun, show o + 3 + 3 * groups = o + 3 * (groups + 1) by omega]
    · rw [herr, errorSeen_or, errorSeen_groupWord]
      simp only [List.all_cons, List.all_nil, Bool.and_true, Bool.not_and, Bool.or_assoc]
    · intro hall
      simp only [List.all_cons, Bool.and_eq_true] at hall
      obtain ⟨s0, s1, s2, s3, srest⟩ := hall
      have h3 : m'.readBytes? o 3 = some (leBytes 3 w) := by
        rw [Memory.readBytes?_congr (m' := m1) fun i hi => hframe.unchanged _ (by omega)]
        have := Memory.readBytes?_writeBytes_same m o (leBytes 4 w)
        rw [length_leBytes] at this
        simpa [leBytes_take] using Memory.readBytes?_take this (k := 3) (by omega)
      rw [show 3 * (groups + 1) = 3 + 3 * groups by omega, decodedGroups, ← leBytes_groupWord s0 s1 s2 s3]
      exact Memory.readBytes?_append h3 (hdata srest)
    · refine ⟨fun x hx => ?_, fun h => hframe.wf (Memory.wf_writeBytes _ _ h),
        fun x h => hframe.kept x (Memory.read?_isSome_writeBytes _ _ h)⟩
      rw [hframe.unchanged x (by omega), Memory.read?_writeBytes_of_outside _ _ _ _ (by simp; omega)]

theorem DecUnit.Inv.write_le_bufSize {c : Config} {d : DecUnit} (h : d.Inv c) :
    d.writePos.toNat ≤ d.bufSize c := by
  have h1 := h.write_le
  have h2 := h.reserved
  unfold DecUnit.bufSize
  omega

/-- Input below `writePos` can be read back (rule R57). -/
theorem DecUnit.Inv.exists_readBytes {c : Config} {d : DecUnit} (h : d.Inv c) {a n : Nat}
    (hle : a + n ≤ d.writePos.toNat) : ∃ bs, d.buf.readBytes? a n = some bs :=
  Option.isSome_iff_exists.1 (Memory.readBytes?_isSome_iff.2 fun i hi => h.written _ (by omega))

/-- In phase OPEN the cursors of a unit with pending input sit on group boundaries (rules R23, R123). -/
theorem DecUnit.Inv.exists_groups {c : Config} {d : DecUnit} (h : d.Inv c) (hp : d.phase = .opened)
    (hpend : 0 < d.pending) :
    ∃ k g, d.streamPos.toNat = 4 * k ∧ d.decodePos.toNat = 3 * k ∧
      nextStreamPos d.writePos.toNat = 4 * (k + g) ∧ 4 * (k + g) < d.writePos.toNat ∧
      d.writePos.toNat ≤ 4 * (k + g) + 4 := by
  obtain ⟨hmod, hdp⟩ := h.grouped (by rw [hp]; decide)
  unfold DecUnit.pending at hpend
  refine ⟨d.streamPos.toNat / 4, (d.writePos.toNat - 1) / 4 - d.streamPos.toNat / 4, ?_⟩
  unfold nextStreamPos
  omega

/-- A bulk pass in phase OPEN (rule R123). It reads the whole groups `[streamPos, nsp)`; it is good exactly when
all of them are symbols, and only then it commits them; outside its own stores the buffer is unchanged. -/
theorem bulkDecode_spec {c : Config} {d : DecUnit} (h : d.Inv c) {k g : Nat}
    (hk : d.streamPos.toNat = 4 * k) (hd : d.decodePos.toNat = 3 * k)
    (hn : nextStreamPos d.writePos.toNat = 4 * (k + g)) (hlt : 4 * (k + g) < d.writePos.toNat) :
    ∃ input m', d.buf.readBytes? (4 * k) (4 * g) = some input ∧
      bulkDecode c d = .ok (input.all isSymbol,
        if input.all isSymbol then
          { d with buf := m', streamPos := BitVec.ofNat 32 (4 * (k + g)), decodePos := BitVec.ofNat 32 (3 * (k + g)) }
        else { d with buf := m' }) ∧
      (input.all isSymbol = true → m'.readBytes? (3 * k) (3 * g) = some (decodedGroups input)) ∧
      BulkFrame g (3 * k) d.buf m' := by
  have hsize := h.write_le_bufSize
  obtain ⟨input, hin⟩ := h.exists_readBytes (a := 4 * k) (n := 4 * g) (by omega)
  obtain ⟨acc, m', hrun, herr, hdata, hframe⟩ :=
    bulkLoop_spec (size := d.bufSize c) g (o := 3 * k) (acc := 0) hin (by omega) (by omega)
  have hg : groupsBetween (4 * k) (4 * (k + g)) = g := by unfold groupsBetween ceilDiv; omega
  refine ⟨input, m', hin, ?_, hdata, hframe⟩
  simp only [bulkDecode, hk, hd, hn, hg, hrun, bind, Except.bind, pure, Except.pure, herr, errorSeen_zero,
    Bool.false_or]
  cases input.all isSymbol <;> simp [Nat.mul_add]

/-- The invariant after a bulk pass, good or bad, in a phase that is not CLOSED (rule R136). -/
theorem DecUnit.Inv.afterBulk {c : Config} {d : DecUnit} (h : d.Inv c) {k g : Nat} {m' : Memory}
    (hk : d.streamPos.toNat = 4 * k) (hd : d.decodePos.toNat = 3 * k) (hlt : 4 * (k + g) < d.writePos.toNat)
    (hframe : BulkFrame g (3 * k) d.buf m') {ph : Phase} (hph : ph ≠ .closed) :
    DecUnit.Inv c { d with buf := m', phase := ph } ∧
    DecUnit.Inv c { d with
      buf := m', phase := ph, streamPos := BitVec.ofNat 32 (4 * (k + g)), decodePos := BitVec.ofNat 32 (3 * (k + g)) } := by
  have hsize := h.write_le_bufSize
  have hw := d.writePos.isLt
  have hrange : ∀ a, d.bufSize c ≤ a → m'.read? a = none := fun a ha => by
    rw [hframe.unchanged a (by omega)]; exact h.buf_range a ha
  have hwritten : ∀ a, a < d.writePos.toNat → (m'.read? a).isSome = true := fun a ha =>
    hframe.kept a (h.written a ha)
  have e1 : (BitVec.ofNat 32 (4 * (k + g))).toNat = 4 * (k + g) := by
    rw [BitVec.toNat_ofNat, Nat.mod_eq_of_lt (by omega)]
  have e2 : (BitVec.ofNat 32 (3 * (k + g))).toNat = 3 * (k + g) := by
    rw [BitVec.toNat_ofNat, Nat.mod_eq_of_lt (by omega)]
  constructor
  · exact ⟨h.decoded_le, h.stream_le, h.write_le, fun _ => by simp only [hk, hd]; omega, fun e => absurd e hph,
      h.mem_paged, h.mem_le, h.reserved, hframe.wf h.buf_wf, hrange, hwritten⟩
  · exact ⟨by simp only [e1, e2]; omega, by simp only [e1]; omega, h.write_le,
      fun _ => by simp only [e1, e2]; omega, fun e => absurd e hph,
      h.mem_paged, h.mem_le, h.reserved, hframe.wf h.buf_wf, hrange, hwritten⟩

/-- The append of `DEC.PUT` (rule R122): it stays inside the buffer and keeps the invariant. -/
theorem DecUnit.Inv.append {c : Config} {d : DecUnit} (h : d.Inv c) (hp : d.phase = .opened) {chunk : List Byte}
    (hcap : d.writePos.toNat + chunk.length ≤ d.capacity.toNat) :
    store .dec (d.bufSize c) d.buf d.writePos.toNat chunk = .ok (d.buf.writeBytes d.writePos.toNat chunk) ∧
    (BitVec.ofNat 32 (d.writePos.toNat + chunk.length)).toNat = d.writePos.toNat + chunk.length ∧
    DecUnit.Inv c { d with
      buf := d.buf.writeBytes d.writePos.toNat chunk
      writePos := BitVec.ofNat 32 (d.writePos.toNat + chunk.length) } := by
  have hc := d.capacity.isLt
  have hr := h.reserved
  have hle : d.writePos.toNat + chunk.length ≤ d.bufSize c := by
    unfold DecUnit.bufSize
    omega
  have e : (BitVec.ofNat 32 (d.writePos.toNat + chunk.length)).toNat = d.writePos.toNat + chunk.length := by
    rw [BitVec.toNat_ofNat, Nat.mod_eq_of_lt (by omega)]
  have hs := h.stream_le
  refine ⟨store_of_le hle, e, ⟨h.decoded_le, by simp only [e]; omega, by simp only [e]; exact hcap, h.grouped,
    fun hcl => absurd hcl (by simp [hp]), h.mem_paged, h.mem_le, h.reserved, Memory.wf_writeBytes _ _ h.buf_wf,
    fun a ha => ?_, fun a ha => ?_⟩⟩
  · have ha : d.bufSize c ≤ a := ha
    simp only
    rw [Memory.read?_writeBytes_of_outside _ _ _ _ (by omega)]
    exact h.buf_range a ha
  · simp only [e] at ha
    by_cases hin : a < d.writePos.toNat
    · exact Memory.read?_isSome_writeBytes _ _ (h.written a hin)
    · obtain ⟨i, rfl⟩ : ∃ i, a = d.writePos.toNat + i := ⟨a - d.writePos.toNat, by omega⟩
      simp only
      rw [Memory.read?_writeBytes_of_inside _ _ _ _ (by omega)]
      simp; omega

/-- The tail decode of 2 to 4 bytes is base64's: its word carries the error flag exactly when the tail is no base64
text, and otherwise its low bytes are the decoded bytes, fewer than the tail has (rules R103, R127). -/
theorem tailWord_spec {tail : List Byte} (h2 : 2 ≤ tail.length) (h4 : tail.length ≤ 4) :
    match decodedTail tail with
    | none => errorSeen (tailWord tail (effectiveSymbols tail)) = true
    | some out =>
      errorSeen (tailWord tail (effectiveSymbols tail)) = false ∧
      leBytes (effectiveSymbols tail - 1) (tailWord tail (effectiveSymbols tail)) = out ∧
      out.length = effectiveSymbols tail - 1 ∧ 1 ≤ out.length ∧ out.length + 1 ≤ tail.length := by
  have hA : isSymbol 65#8 = true := by decide
  have z2 : tableD2 65#8 = 0 := by decide
  have z3 : tableD3 65#8 = 0 := by decide
  have key : ∀ syms : List Byte, 2 ≤ syms.length → syms.length ≤ 4 →
      match partialGroup syms with
      | none => errorSeen (tailWord syms syms.length) = true
      | some out => errorSeen (tailWord syms syms.length) = false ∧
          leBytes (syms.length - 1) (tailWord syms syms.length) = out ∧ out.length = syms.length - 1 := by
    intro syms hs2 hs4
    have hw : tailWord syms syms.length =
        groupWord (syms.getD 0 0x41) (syms.getD 1 0x41) (syms.getD 2 0x41) (syms.getD 3 0x41) := by
      rcases syms with _ | ⟨t0, _ | ⟨t1, _ | ⟨t2, _ | ⟨t3, _ | ⟨t4, rest⟩⟩⟩⟩⟩ <;>
        first
        | (simp at hs2; done)
        | (simp at hs4; omega)
        | simp [tailWord, groupWord, z2, z3]
    have hall : syms.all isSymbol = ([syms.getD 0 0x41, syms.getD 1 0x41, syms.getD 2 0x41, syms.getD 3 0x41].all
        isSymbol) := by
      rcases syms with _ | ⟨t0, _ | ⟨t1, _ | ⟨t2, _ | ⟨t3, _ | ⟨t4, rest⟩⟩⟩⟩⟩ <;>
        first
        | (simp at hs2; done)
        | (simp at hs4; omega)
        | simp [hA]
    unfold partialGroup
    rw [hw, errorSeen_groupWord, ← hall]
    cases hsym : syms.all isSymbol with
    | false => simp
    | true =>
      rw [hall] at hsym
      simp only [List.all_cons, List.all_nil, Bool.and_true, Bool.and_eq_true] at hsym
      obtain ⟨s0, s1, s2, s3⟩ := hsym
      simp only [if_true, Bool.not_true, true_and]
      rw [← leBytes_groupWord s0 s1 s2 s3, leBytes_take _ (by omega)]
      simp
  have two : ∀ t0 t1 t2 t3 : Byte, tailWord [t0, t1, t2, t3] 2 = tailWord [t0, t1] 2 := fun _ _ _ _ => rfl
  have three : ∀ t0 t1 t2 t3 : Byte, tailWord [t0, t1, t2, t3] 3 = tailWord [t0, t1, t2] 3 := fun _ _ _ _ => rfl
  rcases tail with _ | ⟨t0, _ | ⟨t1, _ | ⟨t2, _ | ⟨t3, _ | ⟨t4, rest⟩⟩⟩⟩⟩
  · simp at h2
  · simp at h2
  · have := key [t0, t1] (by simp) (by simp)
    simp only [decodedTail, effectiveSymbols, List.length_cons, List.length_nil] at this ⊢
    split at this <;> simp_all
  · have := key [t0, t1, t2] (by simp) (by simp)
    simp only [decodedTail, effectiveSymbols, List.length_cons, List.length_nil] at this ⊢
    split at this <;> simp_all
  · simp only [decodedTail, effectiveSymbols]
    by_cases hp3 : t3 = pad
    · by_cases hp2 : t2 = pad
      · have := key [t0, t1] (by simp) (by simp)
        simp only [List.length_cons, List.length_nil] at this
        simp only [hp2, hp3, and_self, if_true, two]
        split at this <;> simp_all
      · have := key [t0, t1, t2] (by simp) (by simp)
        simp only [List.length_cons, List.length_nil] at this
        simp only [hp2, hp3, and_false, if_true, if_false, three]
        split at this <;> simp_all
    · have := key [t0, t1, t2, t3] (by simp) (by simp)
      simp only [List.length_cons, List.length_nil] at this
      simp only [hp3, false_and, if_false]
      split at this <;> simp_all
  · simp at h4; omega

/-- A whole-group store below the cursors keeps the invariant, also when it closes the stream (rule R136). -/
theorem DecUnit.Inv.closed {c : Config} {d : DecUnit} (h : d.Inv c) {out : List Byte}
    (hle : d.decodePos.toNat + out.length ≤ d.writePos.toNat) :
    DecUnit.Inv c { d with
      buf := d.buf.writeBytes d.decodePos.toNat out
      decodePos := BitVec.ofNat 32 (d.decodePos.toNat + out.length)
      streamPos := d.writePos
      phase := .closed } := by
  have hw := d.writePos.isLt
  have hsize := h.write_le_bufSize
  have e : (BitVec.ofNat 32 (d.decodePos.toNat + out.length)).toNat = d.decodePos.toNat + out.length := by
    rw [BitVec.toNat_ofNat, Nat.mod_eq_of_lt (by omega)]
  refine ⟨by simp only [e]; exact hle, Nat.le_refl _, h.write_le, fun hne => absurd rfl hne, fun _ => rfl, h.mem_paged,
    h.mem_le, h.reserved, Memory.wf_writeBytes _ _ h.buf_wf, fun a ha => ?_,
    fun a ha => Memory.read?_isSome_writeBytes _ _ (h.written a ha)⟩
  have ha : d.bufSize c ≤ a := ha
  simp only
  rw [Memory.read?_writeBytes_of_outside _ _ _ _ (by omega)]
  exact h.buf_range a ha

/-- `DEC.END` after its bulk step, with at most 4 bytes pending (rule R126): fewer than 2 are an incomplete trailer;
a tail that is no base64 text is an invalid symbol; otherwise its bytes join the output and the stream is
closed. -/
theorem DecUnit.finish_spec {c : Config} {d : DecUnit} (h : d.Inv c) (h4 : d.pending ≤ 4) :
    (d.pending < 2 → d.finish c = .ok (d.raise .incompleteTrailer)) ∧
    (2 ≤ d.pending → ∃ tail, d.buf.readBytes? d.streamPos.toNat d.pending = some tail ∧
      match decodedTail tail with
      | none => d.finish c = .ok (d.raise .invalidSymbol)
      | some out =>
        d.finish c = .ok ({ d with
          buf := d.buf.writeBytes d.decodePos.toNat out
          decodePos := BitVec.ofNat 32 (d.decodePos.toNat + out.length)
          streamPos := d.writePos
          phase := .closed }, .ok 0 []) ∧
        1 ≤ out.length ∧ d.decodePos.toNat + out.length < d.writePos.toNat) := by
  constructor
  · intro h2; simp [DecUnit.finish, h2]
  · intro h2
    have hs := h.stream_le
    have hd := h.decoded_le
    have hsize := h.write_le_bufSize
    have hle : d.streamPos.toNat + d.pending ≤ d.writePos.toNat := by unfold DecUnit.pending; omega
    obtain ⟨tail, htail⟩ := h.exists_readBytes hle
    have hlen := (Memory.readBytes?_eq_some_iff.1 htail).1
    have hload : loadBytes .dec (d.bufSize c) d.buf d.streamPos.toNat d.pending = .ok tail :=
      loadBytes_eq_ok_iff.2 ⟨.inr (by omega), htail⟩
    refine ⟨tail, htail, ?_⟩
    have hspec := tailWord_spec (tail := tail) (by omega) (by omega)
    cases hdec : decodedTail tail with
    | none =>
      rw [hdec] at hspec
      have hspec : errorSeen (tailWord tail (effectiveSymbols tail)) = true := hspec
      simp [DecUnit.finish, Nat.not_lt.2 h2, tailDecode, hload, bind, Except.bind, pure, Except.pure, hspec]
    | some out =>
      rw [hdec] at hspec
      obtain ⟨herr, hbytes, hout, h1, hlt⟩ := hspec
      have hst : store .dec (d.bufSize c) d.buf d.decodePos.toNat out =
          .ok (d.buf.writeBytes d.decodePos.toNat out) := store_of_le (by omega)
      rw [← hout] at hbytes
      refine ⟨?_, h1, by omega⟩
      simp [DecUnit.finish, Nat.not_lt.2 h2, tailDecode, hload, bind, Except.bind, pure, Except.pure, herr, hbytes,
        hst, ← hout]

/-- `DEC.PUT` of a chunk that fits, in phase OPEN (rule R122): the append, and at the threshold a bulk pass over the whole
groups, which commits exactly when all of them are symbols. -/
theorem DecUnit.put_spec {c : Config} (hc : c.Legal) {d : DecUnit} (h : d.Inv c) (hp : d.phase = .opened)
    {chunk : List Byte} (hcap : d.writePos.toNat + chunk.length ≤ d.capacity.toNat) {d1 : DecUnit}
    (hd1 : d1 = { d with
      buf := d.buf.writeBytes d.writePos.toNat chunk
      writePos := BitVec.ofNat 32 (d.writePos.toNat + chunk.length) }) :
    (d1.pending < c.tPut → d.put c chunk = .ok (d1, .ok 0 [])) ∧
    (c.tPut ≤ d1.pending → ∃ k g input m',
      d1.streamPos.toNat = 4 * k ∧ d1.decodePos.toNat = 3 * k ∧
      4 * (k + g) < d1.writePos.toNat ∧ d1.writePos.toNat ≤ 4 * (k + g) + 4 ∧
      d1.buf.readBytes? (4 * k) (4 * g) = some input ∧ BulkFrame g (3 * k) d1.buf m' ∧
      (input.all isSymbol = true → m'.readBytes? (3 * k) (3 * g) = some (decodedGroups input) ∧
        d.put c chunk = .ok ({ d1 with
          buf := m'
          streamPos := BitVec.ofNat 32 (4 * (k + g))
          decodePos := BitVec.ofNat 32 (3 * (k + g)) }, .ok 0 [])) ∧
      (input.all isSymbol = false →
        d.put c chunk = .ok (DecUnit.raise { d1 with buf := m' } .invalidSymbol))) := by
  obtain ⟨hst, hw, hinv⟩ := h.append hp hcap
  rw [← hd1] at hinv
  have hne : ¬ d.phase ≠ .opened := by simp [hp]
  constructor
  · intro hlt
    simp only [DecUnit.put, if_neg hne, if_neg (Nat.not_lt.2 hcap), hst, bind, Except.bind, ← hd1,
      if_neg (Nat.not_le.2 hlt)]
    rfl
  · intro hle
    have hp1 : d1.phase = .opened := by rw [hd1]; exact hp
    obtain ⟨k, g, hk, hd, hn, hlt, hub⟩ := hinv.exists_groups hp1 (by have := hc.2.1; omega)
    obtain ⟨input, m', hin, hrun, hdata, hframe⟩ := bulkDecode_spec hinv hk hd hn hlt
    refine ⟨k, g, input, m', hk, hd, hlt, hub, hin, hframe, fun hall => ⟨hdata hall, ?_⟩, fun hall => ?_⟩
    · rw [hall] at hrun
      simp only [DecUnit.put, if_neg hne, if_neg (Nat.not_lt.2 hcap), hst, bind, Except.bind, ← hd1, if_pos hle,
        hrun]
      rfl
    · rw [hall] at hrun
      simp only [DecUnit.put, if_neg hne, if_neg (Nat.not_lt.2 hcap), hst, bind, Except.bind, ← hd1, if_pos hle,
        hrun]
      rfl

/-- `DEC.END` in phase OPEN (rule R126): its bulk step, run only with more than 4 bytes pending, and then the rest. -/
theorem DecUnit.close_spec {c : Config} {d : DecUnit} (h : d.Inv c) (hp : d.phase = .opened) :
    (d.pending ≤ 4 → d.close c = d.finish c) ∧
    (4 < d.pending → ∃ k g input m',
      d.streamPos.toNat = 4 * k ∧ d.decodePos.toNat = 3 * k ∧
      4 * (k + g) < d.writePos.toNat ∧ d.writePos.toNat ≤ 4 * (k + g) + 4 ∧
      d.buf.readBytes? (4 * k) (4 * g) = some input ∧ BulkFrame g (3 * k) d.buf m' ∧
      (input.all isSymbol = true → m'.readBytes? (3 * k) (3 * g) = some (decodedGroups input) ∧
        d.close c = DecUnit.finish c { d with
          buf := m', streamPos := BitVec.ofNat 32 (4 * (k + g)), decodePos := BitVec.ofNat 32 (3 * (k + g)) }) ∧
      (input.all isSymbol = false →
        d.close c = .ok (DecUnit.raise { d with buf := m' } .invalidSymbol))) := by
  have hne : ¬ d.phase ≠ .opened := by simp [hp]
  constructor
  · intro hle
    simp only [DecUnit.close, if_neg hne, if_neg (Nat.not_lt.2 hle)]
  · intro hlt4
    obtain ⟨k, g, hk, hd, hn, hlt, hub⟩ := h.exists_groups hp (by omega)
    obtain ⟨input, m', hin, hrun, hdata, hframe⟩ := bulkDecode_spec h hk hd hn hlt
    refine ⟨k, g, input, m', hk, hd, hlt, hub, hin, hframe, fun hall => ⟨hdata hall, ?_⟩, fun hall => ?_⟩
    · rw [hall] at hrun
      simp only [DecUnit.close, if_neg hne, bind, Except.bind, if_pos hlt4, hrun]
      rfl
    · rw [hall] at hrun
      simp only [DecUnit.close, if_neg hne, bind, Except.bind, if_pos hlt4, hrun]
      rfl

end Sys2Proof.Machine
end

