-- ==== Sys2Proof/Laws/EncoderUnit.lean ====
section
/-! SUPPORT. One lemma for each shared operation of the encoder unit that says everything it does, and the laws of the
sizes rule R161 computes. -/

namespace Sys2Proof.Machine

theorem le_roundUp {p : Nat} (hp : 0 < p) (a : Nat) : a ≤ roundUp a p := by
  unfold roundUp ceilDiv
  have h1 := Nat.div_add_mod (a + p - 1) p
  have h2 := Nat.mod_lt (a + p - 1) hp
  omega

/-- The least multiple: nothing above `a` and a multiple of `p` lies below `roundUp a p` (rule R132). -/
theorem roundUp_le {p a b : Nat} (hp : 0 < p) (hb : b % p = 0) (h : a ≤ b) : roundUp a p ≤ b := by
  obtain ⟨q, rfl⟩ := Nat.dvd_of_mod_eq_zero hb
  unfold roundUp ceilDiv
  apply Nat.mul_le_mul_left
  have : (a + p - 1) / p < q + 1 := by
    rw [Nat.div_lt_iff_lt_mul hp, Nat.add_mul, Nat.mul_comm q p]
    omega
  omega

theorem roundUp_mod (a p : Nat) : roundUp a p % p = 0 := Nat.mul_mod_right p _

/-- What growth leaves, for legal parameters and a need that fits `MEM_MAX`: a size that covers the need, is a multiple of
`PAGE`, is not above `MEM_MAX`, and is the old size whenever that was large enough (rules R24, R121, R161). -/
theorem grownTo_spec {c : Config} (hc : c.Legal) {memBytes : Word} {need : Nat} (hfit : need ≤ c.memMax)
    (hpage : memBytes.toNat % c.page = 0) (hmax : memBytes.toNat ≤ c.memMax) :
    (grownTo c memBytes need).toNat =
      (if memBytes.toNat < need then roundUp need c.page else memBytes.toNat) ∧
    need ≤ (grownTo c memBytes need).toNat ∧ memBytes.toNat ≤ (grownTo c memBytes need).toNat ∧
    (grownTo c memBytes need).toNat % c.page = 0 ∧ (grownTo c memBytes need).toNat ≤ c.memMax := by
  obtain ⟨h1, -, h3, h4, h5⟩ := hc
  have hle := le_roundUp h1 need
  have hub := roundUp_le h1 h3 hfit
  have e : (BitVec.ofNat 32 (roundUp need c.page)).toNat = roundUp need c.page := by
    rw [BitVec.toNat_ofNat, Nat.mod_eq_of_lt (by omega)]
  unfold grownTo
  split
  · simp only [e]
    exact ⟨trivial, hle, by omega, roundUp_mod _ _, hub⟩
  · exact ⟨rfl, by omega, Nat.le_refl _, hpage, hmax⟩

/-- Whole groups first: encoding is concatenative after a multiple of 3 bytes (rule R168). -/
theorem base64Encode_append {x : List Byte} (k : Nat) (hx : x.length = 3 * k) (y : List Byte) :
    base64Encode (x ++ y) = base64Encode x ++ base64Encode y := by
  induction k generalizing x with
  | zero =>
    obtain rfl : x = [] := List.eq_nil_of_length_eq_zero (by omega)
    rfl
  | succ k ih =>
    rcases x with _ | ⟨b0, _ | ⟨b1, _ | ⟨b2, rest⟩⟩⟩ <;> simp only [List.length_cons, List.length_nil] at hx <;>
      try omega
    simp only [List.cons_append, base64Encode, ih (x := rest) (by omega), List.append_assoc]

theorem length_symbolsOfBytes (b0 b1 b2 : Byte) : (symbolsOfBytes b0 b1 b2).length = 4 := rfl

/-- The encoding of `n` bytes has `4 * ceil(n / 3)` symbols and pads (rules R165, R168). -/
theorem length_base64Encode (b : List Byte) : (base64Encode b).length = encOutLen b.length := by
  induction b using base64Encode.induct with
  | case1 b0 b1 b2 rest ih =>
    simp only [base64Encode, List.length_append, ih, length_symbolsOfBytes, List.length_cons]
    unfold encOutLen ceilDiv
    omega
  | case2 b0 b1 => simp [base64Encode, symbolsOfBytes, encOutLen, ceilDiv]
  | case3 b0 => simp [base64Encode, symbolsOfBytes, encOutLen, ceilDiv]
  | case4 => rfl

/-- What the encoder's loops leave in the buffer outside their stores `[dst, dst + len)`. -/
structure EncFrame (dst len : Nat) (m m' : Memory) : Prop where
  unchanged : ∀ x, x < dst ∨ dst + len ≤ x → m'.read? x = m.read? x
  wf : m.wf = true → m'.wf = true

/-- One block (rule R162). -/
theorem encodeBlock_spec {size : Nat} {m : Memory} {src dst : Nat} {b0 b1 b2 : Byte}
    (hin : m.readBytes? src 3 = some [b0, b1, b2]) (hsrc : src + 3 ≤ size) (hdst : dst + 4 ≤ size) :
    ∃ m', encodeBlock size m src dst = .ok m' ∧ m'.readBytes? dst 4 = some (symbolsOfBytes b0 b1 b2) ∧
      EncFrame dst 4 m m' := by
  obtain ⟨-, hr⟩ := Memory.readBytes?_eq_some_iff.1 hin
  have l0 : load .enc size m src = .ok b0 := load_eq_ok_iff.2 ⟨by omega, by simpa using hr 0 (by omega)⟩
  have l1 : load .enc size m (src + 1) = .ok b1 := load_eq_ok_iff.2 ⟨by omega, by simpa using hr 1 (by omega)⟩
  have l2 : load .enc size m (src + 2) = .ok b2 := load_eq_ok_iff.2 ⟨by omega, by simpa using hr 2 (by omega)⟩
  let hi := leBytes 2 (lut (highIndex (blockAcc b0 b1 b2)))
  let lo := leBytes 2 (lut (lowIndex (blockAcc b0 b1 b2)))
  have s1 : store .enc size m dst hi = .ok (m.writeBytes dst hi) := store_of_le (by simp [hi]; omega)
  have s2 : store .enc size (m.writeBytes dst hi) (dst + 2) lo = .ok ((m.writeBytes dst hi).writeBytes (dst + 2) lo) :=
    store_of_le (by simp [lo]; omega)
  refine ⟨(m.writeBytes dst hi).writeBytes (dst + 2) lo, ?_, ?_,
    ⟨fun x hx => ?_, fun h => Memory.wf_writeBytes _ _ (Memory.wf_writeBytes _ _ h)⟩⟩
  · simp only [encodeBlock, l0, l1, l2, bind, Except.bind]
    rw [s1]
    exact s2
  · have r1 : ((m.writeBytes dst hi).writeBytes (dst + 2) lo).readBytes? dst 2 = some hi := by
      rw [Memory.readBytes?_writeBytes_of_outside _ _ _ _ _ (by omega)]
      simpa [hi] using Memory.readBytes?_writeBytes_same m dst hi
    have r2 : ((m.writeBytes dst hi).writeBytes (dst + 2) lo).readBytes? (dst + 2) 2 = some lo := by
      simpa [lo] using Memory.readBytes?_writeBytes_same (m.writeBytes dst hi) (dst + 2) lo
    rw [← leBytes_block]
    exact Memory.readBytes?_append r1 r2
  · rw [Memory.read?_writeBytes_of_outside _ _ _ _ (by simp [lo]; omega),
      Memory.read?_writeBytes_of_outside _ _ _ _ (by simp [hi]; omega)]

/-- The complete blocks (rules R59, R161): with the source above the output, the output is their encoding. -/
theorem encodeBlocks_spec {size : Nat} (k : Nat) : ∀ {m : Memory} {src dst : Nat} {bs : List Byte},
    m.readBytes? src (3 * k) = some bs → dst + 4 * k ≤ src → src + 3 * k ≤ size →
    ∃ m', encodeBlocks size k src dst m = .ok m' ∧ m'.readBytes? dst (4 * k) = some (base64Encode bs) ∧
      EncFrame dst (4 * k) m m' := by
  induction k with
  | zero =>
    intro m src dst bs hin _ _
    simp only [Memory.readBytes?, Option.some.injEq] at hin
    subst hin
    exact ⟨m, rfl, rfl, ⟨fun _ _ => rfl, id⟩⟩
  | succ k ih =>
    intro m src dst bs hin hle hsize
    obtain ⟨hlen, hread⟩ := Memory.readBytes?_eq_some_iff.1 hin
    obtain ⟨b0, b1, b2, rest, rfl⟩ : ∃ b0 b1 b2 rest, bs = b0 :: b1 :: b2 :: rest := by
      rcases bs with _ | ⟨b0, _ | ⟨b1, _ | ⟨b2, rest⟩⟩⟩ <;>
        first | exact ⟨_, _, _, _, rfl⟩ | (simp at hlen <;> omega)
    have h3 : m.readBytes? src 3 = some [b0, b1, b2] := by
      simpa using Memory.readBytes?_take hin (k := 3) (by omega)
    obtain ⟨m1, hrun1, hdata1, hframe1⟩ := encodeBlock_spec (size := size) (dst := dst) h3 (by omega) (by omega)
    have hrest : m1.readBytes? (src + 3) (3 * k) = some rest := by
      rw [Memory.readBytes?_congr (m' := m) fun i hi => hframe1.unchanged _ (by omega)]
      simpa [Nat.mul_add] using Memory.readBytes?_drop hin (k := 3) (by omega)
    obtain ⟨m', hrun, hdata, hframe⟩ := ih (dst := dst + 4) hrest (by omega) (by omega)
    refine ⟨m', ?_, ?_, ⟨fun x hx => ?_, fun h => hframe.wf (hframe1.wf h)⟩⟩
    · simp only [encodeBlocks, hrun1, bind, Except.bind]
      exact hrun
    · rw [base64Encode, show 4 * (k + 1) = 4 + 4 * k by omega]
      refine Memory.readBytes?_append ?_ hdata
      rw [Memory.readBytes?_congr (m' := m1) fun i hi => hframe.unchanged _ (by omega)]
      exact hdata1
    · rw [hframe.unchanged x (by omega), hframe1.unchanged x (by omega)]

/-- The tail (rules R161, R163): 0, 1 or 2 leftover bytes and their pads. -/
theorem encodeTail_spec {size : Nat} {m : Memory} {src dst r : Nat} {bs : List Byte}
    (hin : m.readBytes? src r = some bs) (hr : r < 3) (hsrc : src + r ≤ size)
    (hdst : dst + encOutLen r ≤ size) :
    ∃ m', encodeTail size m src dst r = .ok m' ∧ m'.readBytes? dst (encOutLen r) = some (base64Encode bs) ∧
      EncFrame dst (encOutLen r) m m' := by
  obtain ⟨hlen, hread⟩ := Memory.readBytes?_eq_some_iff.1 hin
  by_cases h0 : r = 0
  · subst h0
    obtain rfl : bs = [] := List.eq_nil_of_length_eq_zero hlen
    exact ⟨m, by simp [encodeTail], rfl, ⟨fun _ _ => rfl, id⟩⟩
  have h4 : encOutLen r = 4 := by unfold encOutLen ceilDiv; omega
  rw [h4] at hdst ⊢
  have main : ∀ (b0 b1 x : Byte), load .enc size m src = .ok b0 →
      loadTailSecond size m (src + 1) r = .ok b1 → tailThird (blockAcc b0 b1 0) r = x →
      ∃ m', encodeTail size m src dst r = .ok m' ∧
        m'.readBytes? dst 4 = some (leBytes 2 (lut (highIndex (blockAcc b0 b1 0))) ++ [x, pad]) ∧
        EncFrame dst 4 m m' := by
    intro b0 b1 x l0 l1 hx
    let hi := leBytes 2 (lut (highIndex (blockAcc b0 b1 0)))
    have hhi : hi.length = 2 := by simp [hi]
    let m1 := m.writeBytes dst hi
    let m2 := m1.writeBytes (dst + 2) [x]
    let m3 := m2.writeBytes (dst + 3) [pad]
    have s1 : store .enc size m dst hi = .ok m1 := store_of_le (by omega)
    have s2 : store .enc size m1 (dst + 2) [x] = .ok m2 := store_of_le (by simp; omega)
    have s3 : store .enc size m2 (dst + 3) [pad] = .ok m3 := store_of_le (by simp; omega)
    refine ⟨m3, ?_, ?_, ⟨fun y hy => ?_, fun h =>
      Memory.wf_writeBytes _ _ (Memory.wf_writeBytes _ _ (Memory.wf_writeBytes _ _ h))⟩⟩
    · simp only [encodeTail, if_neg h0, l0, l1, bind, Except.bind, hx]
      rw [s1]
      simp only [s2, s3]
    · have r1 : m3.readBytes? dst 2 = some hi := by
        rw [Memory.readBytes?_writeBytes_of_outside _ _ _ _ _ (by omega),
          Memory.readBytes?_writeBytes_of_outside _ _ _ _ _ (by omega)]
        simpa [hhi] using Memory.readBytes?_writeBytes_same m dst hi
      have r2 : m3.readBytes? (dst + 2) 1 = some [x] := by
        rw [Memory.readBytes?_writeBytes_of_outside _ _ _ _ _ (by omega)]
        exact Memory.readBytes?_writeBytes_same m1 (dst + 2) [x]
      have r3 : m3.readBytes? (dst + 2 + 1) 1 = some [pad] :=
        Memory.readBytes?_writeBytes_same m2 (dst + 3) [pad]
      exact Memory.readBytes?_append r1 (Memory.readBytes?_append r2 r3)
    · rw [Memory.read?_writeBytes_of_outside _ _ _ _ (by simp; omega),
        Memory.read?_writeBytes_of_outside _ _ _ _ (by simp; omega),
        Memory.read?_writeBytes_of_outside _ _ _ _ (by omega)]
  rcases bs with _ | ⟨b0, _ | ⟨b1, _ | ⟨b2, rest⟩⟩⟩
  · simp at hlen; omega
  · obtain rfl : r = 1 := by simpa using hlen.symm
    have l0 : load .enc size m src = .ok b0 := load_eq_ok_iff.2 ⟨by omega, by simpa using hread 0 (by omega)⟩
    obtain ⟨m', hrun, hdata, hframe⟩ := main b0 0 pad l0 rfl rfl
    refine ⟨m', hrun, ?_, hframe⟩
    rw [hdata, base64Encode, ← leBytes_block, List.take_append_of_le_length (by simp),
      List.take_of_length_le (by simp)]
  · obtain rfl : r = 2 := by simpa using hlen.symm
    have l0 : load .enc size m src = .ok b0 := load_eq_ok_iff.2 ⟨by omega, by simpa using hread 0 (by omega)⟩
    have l1 : load .enc size m (src + 1) = .ok b1 := load_eq_ok_iff.2 ⟨by omega, by simpa using hread 1 (by omega)⟩
    obtain ⟨m', hrun, hdata, hframe⟩ := main b0 b1 _ l0 (by simpa [loadTailSecond] using l1) rfl
    refine ⟨m', hrun, ?_, hframe⟩
    have hb := leBytes_block b0 b1 0
    simp only [leBytes_lut] at hb hdata
    rw [hdata, base64Encode, tailThird, if_pos rfl, alpha_tailIndex]
    simp only [symbolsOfBytes, List.cons_append, List.nil_append, List.cons.injEq, and_true] at hb
    obtain ⟨h1, h2, -, -⟩ := hb
    rw [h1, h2]
    rfl
  · simp at hlen; omega

/-- `ENC.ENCODE` of a source that fits `MEM_MAX` (rules R59, R61, R161): the encoding is answered; the memory covers the
need; the result and the source copy lie apart inside the buffer, and every other byte is as before. -/
theorem EncUnit.encode_spec {c : Config} (hc : c.Legal) {e : EncUnit} (h : e.Inv c) {source : List Byte}
    (hfit : encNeed c source.length ≤ c.memMax) :
    ∃ e', e.encode c source = .ok (e', .ok (BitVec.ofNat 32 (encOutLen source.length)) (base64Encode source)) ∧
      e' = { e with memBytes := grownTo c e.memBytes (encNeed c source.length), buf := e'.buf } ∧ e'.Inv c ∧
      (BitVec.ofNat 32 (encOutLen source.length)).toNat = encOutLen source.length ∧
      encOutLen source.length ≤ e'.sourceOffset c source.length ∧
      e'.sourceOffset c source.length + source.length ≤ e'.bufSize c ∧
      e'.buf.readBytes? 0 (encOutLen source.length) = some (base64Encode source) ∧
      e'.buf.readBytes? (e'.sourceOffset c source.length) source.length = some source ∧
      (∀ x, encOutLen source.length ≤ x →
        ¬(e'.sourceOffset c source.length ≤ x ∧ x < e'.sourceOffset c source.length + source.length) →
        e'.buf.read? x = e.buf.read? x) := by
  obtain ⟨hg, hneed, hmono, hpage, hmax⟩ := grownTo_spec hc hfit h.mem_paged h.mem_le
  have hlegal := hc
  obtain ⟨-, -, -, hc4, hc5⟩ := hlegal
  generalize hmb : grownTo c e.memBytes (encNeed c source.length) = mb at *
  let e0 : EncUnit := { e with memBytes := mb }
  generalize hn : source.length = n at *
  have hsize : e0.bufSize c = mb.toNat - c.ovhEnc := rfl
  generalize hsz : e0.bufSize c = size at *
  have hoff : e0.sourceOffset c n = size - encSourceRoom n := by unfold EncUnit.sourceOffset; rw [hsz]
  generalize ho : e0.sourceOffset c n = off at *
  have hneed' : encOutLen n + encSourceRoom n ≤ size := by
    unfold encNeed at hneed; omega
  have hroom : n ≤ encSourceRoom n := by unfold encSourceRoom ceilDiv; omega
  have hval : (BitVec.ofNat 32 (encOutLen n)).toNat = encOutLen n := by
    rw [BitVec.toNat_ofNat, Nat.mod_eq_of_lt]
    unfold encNeed at hfit; omega
  have s0 : store .enc size e.buf off source = .ok (e.buf.writeBytes off source) := store_of_le (by omega)
  have hsrc : (e.buf.writeBytes off source).readBytes? off n = some source := by
    rw [← hn]; exact Memory.readBytes?_writeBytes_same e.buf off source
  have hout : encOutLen n = 4 * (n / 3) + encOutLen (n % 3) := by unfold encOutLen ceilDiv; omega
  have hout' : n % 3 = 0 ∧ encOutLen (n % 3) = 0 ∨ encOutLen (n % 3) = 4 := by unfold encOutLen ceilDiv; omega
  obtain ⟨m1, hr1, hd1, hf1⟩ := encodeBlocks_spec (size := size) (n / 3) (dst := 0)
    (Memory.readBytes?_take hsrc (k := 3 * (n / 3)) (by omega)) (by omega) (by omega)
  have hkeep1 : m1.readBytes? off n = some source := by
    rw [Memory.readBytes?_congr (m' := e.buf.writeBytes off source) fun i hi => hf1.unchanged _ (by omega)]
    exact hsrc
  have htail := Memory.readBytes?_drop hkeep1 (k := 3 * (n / 3)) (by omega)
  rw [show n - 3 * (n / 3) = n % 3 by omega] at htail
  obtain ⟨m2, hr2, hd2, hf2⟩ :=
    encodeTail_spec (size := size) (dst := 4 * (n / 3)) htail (by omega) (by omega) (by omega)
  have hkeep2 : m2.readBytes? off n = some source := by
    rw [Memory.readBytes?_congr (m' := m1) fun i hi => hf2.unchanged _ (by omega)]
    exact hkeep1
  have hres : m2.readBytes? 0 (encOutLen n) = some (base64Encode source) := by
    have := base64Encode_append (x := source.take (3 * (n / 3))) (n / 3) (by simp; omega) (source.drop (3 * (n / 3)))
    rw [List.take_append_drop] at this
    rw [this, hout]
    refine Memory.readBytes?_append ?_ (by simpa using hd2)
    rw [Memory.readBytes?_congr (m' := m1) fun i hi => hf2.unchanged _ (by omega)]
    exact hd1
  have hunch : ∀ x, encOutLen n ≤ x → ¬(off ≤ x ∧ x < off + n) → m2.read? x = e.buf.read? x := by
    intro x hx hnx
    rw [hf2.unchanged _ (by omega), hf1.unchanged _ (by omega), Memory.read?_writeBytes_of_outside _ _ _ _ (by omega)]
  refine ⟨{ e0 with buf := m2 }, ?_, rfl, ?_, hval, ?_, ?_, hres, ?_, ?_⟩
  · have hl : loadBytes .enc size m2 0 (encOutLen n) = .ok (base64Encode source) :=
      loadBytes_eq_ok_iff.2 ⟨.inr (by omega), hres⟩
    simp only [EncUnit.encode, hn, if_neg (Nat.not_lt.2 hfit), hmb, bind, Except.bind, pure, Except.pure]
    rw [show ({ e with memBytes := mb } : EncUnit) = e0 from rfl, hsz, ho, s0]
    simp only []
    rw [hr1]
    simp only []
    rw [hr2]
    simp only []
    rw [hl]
  · refine ⟨hpage, hmax, hf2.wf (hf1.wf (Memory.wf_writeBytes _ _ h.buf_wf)), fun a ha => ?_⟩
    have ha : size ≤ a := by rw [← hsz]; exact ha
    rw [hunch a (by omega) (by omega)]
    exact h.buf_range a (by unfold EncUnit.bufSize; omega)
  · show encOutLen n ≤ e0.sourceOffset c n
    omega
  · show e0.sourceOffset c n + n ≤ e0.bufSize c
    omega
  · show m2.readBytes? (e0.sourceOffset c n) n = some source
    rw [ho]; exact hkeep2
  · intro x hx hnx
    refine hunch x hx ?_
    have : ({ e0 with buf := m2 } : EncUnit).sourceOffset c n = off := ho
    rw [this] at hnx; exact hnx

end Sys2Proof.Machine
end

