-- ==== Sys2Proof/Laws/PerInstr.lean ====
section
/-! SUPPORT. Statements about every instruction as syntax, one lemma for each constructor. -/

namespace Sys2Proof.Laws.HeaderForm

/-- Rules R80, R83: an encoding begins with the operation code of its row, which stands for its own operation, and has 5
bytes more than the payload. -/
def Statement (i : Instr) : Prop :=
  (encode i).head? = some i.op.code ∧ Op.ofCode? i.op.code = some i.op ∧
    (encode i).length = 5 + i.payload.length

theorem of_any (i : Instr) : Statement i :=
  ⟨rfl, Op.ofCode?_code _, by simp [encode_eq]; omega⟩

theorem decNew (keepSize : Word) : Statement (.decNew keepSize) := of_any _
theorem decInit (size : Word) : Statement (.decInit size) := of_any _
theorem decPut (chunk : List Byte) : Statement (.decPut chunk) := of_any _
theorem decEnd (arg : Word) : Statement (.decEnd arg) := of_any _
theorem decData (arg : Word) : Statement (.decData arg) := of_any _
theorem decRelease (arg : Word) : Statement (.decRelease arg) := of_any _
theorem decStat (reg : Word) : Statement (.decStat reg) := of_any _
theorem encNew (keepSize : Word) : Statement (.encNew keepSize) := of_any _
theorem encEncode (source : List Byte) : Statement (.encEncode source) := of_any _
theorem encRelease (arg : Word) : Statement (.encRelease arg) := of_any _
theorem encStat (reg : Word) : Statement (.encStat reg) := of_any _

end Sys2Proof.Laws.HeaderForm
end

