-- ==== Sys2Proof/Laws/Step.lean ====
section
/-! SUPPORT. All a step can do, said once: what it did when it answered, and what it takes for it to answer. -/

namespace Sys2Proof.Machine

/-- The first byte of a stream that begins with a whole command or a reserved header is its `op`. -/
theorem front_op {bs : List Byte} :
    (∀ i rest, front bs = .command i rest → ∃ tl, bs = i.op.code :: tl) ∧
    (∀ op rest, front bs = .reservedOp op rest → ∃ tl, bs = op :: tl) := by
  unfold front decode
  rcases bs with _ | ⟨op, _ | ⟨a0, _ | ⟨a1, _ | ⟨a2, _ | ⟨a3, rest⟩⟩⟩⟩⟩ <;>
    simp only [reduceCtorEq, false_implies, implies_true, and_true]
  cases ho : Op.ofCode? op with
  | none =>
    simp only [reduceCtorEq, false_implies, implies_true, true_and]
    rintro op' rest' h
    injection h with e; subst e
    exact ⟨_, rfl⟩
  | some o =>
    have hc := Op.code_of_ofCode? ho
    by_cases hp : o.hasPayload = true
    · by_cases hl : rest.length < (leWord a0 a1 a2 a3).toNat
      · simp [hp, hl]
      · simp only [if_pos hp, if_neg hl, reduceCtorEq, false_implies, implies_true, and_true]
        intro i rest h
        injection h with e; subst e
        exact ⟨_, by rw [Instr.op_build, hc]⟩
    · simp only [if_neg hp, reduceCtorEq, false_implies, implies_true, and_true]
      intro i rest h
      injection h with e; subst e
      exact ⟨_, by rw [Instr.op_build, hc]⟩

/-- All a step can do when it answers. -/
theorem step_cases {s t : State} (h : step s = .next t) :
    (∃ p i rest, s.served = some p ∧ front (s.cmd p) = .command i rest ∧ i.port = p ∧
      exec i (s.consume p rest) = .next t) ∨
    (∃ p op rest, s.served = some p ∧ front (s.cmd p) = .reservedOp op rest ∧ portOfOp op = p ∧
      t = (s.consume p rest).raiseIllegal p) ∨
    (∃ p bs rest, s.served = none ∧ t = State.arrive p bs { s with cmdIn := rest }) ∨
    t = s := by
  unfold step State.fetch at h
  cases hs : s.served with
  | some p =>
    simp only [hs, State.takeFrom] at h
    cases hf : front (s.cmd p) with
    | command i rest =>
      by_cases hp : i.port = p
      · simp only [hf, if_pos hp] at h
        exact .inl ⟨p, i, rest, rfl, hf, hp, h⟩
      · simp only [hf, if_neg hp] at h; cases h
    | reservedOp op rest =>
      by_cases hp : portOfOp op = p
      · simp only [hf, if_pos hp] at h
        injection h with h
        exact .inr (.inl ⟨p, op, rest, rfl, hf, hp, h.symm⟩)
      · simp only [hf, if_neg hp] at h; cases h
    | incomplete =>
      simp only [hf] at h
      injection h with h
      exact .inr (.inr (.inr h.symm))
  | none =>
    simp only [hs, State.routeOne] at h
    cases hf : front s.cmdIn <;> simp only [hf] at h <;> injection h with h
    · exact .inr (.inr (.inl ⟨_, _, _, rfl, h.symm⟩))
    · exact .inr (.inr (.inl ⟨_, _, _, rfl, h.symm⟩))
    · exact .inr (.inr (.inr h.symm))

/-- When a step stops: only on a command that a fault stops, or on a header at the other unit's port. -/
theorem step_answers {s : State} (hr : ∀ p, s.Routed p)
    (he : ∀ p i rest, s.served = some p → front (s.cmd p) = .command i rest → i.port = p →
      ∃ t, exec i (s.consume p rest) = .next t) : ∃ t, step s = .next t := by
  unfold step State.fetch
  cases hs : s.served with
  | some p =>
    simp only [State.takeFrom]
    cases hf : front (s.cmd p) with
    | command i rest =>
      obtain ⟨tl, htl⟩ := front_op.1 _ _ hf
      have hp : i.port = p := hr p _ _ htl
      simp only [if_pos hp]
      exact he p i rest hs hf hp
    | reservedOp op rest =>
      obtain ⟨tl, htl⟩ := front_op.2 _ _ hf
      simp only [if_pos (hr p _ _ htl)]
      exact ⟨_, rfl⟩
    | incomplete => exact ⟨_, rfl⟩
  | none =>
    simp only [State.routeOne]
    cases front s.cmdIn <;> exact ⟨_, rfl⟩

end Sys2Proof.Machine
end

