-- ==== Sys2Proof/Tests/Slice0.lean ====
section
/-! SUPPORT. The model's own tests: a smoke test of WellFormed, words written out from rule R83, single steps whose results
come from the spec's examples and vectors (95_test_vectors.md), and for each statement with hypotheses a state and operands
that meet all of them. -/

namespace Sys2Proof.Tests

open Sys2Proof Sys2Proof.Machine

/-! ### WellFormed -/

theorem test_wellFormed_refuses_decPut_beyond_arg :
    (Instr.decPut (List.replicate (2 ^ 32) 0x41)).wellFormed = false := by
  simp only [Instr.wellFormed, payloadFits, List.length_replicate, Nat.lt_irrefl, decide_false]

theorem test_wellFormed_refuses_encEncode_beyond_arg :
    (Instr.encEncode (List.replicate (2 ^ 32) 0x41)).wellFormed = false := by
  simp only [Instr.wellFormed, payloadFits, List.length_replicate, Nat.lt_irrefl, decide_false]

theorem test_wellFormed_accepts_payload : (Instr.decPut (List.replicate 65536 0x41)).wellFormed = true := by
  simp only [Instr.wellFormed, payloadFits, List.length_replicate]
  decide

/-! ### Decoding: the words of rules R80 and R83, written out -/

theorem test_decode_decNew : decode [0x00, 0x00, 0x00, 0x01, 0x00] = .ok (.decNew 65536, []) := rfl
theorem test_decode_decInit : decode [0x01, 0x01, 0xC0, 0x00, 0x00] = .ok (.decInit 49153, []) := rfl
theorem test_decode_decPut : decode [0x02, 0x02, 0x00, 0x00, 0x00, 0x51, 0x52, 0x06] =
    .ok (.decPut [0x51, 0x52], [0x06]) := rfl
theorem test_decode_decEnd : decode [0x03, 0x00, 0x00, 0x00, 0x00] = .ok (.decEnd 0, []) := rfl
theorem test_decode_decData : decode [0x04, 0x01, 0x02, 0x03, 0x04] = .ok (.decData 0x04030201, []) := rfl
theorem test_decode_decRelease : decode [0x05, 0x00, 0x00, 0x00, 0x80] = .ok (.decRelease 0x80000000, []) := rfl
theorem test_decode_decStat : decode [0x06, 0x06, 0x00, 0x00, 0x00] = .ok (.decStat 6, []) := rfl
theorem test_decode_encNew : decode [0x08, 0xFF, 0xFF, 0xFF, 0xFF] = .ok (.encNew 0xFFFFFFFF, []) := rfl
theorem test_decode_encEncode : decode [0x09, 0x03, 0x00, 0x00, 0x00, 0x4D, 0x61, 0x6E] =
    .ok (.encEncode [0x4D, 0x61, 0x6E], []) := rfl
theorem test_decode_encRelease : decode [0x0D, 0x00, 0x00, 0x00, 0x00] = .ok (.encRelease 0, []) := rfl
theorem test_decode_encStat : decode [0x0E, 0x01, 0x00, 0x00, 0x00] = .ok (.encStat 1, []) := rfl

/-- V-X: a payload is not consumed after a reserved code. -/
theorem test_decode_reserved : decode [0x0A, 0x05, 0x00, 0x00, 0x00] = .error (.reserved 0x0A) := rfl

/-- Rule R224: the rest of a payload is missing. -/
theorem test_decode_short_payload : decode [0x02, 0x03, 0x00, 0x00, 0x00, 0x51] = .error (.shortPayload 2) := rfl

/-- The opcode table's bits: `ENC.STAT 1` as one number, and `DEC.PUT` of two zero bytes the table gives no bits. -/
theorem test_decodeTableWord_encStat : decodeTableWord 40 0x010E = some (.encStat 1) := by decide
theorem test_decodeTableWord_decPut : decodeTableWord 40 0x0202 = some (.decPut [0, 0]) := by decide
theorem test_decodeTableWord_reserved : decodeTableWord 40 0x0F = none := by decide

/-! ### A small state -/

/-- Small legal parameters: pages of 16 bytes, at most 64 of them, a bulk pass at 8 pending bytes (the `T_PUT` of V-D4). -/
def tiny : Config := { page := 16, tPut := 8, memMax := 64 }

/-- A decoder unit that has been given `text`, with 32 bytes of memory and of capacity. -/
def demoDec (keep : Word) (text : List Byte) (sp dp : Word) (ph : Phase) : DecUnit where
  keepSize := keep
  memBytes := 32
  capacity := 32
  writePos := BitVec.ofNat 32 text.length
  streamPos := sp
  decodePos := dp
  phase := ph
  buf := Memory.writeBytes [] 0 text

/-- A core with that decoder unit, an encoder unit with 32 bytes of memory, and nothing on its streams. -/
def demo (keep : Word) (text : List Byte) (sp dp : Word) (ph : Phase) : State :=
  { State.powerOn tiny with dec := demoDec keep text sp dp ph, enc := { keepSize := keep, memBytes := 32, buf := [] } }

/-- An open stream of which nothing is decoded. -/
def fresh (text : List Byte) : State := demo 32 text 0 0 .opened

/-- What a field of the next state is. -/
def after {α : Type} (o : Host.Outcome State Fault Refusal) (f : State → α) : Option α :=
  match o with
  | .next t => some (f t)
  | .fault _ => none
  | .refused _ => none

/-- "AQIDBA==", the text of scenario S1. -/
def s1Text : List Byte := [0x41, 0x51, 0x49, 0x44, 0x42, 0x41, 0x3D, 0x3D]

/-- "TWFuTWFuTWE=", the text of V-D1 and V-D4. -/
def manText : List Byte := [0x54, 0x57, 0x46, 0x75, 0x54, 0x57, 0x46, 0x75, 0x54, 0x57, 0x45, 0x3D]

/-! ### Single steps -/

/-- Rule R120: `DEC.NEW` in the middle of a stream. -/
theorem test_decNew : after (exec (.decNew 1048576) (demo 0 manText 8 6 .opened)) (fun t => t.dec) =
    some { DecUnit.reset with keepSize := 1048576 } := by decide

/-- V-I: `DEC.INIT 49153` from reset: the memory is the need rounded up to a page. -/
theorem test_decInit : after (exec (.decInit 49153) State.reset) (fun t => (t.dec.capacity, t.dec.memBytes)) =
    some (65540, 131072) := by decide

/-- V-I: the largest size needs 33 bits and is refused without a change. -/
theorem test_decInit_noMem : after (exec (.decInit 0xFFFFFFFF) (fresh s1Text)) (fun t => (t.dec, t.decRsp)) =
    some ((fresh s1Text).dec, [.fail .noMem]) := by decide

/-- V-D4, `T_PUT` = 8: with "TWFuTW" put, "FuT" makes 9 pending bytes and a pass of two groups. -/
theorem test_decPut_threshold :
    after (exec (.decPut [0x46, 0x75, 0x54]) (fresh [0x54, 0x57, 0x46, 0x75, 0x54, 0x57]))
      (fun t => (t.dec.writePos, t.dec.streamPos, t.dec.decodePos, t.dec.output?)) =
    some (9, 8, 6, some [0x4D, 0x61, 0x6E, 0x4D, 0x61, 0x6E]) := by decide

/-- V-D5, second row: "@uT" after "TWFuTW" fails at the threshold and commits nothing of the pass. -/
theorem test_decPut_invalid :
    after (exec (.decPut [0x40, 0x75, 0x54]) (fresh [0x54, 0x57, 0x46, 0x75, 0x54, 0x57]))
      (fun t => (t.dec.writePos, t.dec.streamPos, t.dec.decodePos, t.dec.phase, t.decRsp)) =
    some (9, 0, 0, .failed, [.fail .invalidSymbol]) := by decide

/-- The example of rule R126: `DEC.END` of "AQIDBA==". -/
theorem test_decEnd :
    after (exec (.decEnd 0) (fresh s1Text))
      (fun t => (t.dec.streamPos, t.dec.decodePos, t.dec.phase, t.dec.output?)) =
    some (8, 4, .closed, some [0x01, 0x02, 0x03, 0x04]) := by decide

/-- V-D2, "QUJD====": the group is committed, the tail is rejected by `D0['=']`. -/
theorem test_decEnd_invalid_tail :
    after (exec (.decEnd 0) (fresh [0x51, 0x55, 0x4A, 0x44, 0x3D, 0x3D, 0x3D, 0x3D]))
      (fun t => (t.dec.streamPos, t.dec.phase, t.dec.output?, t.decRsp)) =
    some (4, .failed, some [0x41, 0x42, 0x43], [.fail .invalidSymbol]) := by decide

/-- Rule R128: the response of `DEC.DATA`, as its bytes: status, `val` 3, then the data. -/
theorem test_decData :
    after (exec (.decData 0) (demo 0 [0x4D, 0x61, 0x6E, 0x00, 0x54] 4 3 .opened)) (fun t => t.rspBytes .dec) =
    some [0x00, 0x03, 0x00, 0x00, 0x00, 0x4D, 0x61, 0x6E] := by decide

/-- V-D7: a memory of exactly `keepSize` is kept, one byte more is freed (rule R129, strict). -/
theorem test_decRelease_keeps : after (exec (.decRelease 0) (demo 32 manText 8 6 .failed))
    (fun t => (t.dec.memBytes, t.dec.capacity, t.dec.writePos, t.dec.phase)) = some (32, 32, 0, .opened) := by decide
theorem test_decRelease_frees : after (exec (.decRelease 0) (demo 31 manText 8 6 .failed))
    (fun t => (t.dec.memBytes, t.dec.capacity, t.dec.buf)) = some (0, 0, []) := by decide

/-- Rule R130: `DEC.STAT 6` in phase CLOSED answers 1, `DEC.STAT 7` fails. -/
theorem test_decStat : after (exec (.decStat 6) (demo 0 s1Text 8 4 .closed)) (fun t => t.decRsp) = some [.ok 1 []] := by
  decide
theorem test_decStat_illegal : after (exec (.decStat 7) (fresh s1Text)) (fun t => t.decRsp) =
    some [.fail .illegal] := by decide

/-- Rule R160. -/
theorem test_encNew : after (exec (.encNew 5) (fresh s1Text)) (fun t => (t.enc.keepSize, t.enc.memBytes)) =
    some (5, 0) := by decide

/-- V-E1: 01 02 03 04 from reset, with the memory acquired; and 4D 61, a tail of two bytes. -/
theorem test_encEncode : after (exec (.encEncode [0x01, 0x02, 0x03, 0x04]) State.reset)
    (fun t => (t.enc.memBytes, t.encRsp)) = some (65536, [.ok 8 s1Text]) := by decide
theorem test_encEncode_tail : after (exec (.encEncode [0x4D, 0x61]) (fresh []))
    (fun t => t.encRsp) = some [.ok 4 [0x54, 0x57, 0x45, 0x3D]] := by decide

/-- Rule R166: strict comparison. -/
theorem test_encRelease_keeps : after (exec (.encRelease 0) (demo 32 [] 0 0 .opened)) (fun t => t.enc.memBytes) =
    some 32 := by decide
theorem test_encRelease_frees : after (exec (.encRelease 0) (demo 31 [] 0 0 .opened)) (fun t => t.enc.memBytes) =
    some 0 := by decide

/-- The example of rule R167. -/
theorem test_encStat : after (exec (.encStat 1) State.reset) (fun t => t.encRsp) = some [.ok 0 []] := by decide
theorem test_encStat_illegal : after (exec (.encStat 2) State.reset) (fun t => t.encRsp) = some [.fail .illegal] := by
  decide

/-- V-X: the reserved code 0x0A is answered at the encoder port with 01 00 00 00 00; the five bytes after its header are the
next header. -/
theorem test_step_reserved :
    after (step (State.reset.arrive .enc [0x0A, 0x05, 0, 0, 0, 0x0E, 0, 0, 0, 0]))
      (fun t => (t.rspBytes .enc, t.encCmd)) =
    some ([0x01, 0, 0, 0, 0], [0x0E, 0, 0, 0, 0]) := by decide

/-- `withFetchWord` is run by the very next step: `DEC.INIT 4` from reset. -/
theorem test_withFetchWord : after (step (State.reset.withFetchWord 40 0x0401)) (fun t => (t.dec.capacity, t.decRsp)) =
    some (8, [.ok 0 []]) := by decide

/-! ### Witnesses: states and operands that meet the hypotheses of the statements -/

/-- A demo decoder unit meets the invariant when its cursors are in order. -/
theorem demoDec_inv {keep : Word} {text : List Byte} {sp dp : Word} {ph : Phase} (hlen : text.length ≤ 32)
    (hdp : dp.toNat ≤ sp.toNat) (hsp : sp.toNat ≤ text.length)
    (hgrp : ph ≠ .closed → sp.toNat % 4 = 0 ∧ dp.toNat = 3 * sp.toNat / 4)
    (hfin : ph = .closed → sp = BitVec.ofNat 32 text.length) : (demoDec keep text sp dp ph).Inv tiny := by
  have hw : (BitVec.ofNat 32 text.length).toNat = text.length := by
    rw [BitVec.toNat_ofNat, Nat.mod_eq_of_lt (by omega)]
  refine ⟨hdp, by simpa [demoDec, hw] using hsp, by simpa [demoDec, hw] using hlen, hgrp, hfin,
    (by decide : (32 : Word).toNat % 16 = 0), (by decide : (32 : Word).toNat ≤ 64),
    fun _ => (by decide : (32 : Word).toNat + 0 ≤ (32 : Word).toNat), Memory.wf_writeBytes _ _ rfl, fun a ha => ?_, fun a ha => ?_⟩
  · have ha : 32 ≤ a := ha
    simp only [demoDec]
    rw [Memory.read?_writeBytes_of_outside _ _ _ _ (by omega)]
    rfl
  · have ha : a < (BitVec.ofNat 32 text.length).toNat := ha
    rw [hw] at ha
    have := Memory.read?_writeBytes_of_inside [] 0 a text ha
    rw [Nat.zero_add] at this
    simp only [demoDec, this]
    simp [ha]

theorem demo_inv {keep : Word} {text : List Byte} {sp dp : Word} {ph : Phase} (h : (demoDec keep text sp dp ph).Inv tiny) :
    (demo keep text sp dp ph).Inv :=
  ⟨(by decide : tiny.Legal), h,
    ⟨(by decide : (32 : Word).toNat % 16 = 0), (by decide : (32 : Word).toNat ≤ 64), rfl, fun _ _ => rfl⟩⟩

theorem fresh_inv {text : List Byte} (h : text.length ≤ 32) : (fresh text).Inv :=
  demo_inv (demoDec_inv h (by decide) (Nat.zero_le _) (fun _ => by decide) (fun h => by cases h))

/-- "TWFuTWFuTWE=" put, its first two groups decoded. -/
def mid : State := demo 32 manText 8 6 .opened

theorem mid_inv : mid.Inv :=
  demo_inv (demoDec_inv (by decide) (by decide) (by decide) (fun _ => by decide) (fun h => by cases h))

/-- "AQIDBA==" put and ended. -/
def done : State := demo 32 s1Text 8 4 .closed

theorem done_inv : done.Inv :=
  demo_inv (demoDec_inv (by decide) (by decide) (by decide) (fun h => absurd rfl h) (fun _ => by decide))

/-- A stream of two groups failed after the first was committed. -/
def broken : State := demo 32 [0x4D, 0x61, 0x6E, 0x00, 0x40, 0x40, 0x40, 0x40] 4 3 .failed

theorem broken_inv : broken.Inv :=
  demo_inv (demoDec_inv (by decide) (by decide) (by decide) (fun _ => by decide) (fun h => by cases h))

theorem reset_inv : State.reset.Inv := by
  refine ⟨by decide, ?_, ?_⟩
  · exact ⟨by decide, by decide, by decide, fun _ => by decide, fun h => (by cases h), by decide, by decide,
      fun h => absurd h (by decide), rfl, fun _ _ => rfl, fun a ha => absurd ha (Nat.not_lt_zero a)⟩
  · exact ⟨by decide, by decide, rfl, fun _ _ => rfl⟩

theorem witness_PowerOnStateIsZeroAndIdle : State.powerOn tiny = State.powerOn tiny := rfl

theorem witness_PowerOnMeetsInvariant : tiny.Legal := by decide

/-- The standard parameters, and the least and the greatest `MEM_MAX` for a page of 16 bytes. -/
theorem witness_Legal_bounds : Config.standard.Legal ∧ ({ tiny with memMax := 16 } : Config).Legal ∧
    ({ tiny with memMax := 2 ^ 32 - 16 } : Config).Legal := by decide

/-- `DEC.END` waits at the decoder port. -/
theorem witness_StepKeepsInvariant : mid.Inv ∧
    step (mid.arrive .dec [0x03, 0, 0, 0, 0]) = exec (.decEnd 0) { mid with turn := .enc } ∧
    (mid.arrive .dec [0x03, 0, 0, 0, 0]).Inv :=
  ⟨mid_inv, rfl, ⟨mid_inv.cfg, mid_inv.dec, mid_inv.enc⟩⟩

theorem witness_StepAlwaysAnswers : mid.Inv ∧ mid.Routed .dec ∧ mid.Routed .enc :=
  ⟨mid_inv, fun _ _ h => (by cases h), fun _ _ h => (by cases h)⟩

/-- The same with a command at each port. -/
theorem witness_StepAlwaysAnswers_commands :
    ((mid.arrive .dec [0x03, 0, 0, 0, 0]).arrive .enc [0x0D, 0, 0, 0, 0]).Routed .dec ∧
    ((mid.arrive .dec [0x03, 0, 0, 0, 0]).arrive .enc [0x0D, 0, 0, 0, 0]).Routed .enc := by
  constructor
  · intro op rest h
    injection h with h; subst h; decide
  · intro op rest h
    injection h with h; subst h; decide

theorem witness_Reachable : tiny.Legal ∧ Reachable tiny ((State.powerOn tiny).arrive .dec [0x03, 0, 0, 0, 0]) :=
  ⟨by decide, .arrive _ _ .powerOn⟩

/-- One step of a run: `DEC.INIT 4` from power-on. -/
theorem witness_Reachable_step : ∃ t, Reachable tiny t ∧ t.dec.capacity = 8 :=
  ⟨_, .step (.arrive .dec [0x01, 0x04, 0, 0, 0] .powerOn) (t := State.respond .dec (.ok 0 [])
    { State.powerOn tiny with turn := .enc, dec := { DecUnit.reset with capacity := 8, memBytes := 16 } }) rfl, rfl⟩

/-- 7 pending bytes are allowed when `T_PUT` is 8, and 4 always are. -/
theorem witness_StepKeepsLag : (fresh [0x54, 0x57, 0x46, 0x75, 0x54, 0x57, 0x46]).Inv ∧
    (fresh [0x54, 0x57, 0x46, 0x75, 0x54, 0x57, 0x46]).dec.Lag tiny ∧ mid.dec.Lag { tiny with tPut := 1 } :=
  ⟨fresh_inv (by decide), fun _ => .inl (by decide), fun _ => .inr (by decide)⟩

theorem witness_CanonicalBuffersAreEqual :
    Memory.wf [(0, 0x41), (7, 0x00)] = true ∧ Memory.wf [(7, 0x00), (0, 0x41)] = false := by decide

theorem witness_DecodeOfEncode : (Instr.decPut [0x41]).wellFormed = true ∧ (Instr.decEnd 0xFFFFFFFF).wellFormed = true := by
  decide

theorem witness_EncodeOfDecode : decode [0x02, 0x01, 0, 0, 0, 0x41, 0x03] = .ok (.decPut [0x41], [0x03]) := rfl

/-- The ends of every run of the alphabet. -/
theorem witness_AlphabetIsBase64 :
    alpha 0 = 0x41 ∧ alpha 25 = 0x5A ∧ alpha 26 = 0x61 ∧ alpha 51 = 0x7A ∧ alpha 52 = 0x30 ∧ alpha 61 = 0x39 ∧
    alpha 62 = 0x2B ∧ alpha 63 = 0x2F := by decide

/-- V-T1: the rows of `Z` and `z`. -/
theorem witness_DecodeTablesAtSymbols : symVal 0x5A = some 25 ∧
    (tableD0 0x5A, tableD1 0x5A, tableD2 0x5A, tableD3 0x5A) = (0x64, 0x9001, 0x400600, 0x190000) ∧
    (tableD0 0x7A, tableD1 0x7A, tableD2 0x7A, tableD3 0x7A) = (0xCC, 0x3003, 0xC00C00, 0x330000) := by decide

/-- V-T2: the neighbours of the runs are no symbols. -/
theorem witness_DecodeTablesAtOtherBytes : (∀ v, alpha v ≠ 0x40#8) ∧ (∀ v, alpha v ≠ 0x5B#8) ∧ (∀ v, alpha v ≠ 0x60#8) ∧
    (∀ v, alpha v ≠ 0x7B#8) ∧ (∀ v, alpha v ≠ 0x3A#8) ∧ (∀ v, alpha v ≠ 0x3D#8) := by decide

/-- V-T3: "TWFu" and "TW@u". -/
theorem witness_GroupWordValidatesAndDecodes :
    [0x54#8, 0x57, 0x46, 0x75].all isSymbol = true ∧ groupWord 0x54 0x57 0x46 0x75 = 0x006E614D ∧
    [0x54#8, 0x57, 0x40, 0x75].all isSymbol = false ∧ groupWord 0x54 0x57 0x40 0x75 = 0xFF2E604D := by decide

/-- V-T4. -/
theorem witness_EncodeTableWords : lut 0x010 = 0x5141 ∧ lut 0x203 = 0x4449 ∧ lut 0x03F = 0x2F41 ∧ lut 0xFC0 = 0x412F := by
  decide

/-- The need is the memory held (kept), 4 bytes more (grown), and the whole of `MEM_MAX`. -/
theorem witness_DecInitReservesCapacity : mid.Inv ∧ 4 * ((24 + 2) / 3) + tiny.ovhDec = mid.dec.memBytes.toNat ∧
    mid.dec.memBytes.toNat < 4 * ((25 + 2) / 3) + tiny.ovhDec ∧ 4 * ((48 + 2) / 3) + tiny.ovhDec = tiny.memMax :=
  ⟨mid_inv, by decide⟩

theorem witness_DecInitBeyondMemMaxFails : tiny.memMax < 4 * ((49 + 2) / 3) + tiny.ovhDec := by decide

theorem witness_PutAndEndOutsideOpenFail : done.dec.phase = .closed ∧ broken.dec.phase = .failed := by decide

/-- One byte too many. -/
theorem witness_PutBeyondCapacityFails : mid.dec.phase = .opened ∧
    mid.dec.capacity.toNat < mid.dec.writePos.toNat + (List.replicate 21 0x41#8).length := by decide

/-- 7 pending bytes, one fewer than `T_PUT`. -/
theorem witness_PutBelowThresholdAppends : mid.Inv ∧ mid.dec.phase = .opened ∧
    mid.dec.writePos.toNat + [0x41#8, 0x42, 0x43].length ≤ mid.dec.capacity.toNat ∧
    mid.dec.writePos.toNat + [0x41#8, 0x42, 0x43].length - mid.dec.streamPos.toNat < mid.cfg.tPut :=
  ⟨mid_inv, by decide⟩

/-- "TWFu" put and nothing decoded. -/
def four : State := fresh [0x54, 0x57, 0x46, 0x75]

/-- A chunk that makes exactly 8 pending bytes, as many as `T_PUT`. -/
theorem witness_PutAtThresholdDecodes : four.Inv ∧ four.dec.phase = .opened ∧
    four.dec.writePos.toNat + [0x54#8, 0x57, 0x45, 0x3D].length ≤ four.dec.capacity.toNat ∧
    four.cfg.tPut = four.dec.writePos.toNat + [0x54#8, 0x57, 0x45, 0x3D].length - four.dec.streamPos.toNat ∧
    four.dec.buf.readBytes? four.dec.streamPos.toNat four.dec.pending = some [0x54, 0x57, 0x46, 0x75] ∧
    [0x54#8, 0x57, 0x46, 0x75] = ([0x54#8, 0x57, 0x46, 0x75] ++ [0x54, 0x57, 0x45, 0x3D]).take
      (tailStart ([0x54#8, 0x57, 0x46, 0x75] ++ [0x54, 0x57, 0x45, 0x3D]).length) ∧
    [0x54#8, 0x57, 0x46, 0x75].all isSymbol = true :=
  ⟨fresh_inv (by decide), by decide⟩

/-- V-D5: "TWE=" pending and four more bytes: the pad is in a group that is not the last. -/
theorem witness_PutAtThresholdRejects : mid.Inv ∧ mid.dec.phase = .opened ∧
    mid.dec.writePos.toNat + [0x41#8, 0x41, 0x41, 0x41].length ≤ mid.dec.capacity.toNat ∧
    tiny.tPut ≤ mid.dec.writePos.toNat + [0x41#8, 0x41, 0x41, 0x41].length - mid.dec.streamPos.toNat ∧
    mid.dec.buf.readBytes? mid.dec.streamPos.toNat mid.dec.pending = some [0x54, 0x57, 0x45, 0x3D] ∧
    [0x54#8, 0x57, 0x45, 0x3D] = ([0x54#8, 0x57, 0x45, 0x3D] ++ [0x41, 0x41, 0x41, 0x41]).take (tailStart 8) ∧
    [0x54#8, 0x57, 0x45, 0x3D].all isSymbol = false :=
  ⟨mid_inv, by decide⟩

theorem witness_EndClosesValidStream : mid.Inv ∧ mid.dec.phase = .opened ∧
    mid.dec.buf.readBytes? mid.dec.streamPos.toNat mid.dec.pending = some [0x54, 0x57, 0x45, 0x3D] ∧
    base64Decode [0x54, 0x57, 0x45, 0x3D] = some [0x4D, 0x61] ∧ base64Decode [0x51, 0x52] = some [0x41] ∧
    base64Decode s1Text = some [0x01, 0x02, 0x03, 0x04] :=
  ⟨mid_inv, by decide⟩

/-- V-D2: a leading space, five bytes. -/
theorem witness_EndRejectsInvalidGroups : (fresh [0x20, 0x51, 0x55, 0x4A, 0x44]).Inv ∧
    (fresh [0x20, 0x51, 0x55, 0x4A, 0x44]).dec.phase = .opened ∧
    (fresh [0x20, 0x51, 0x55, 0x4A, 0x44]).dec.buf.readBytes? 0 5 = some [0x20, 0x51, 0x55, 0x4A, 0x44] ∧
    ([0x20#8, 0x51, 0x55, 0x4A, 0x44].take (tailStart 5)).all isSymbol = false :=
  ⟨fresh_inv (by decide), by decide⟩

/-- V-D2: "QUJD=" has a tail of 1 byte, "QUJD==" one of 2; the empty stream has none. -/
theorem witness_EndRejectsInvalidTail : (fresh [0x51, 0x55, 0x4A, 0x44, 0x3D]).Inv ∧
    (fresh [0x51, 0x55, 0x4A, 0x44, 0x3D]).dec.phase = .opened ∧
    (fresh [0x51, 0x55, 0x4A, 0x44, 0x3D]).dec.buf.readBytes? 0 5 = some [0x51, 0x55, 0x4A, 0x44, 0x3D] ∧
    [0x51#8, 0x55, 0x4A, 0x44] = [0x51#8, 0x55, 0x4A, 0x44, 0x3D].take (tailStart 5) ∧
    [0x3D#8] = [0x51#8, 0x55, 0x4A, 0x44, 0x3D].drop (tailStart 5) ∧
    [0x51#8, 0x55, 0x4A, 0x44].all isSymbol = true ∧ decodedTail [0x3D] = none ∧
    decodedTail [0x3D, 0x3D] = none ∧ decodedTail [] = none :=
  ⟨fresh_inv (by decide), by decide⟩

theorem witness_DataAnswersOutput : mid.Inv ∧ done.Inv ∧ broken.Inv := ⟨mid_inv, done_inv, broken_inv⟩

/-- Equal sizes are kept, one byte below is freed. -/
theorem witness_ReleaseKeepsOrFrees :
    (demo 32 [] 0 0 .opened).dec.memBytes.toNat ≤ (demo 32 [] 0 0 .opened).dec.keepSize.toNat ∧
    (demo 31 [] 0 0 .opened).dec.keepSize.toNat < (demo 31 [] 0 0 .opened).dec.memBytes.toNat ∧
    (demo 32 [] 0 0 .opened).enc.memBytes.toNat ≤ (demo 32 [] 0 0 .opened).enc.keepSize.toNat ∧
    (demo 31 [] 0 0 .opened).enc.keepSize.toNat < (demo 31 [] 0 0 .opened).enc.memBytes.toNat := by decide

/-- The first register number that does not exist, and the last. -/
theorem witness_StatReadsRegisters : 7 ≤ (7 : Word).toNat ∧ 7 ≤ (0xFFFFFFFF : Word).toNat ∧ 2 ≤ (2 : Word).toNat ∧
    mid.dec.phase = .opened ∧ done.dec.phase = .closed ∧ broken.dec.phase = .failed := by decide

/-- The need is the memory held (kept), 4 bytes more (grown), and the whole of `MEM_MAX`. -/
theorem witness_EncodeAnswersBase64 : mid.Inv ∧
    4 * ((12 + 2) / 3) + 4 * ((12 + 3) / 4) + tiny.ovhEnc ≤ mid.enc.memBytes.toNat ∧
    mid.enc.memBytes.toNat < 4 * ((15 + 2) / 3) + 4 * ((15 + 3) / 4) + tiny.ovhEnc ∧
    4 * ((27 + 2) / 3) + 4 * ((27 + 3) / 4) + tiny.ovhEnc = tiny.memMax :=
  ⟨mid_inv, by decide⟩

theorem witness_EncodeBufferMap : mid.Inv ∧ encNeed tiny [0x01#8, 0x02, 0x03, 0x04].length ≤ tiny.memMax ∧
    after (exec (.encEncode [0x01, 0x02, 0x03, 0x04]) mid) (fun t => t.enc.sourceOffset tiny 4) = some 28 :=
  ⟨mid_inv, by decide⟩

theorem witness_EncodeBeyondMemMaxFails : tiny.memMax < 4 * ((28 + 2) / 3) + 4 * ((28 + 3) / 4) + tiny.ovhEnc := by decide

/-- V-E3: "AQID" and "BA==" join to "AQIDBA==". -/
theorem witness_EncodedPiecesJoin : mid.Inv ∧ [0x01#8, 0x02, 0x03].length % 3 = 0 ∧
    after (exec (.encEncode [0x01, 0x02, 0x03]) mid) (fun t => t.encRsp) = some (mid.encRsp ++ [.ok 4 (s1Text.take 4)]) ∧
    after (exec (.encEncode [0x04]) mid) (fun t => t.encRsp) = some (mid.encRsp ++ [.ok 4 (s1Text.drop 4)]) ∧
    after (exec (.encEncode [0x01, 0x02, 0x03, 0x04]) mid) (fun t => t.encRsp) = some (mid.encRsp ++ [.ok 8 s1Text]) :=
  ⟨mid_inv, by decide⟩

/-- A command at the port whose turn it is; the same port with the other one waiting; a command only at the other port. -/
theorem witness_StepRunsDecodedCommand :
    (mid.arrive .dec [0x03, 0, 0, 0, 0]).served = some .dec ∧ (Instr.decEnd 0).wellFormed = true ∧
    (Instr.decEnd 0).port = .dec ∧ (mid.arrive .dec [0x03, 0, 0, 0, 0]).cmd .dec = encode (.decEnd 0) ++ [] ∧
    mid.turn = .dec ∧ (mid.arrive .enc [0x0E, 1, 0, 0, 0]).served = some .enc ∧
    (mid.arrive .enc [0x0E, 1, 0, 0, 0]).cmd .enc = encode (.encStat 1) ++ [] := by decide

theorem witness_StepRunsDecodedCommand_other :
    decode ((mid.arrive .enc [0x0E, 1, 0, 0, 0]).cmd mid.turn) = .error .shortHeader := rfl

/-- The ends of the reserved ranges: 0x07 and 0x10 at the decoder port, 0x0A and 0x0F at the encoder port. -/
theorem witness_StepAnswersReservedHeader :
    (mid.arrive .dec [0x07, 0, 0, 0, 0]).served = some .dec ∧ (mid.arrive .dec [0x10, 0, 0, 0, 0]).served = some .dec ∧
    (mid.arrive .enc [0x0A, 0, 0, 0, 0]).served = some .enc ∧ (mid.arrive .enc [0x0F, 0, 0, 0, 0]).served = some .enc ∧
    ¬((0x07#8).toNat / 16 = 0 ∧ (0x07#8).toNat / 8 % 2 = 1) ∧ ¬((0x18#8).toNat / 16 = 0 ∧ (0x18#8).toNat / 8 % 2 = 1) ∧
    (mid.arrive .dec [0x07, 0, 0, 0, 0]).cmd .dec = [0x07, 0, 0, 0, 0] ∧
    ((0x0A#8).toNat / 16 = 0 ∧ (0x0A#8).toNat / 8 % 2 = 1) ∧ ((0x0F#8).toNat / 16 = 0 ∧ (0x0F#8).toNat / 8 % 2 = 1) := by
  decide

theorem witness_StepRoutesSingleInput : (mid.arriveSingle [0x0E, 1, 0, 0, 0]).served = none ∧
    (Instr.encStat 1).wellFormed = true ∧ (mid.arriveSingle [0x0E, 1, 0, 0, 0]).cmdIn = encode (.encStat 1) ++ [] ∧
    (mid.arriveSingle [0x0F, 1, 0, 0, 0]).served = none ∧ Op.ofCode? 0x0F = none := by decide

/-- Nothing at one port, half a header at the other, and a payload one byte short at the single input. -/
theorem witness_StepWaitsForWholeCommand : decode [] = .error .shortHeader ∧ decode [0x03, 0, 0] = .error .shortHeader ∧
    decode [0x02, 0x02, 0, 0, 0, 0x41] = .error (.shortPayload 1) := ⟨rfl, rfl, rfl⟩

theorem witness_OneResponsePerCommand : tiny.Legal ∧
    after (exec (.decData 0) mid) (fun t => t.decRsp) = some [.ok 6 [0x54, 0x57, 0x46, 0x75, 0x54, 0x57]] := by decide

/-- Every row of rule R131 for `DEC.PUT` and `DEC.END`, by its response. -/
theorem witness_PhaseTransitions :
    after (exec (.decPut [0x41]) mid) (fun t => (t.decRsp, t.dec.phase)) = some ([.ok 0 []], .opened) ∧
    after (exec (.decPut (List.replicate 21 0x41)) mid) (fun t => (t.decRsp, t.dec.phase)) =
      some ([.fail .capacity], .opened) ∧
    after (exec (.decPut [0x41, 0x41, 0x41, 0x41]) mid) (fun t => (t.decRsp, t.dec.phase)) =
      some ([.fail .invalidSymbol], .failed) ∧
    after (exec (.decPut []) done) (fun t => (t.decRsp, t.dec.phase)) = some ([.fail .phase], .closed) ∧
    after (exec (.decEnd 0) mid) (fun t => (t.decRsp, t.dec.phase)) = some ([.ok 0 []], .closed) ∧
    after (exec (.decEnd 0) (fresh [0x40, 0x40])) (fun t => (t.decRsp, t.dec.phase)) =
      some ([.fail .invalidSymbol], .failed) ∧
    after (exec (.decEnd 0) (fresh [])) (fun t => (t.decRsp, t.dec.phase)) =
      some ([.fail .incompleteTrailer], .failed) ∧
    after (exec (.decEnd 0) broken) (fun t => (t.decRsp, t.dec.phase)) = some ([.fail .phase], .failed) := by decide

theorem witness_RegistersHaveOnlyTheirWriters :
    after (exec (.decEnd 0) mid) (fun t => decide (t.dec.streamPos ≠ mid.dec.streamPos)) = some true := by decide

theorem witness_MemoryGrowsOrIsFreed : (demo 31 [] 0 0 .opened).Inv ∧
    after (exec (.decRelease 0) (demo 31 [] 0 0 .opened)) (fun t => decide (t.dec.memBytes.toNat < 32)) = some true ∧
    after (exec (.encRelease 0) (demo 31 [] 0 0 .opened)) (fun t => decide (t.enc.memBytes.toNat < 32)) = some true :=
  ⟨demo_inv (demoDec_inv (by decide) (by decide) (by decide) (fun _ => by decide) (fun h => by cases h)), by decide⟩

/-- Two states that differ in the encoder unit only, and two that differ in the decoder unit only. -/
theorem witness_UnitsAreIsolated :
    mid.cfg = { mid with enc := .reset }.cfg ∧ mid.dec = { mid with enc := .reset }.dec ∧ mid.enc ≠ .reset ∧
    mid.enc = { mid with dec := .reset }.enc ∧ mid.dec ≠ .reset ∧
    after (exec (.decEnd 0) mid) (fun _ => ()) = some () := by decide

theorem witness_UnitsCommute : (Instr.decEnd 0).port = .dec ∧ (Instr.encStat 1).port = .enc ∧
    after (exec (.decEnd 0) mid) (fun t => after (exec (.encStat 1) t) (fun _ => ())) = some (some ()) := by decide

theorem witness_OtherFailuresChangeNothing :
    after (exec (.decStat 7) mid) (fun t => t.rsp (Instr.decStat 7).port) = some (mid.rsp .dec ++ [.fail .illegal]) ∧
    FailClass.illegal ≠ .invalidSymbol ∧ FailClass.illegal ≠ .incompleteTrailer := by decide

theorem witness_FailureIsSticky : broken.Inv ∧ broken.dec.phase = .failed ∧ done.Inv ∧ done.dec.phase = .closed ∧
    (∀ i ∈ [Instr.decPut [0x41], .decEnd 0, .decData 0, .decStat 9],
      i.op = .decPut ∨ i.op = .decEnd ∨ i.op = .decData ∨ i.op = .decStat) :=
  ⟨broken_inv, rfl, done_inv, rfl, by decide⟩

/-- Both sides of the policy at their boundary: `keepSize` 32 and 31 for 32 bytes, and a need of exactly 32 bytes. -/
theorem witness_MemoryPolicy : mid.Inv ∧ decNeed tiny 24 ≤ tiny.memMax ∧
    mid.dec.memBytes.toNat ≤ mid.dec.keepSize.toNat ∧ decNeed tiny 24 = mid.dec.memBytes.toNat ∧
    (demo 31 [] 0 0 .opened).dec.keepSize.toNat < (demo 31 [] 0 0 .opened).dec.memBytes.toNat :=
  ⟨mid_inv, by decide⟩

/-- Streams held in each of the three phases. -/
theorem witness_AbstractFormIsKept : (fresh s1Text).Inv ∧ (fresh s1Text).dec.Holds s1Text ∧
    broken.Inv ∧ broken.dec.Holds [0x54, 0x57, 0x46, 0x75, 0x40, 0x40, 0x40, 0x40] ∧
    (demo 0 [0x41, 0x51] 2 1 .closed).dec.Holds [0x51, 0x51] :=
  ⟨fresh_inv (by decide), ⟨rfl, show _ ∧ _ ∧ _ from ⟨rfl, rfl, rfl⟩⟩, broken_inv,
    ⟨rfl, show _ ∧ _ from ⟨rfl, rfl⟩⟩, ⟨rfl, [0x41], rfl, rfl⟩⟩

/-- "TWFuTWFuTWE=" in chunks of 3, a stream that fills its capacity; and one that is no base64. -/
theorem witness_ChunkBoundariesDoNotMatter : mid.Inv ∧ decNeed mid.cfg 9 ≤ mid.cfg.memMax ∧
    [[0x54#8, 0x57, 0x46], [0x75, 0x54, 0x57], [0x46, 0x75, 0x54], [0x57, 0x45, 0x3D]].flatten.length = capacityFor 9 ∧
    base64Decode manText = some [0x4D, 0x61, 0x6E, 0x4D, 0x61, 0x6E, 0x4D, 0x61] ∧ base64Decode [0x40, 0x41] = none :=
  ⟨mid_inv, by decide⟩

/-- Four bytes and none. -/
theorem witness_RoundTrip : mid.Inv ∧ encNeed mid.cfg 4 ≤ mid.cfg.memMax ∧ decNeed mid.cfg 4 ≤ mid.cfg.memMax ∧
    encOutLen 4 = capacityFor 4 ∧ encNeed mid.cfg 0 ≤ mid.cfg.memMax ∧ encOutLen 0 ≤ capacityFor 0 :=
  ⟨mid_inv, by decide⟩

theorem witness_UnpaddedTextDecodes : mid.Inv ∧ [0x01#8, 0x02, 0x03, 0x04] ≠ [] ∧ decNeed mid.cfg 4 ≤ mid.cfg.memMax ∧
    encOutLen 4 ≤ capacityFor 4 ∧
    [[0x41#8], [0x51, 0x49, 0x44, 0x42], [], [0x41]].flatten =
      (base64Encode [0x01, 0x02, 0x03, 0x04]).filter (fun c => c != pad) :=
  ⟨mid_inv, by decide⟩

/-- V-D6: `@` in place of the last pad; `=` at the last position where it is not allowed. -/
theorem witness_CorruptedTextIsRejected : mid.Inv ∧ decNeed mid.cfg 6 ≤ mid.cfg.memMax ∧
    encOutLen 4 ≤ capacityFor 6 ∧ 7 < encOutLen 4 ∧ isSymbol 0x40 = false ∧ (0x40#8 = pad → 7 + 2 < encOutLen 4) ∧
    [s1Text.take 7, [0x40]].flatten = (base64Encode [0x01, 0x02, 0x03, 0x04]).set 7 0x40 ∧
    isSymbol pad = false ∧ 5 + 2 < encOutLen 4 :=
  ⟨mid_inv, by decide⟩

/-- "QUJDQ", "QUJDQQ" and "QUJDQUJD": tails of 1, 2 and 4 symbols. -/
theorem witness_TailCompleteness : mid.Inv ∧ decNeed mid.cfg 6 ≤ mid.cfg.memMax ∧
    ([0x51#8, 0x55, 0x4A, 0x44] ++ [0x51, 0x55, 0x4A, 0x44]).length ≤ capacityFor 6 ∧
    [0x51#8, 0x55, 0x4A, 0x44].length % 4 = 0 ∧ [0x51#8, 0x55, 0x4A, 0x44].all isSymbol = true ∧
    [0x51#8].length = 1 ∧ 2 ≤ [0x51#8, 0x51].length ∧ [0x51#8, 0x55, 0x4A, 0x44].length ≤ 4 ∧
    [[0x51#8, 0x55, 0x4A], [0x44, 0x51]].flatten = [0x51#8, 0x55, 0x4A, 0x44] ++ [0x51] :=
  ⟨mid_inv, by decide⟩

end Sys2Proof.Tests
end

section
/-! The command a step takes off a port's stream (rules R15, R63, R80): what the decoder, the front of a stream, the
choice of the port and the step itself answer on the bytes of a whole command, and obligation O41 from these. -/

namespace Sys2Proof

/-- The decoder reads back the first command of a stream, whatever follows it (rules R80, R81). -/
theorem decode_encode_append {i : Instr} (hw : i.wellFormed = true) (rest : List Byte) :
    decode (encode i ++ rest) = .ok (i, rest) := by
  have hparts := Instr.build_parts i
  simp only [encode_eq, List.cons_append, decode, Op.ofCode?_code, leWord_of_leBytes]
  by_cases hp : i.op.hasPayload = true
  · have hlen : i.arg.toNat = i.payload.length := Instr.toNat_arg_of_hasPayload hp hw
    simp [hp, hlen, hparts]
  · have hnil : i.payload = [] := Instr.payload_eq_nil (by simpa using hp)
    rw [hnil] at hparts
    simp [hp, hnil, hparts]

namespace Machine

/-- A stream that begins with the bytes of a well-formed command has that command at its front. -/
theorem front_encode_append {i : Instr} (hw : i.wellFormed = true) (rest : List Byte) :
    front (encode i ++ rest) = .command i rest := by
  rw [front, decode_encode_append hw]

/-- A stream shorter than a header has nothing whole at its front (rule R224). -/
theorem front_of_shortHeader {bs : List Byte} (h : decode bs = .error .shortHeader) : front bs = .incomplete := by
  rw [front, h]

section
variable {s : State} {p : Port}

theorem State.ready_of_front_command {i : Instr} {rest : List Byte} (h : front (s.cmd p) = .command i rest) :
    s.ready p = true := by
  simp [State.ready, h]

theorem State.not_ready_of_front_incomplete (h : front (s.cmd p) = .incomplete) : s.ready p = false := by
  simp [State.ready, h]

theorem State.served_of_ready_turn (h : s.ready s.turn = true) : s.served = some s.turn := if_pos h

theorem State.served_of_ready_other (h : s.ready s.turn = false) (ho : s.ready s.turn.other = true) :
    s.served = some s.turn.other := by
  simp [State.served, h, ho]

/-- The step on a whole command of the served port's own unit (rules R15, R63). -/
theorem step_of_served_command {i : Instr} {rest : List Byte} (hs : s.served = some p)
    (hf : front (s.cmd p) = .command i rest) (hp : i.port = p) : step s = exec i (s.consume p rest) := by
  have htake : s.takeFrom p = .run i (s.consume p rest) := by simp [State.takeFrom, hf, hp]
  have hfetch : s.fetch = .run i (s.consume p rest) := by simp [State.fetch, hs, htake]
  rw [step, hfetch]

end

/-- Settles O41: the bytes of the command are the front of the stream, so the port with the turn is ready, or the other
one is when the first holds less than a header, and the step takes exactly those bytes. -/
theorem stepRunsDecodedCommand : Obligations.StepRunsDecodedCommand := by
  unfold Obligations.StepRunsDecodedCommand
  refine ⟨?runs, ?turnServed, ?otherServed⟩
  case runs =>
    intro s p i rest hserved hw hport hcmd
    have hfront : front (s.cmd p) = .command i rest := by rw [hcmd, front_encode_append hw]
    exact step_of_served_command hserved hfront hport
  case turnServed =>
    intro s i rest hw hcmd
    have hfront : front (s.cmd s.turn) = .command i rest := by rw [hcmd, front_encode_append hw]
    exact State.served_of_ready_turn (State.ready_of_front_command hfront)
  case otherServed =>
    intro s i rest hw hshort hcmd
    have hfront : front (s.cmd s.turn.other) = .command i rest := by rw [hcmd, front_encode_append hw]
    exact State.served_of_ready_other (State.not_ready_of_front_incomplete (front_of_shortHeader hshort))
      (State.ready_of_front_command hfront)

end Machine

end Sys2Proof
end

section
/-! What each command of a unit writes, said once for any state (rules R21, R24, R25, R31): the registers a next unit state
takes over from the old one. -/

namespace Sys2Proof.Machine

theorem bind_eq_ok_iff {ε α β : Type} {x : Except ε α} {f : α → Except ε β} {b : β} :
    (x >>= f) = .ok b ↔ ∃ a, x = .ok a ∧ f a = .ok b := by
  cases x <;> simp [bind, Except.bind]

section Decoder
variable {c : Config} {d d' : DecUnit} {r : Response}

/-- A bulk pass writes the buffer and the two cursors of the decoded part (rule R123). -/
theorem bulkDecode_frame {good : Bool} (h : bulkDecode c d = .ok (good, d')) :
    ∃ m sp dp, d' = { d with buf := m, streamPos := sp, decodePos := dp } := by
  unfold bulkDecode at h
  obtain ⟨⟨acc, o, m⟩, -, h⟩ := bind_eq_ok_iff.1 h
  dsimp only at h
  split at h <;> cases h <;> exact ⟨_, _, _, rfl⟩

/-- `DEC.PUT` writes the buffer, the three cursors and the phase (rule R122). -/
theorem DecUnit.put_frame {chunk : List Byte} (h : d.put c chunk = .ok (d', r)) :
    ∃ m wp sp dp ph, d' = { d with buf := m, writePos := wp, streamPos := sp, decodePos := dp, phase := ph } := by
  unfold DecUnit.put at h
  split at h
  · cases h; exact ⟨_, _, _, _, _, rfl⟩
  split at h
  · cases h; exact ⟨_, _, _, _, _, rfl⟩
  obtain ⟨m, -, h⟩ := bind_eq_ok_iff.1 h
  dsimp only at h
  split at h
  · obtain ⟨⟨good, d₁⟩, hbulk, h⟩ := bind_eq_ok_iff.1 h
    obtain ⟨m', sp, dp, rfl⟩ := bulkDecode_frame hbulk
    dsimp only at h
    split at h <;> cases h <;> exact ⟨_, _, _, _, _, rfl⟩
  · cases h; exact ⟨_, _, _, _, _, rfl⟩

/-- The last part of `DEC.END` writes the buffer, `streamPos`, `decodePos` and the phase (rule R126). -/
theorem DecUnit.finish_frame (h : d.finish c = .ok (d', r)) :
    ∃ m sp dp ph, d' = { d with buf := m, streamPos := sp, decodePos := dp, phase := ph } := by
  unfold DecUnit.finish at h
  split at h
  · cases h; exact ⟨_, _, _, _, rfl⟩
  obtain ⟨⟨w, dp⟩, -, h⟩ := bind_eq_ok_iff.1 h
  dsimp only at h
  split at h
  · cases h; exact ⟨_, _, _, _, rfl⟩
  · obtain ⟨m, -, h⟩ := bind_eq_ok_iff.1 h
    cases h; exact ⟨_, _, _, _, rfl⟩

/-- `DEC.END` writes the buffer, `streamPos`, `decodePos` and the phase (rule R126). -/
theorem DecUnit.close_frame (h : d.close c = .ok (d', r)) :
    ∃ m sp dp ph, d' = { d with buf := m, streamPos := sp, decodePos := dp, phase := ph } := by
  unfold DecUnit.close at h
  split at h
  · cases h; exact ⟨_, _, _, _, rfl⟩
  split at h
  · obtain ⟨⟨good, d₁⟩, hbulk, h⟩ := bind_eq_ok_iff.1 h
    obtain ⟨m, sp, dp, rfl⟩ := bulkDecode_frame hbulk
    dsimp only at h
    split at h
    · obtain ⟨_, _, _, _, rfl⟩ := DecUnit.finish_frame h
      exact ⟨_, _, _, _, rfl⟩
    · cases h; exact ⟨_, _, _, _, rfl⟩
  · exact DecUnit.finish_frame h

/-- `DEC.DATA` writes nothing (rule R128). -/
theorem DecUnit.data_frame (h : d.data c = .ok (d', r)) : d' = d := by
  obtain ⟨bytes, -, h⟩ := bind_eq_ok_iff.1 h
  cases h; rfl

/-- `DEC.STAT` writes nothing, for any register number (rule R130). -/
theorem DecUnit.stat_frame {reg : Word} (h : d.stat reg = (d', r)) : d' = d := by
  unfold DecUnit.stat at h
  split at h <;> cases h <;> rfl

/-- `DEC.INIT` that needs too much writes nothing (rule R185). -/
theorem DecUnit.init_of_gt {size : Word} (h : c.memMax < decNeed c size.toNat) :
    d.init c size = (d, .fail .noMem) := by
  unfold DecUnit.init
  rw [if_pos h]
  rfl

/-- `DEC.INIT` that fits reopens the unit with its new memory size and capacity (rule R121). -/
theorem DecUnit.init_of_le {size : Word} (h : decNeed c size.toNat ≤ c.memMax) :
    d.init c size = ({ d.reopen with
      memBytes := grownTo c d.memBytes (decNeed c size.toNat)
      capacity := BitVec.ofNat 32 (capacityFor size.toNat) }, .ok 0 []) :=
  if_neg (Nat.not_lt.2 h)

/-- `DEC.INIT` writes every register but `keepSize` (rules R24, R121). -/
theorem DecUnit.keepSize_of_init {size : Word} (h : d.init c size = (d', r)) : d'.keepSize = d.keepSize := by
  by_cases hfit : decNeed c size.toNat ≤ c.memMax
  · rw [DecUnit.init_of_le hfit] at h
    cases h; rfl
  · rw [DecUnit.init_of_gt (Nat.lt_of_not_le hfit)] at h
    cases h; rfl

@[simp] theorem DecUnit.release_keepSize : d.release.keepSize = d.keepSize := by
  unfold DecUnit.release
  split <;> rfl

end Decoder

section Encoder
variable {c : Config} {e e' : EncUnit} {r : Response}

/-- `ENC.ENCODE` writes the memory size and the buffer (rule R161). -/
theorem EncUnit.encode_frame {source : List Byte} (h : e.encode c source = .ok (e', r)) :
    ∃ mb m, e' = { e with memBytes := mb, buf := m } := by
  unfold EncUnit.encode at h
  dsimp only at h
  split at h
  · cases h; exact ⟨_, _, rfl⟩
  obtain ⟨m0, -, h⟩ := bind_eq_ok_iff.1 h
  obtain ⟨m1, -, h⟩ := bind_eq_ok_iff.1 h
  obtain ⟨m2, -, h⟩ := bind_eq_ok_iff.1 h
  obtain ⟨bytes, -, h⟩ := bind_eq_ok_iff.1 h
  cases h; exact ⟨_, _, rfl⟩

/-- `ENC.ENCODE` that needs too much writes nothing (rule R185). -/
theorem EncUnit.encode_of_gt {source : List Byte} (h : c.memMax < encNeed c source.length) :
    e.encode c source = .ok (e, .fail .noMem) := by
  rw [EncUnit.encode, if_pos h]; rfl

/-- `ENC.STAT` writes nothing, for any register number (rule R167). -/
theorem EncUnit.stat_frame {reg : Word} (h : e.stat reg = (e', r)) : e' = e := by
  unfold EncUnit.stat at h
  split at h <;> cases h <;> rfl

@[simp] theorem EncUnit.release_keepSize : e.release.keepSize = e.keepSize := by
  unfold EncUnit.release
  split <;> rfl

end Encoder

section Exec
/-! `exec` for each command: the effect on its unit, and the answer. -/
variable (v : Word) (bs : List Byte) (s : State)
theorem exec_decNew : exec (.decNew v) s = answerDec s (.ok (s.dec.renew v, .ok 0 [])) := rfl
theorem exec_decInit : exec (.decInit v) s = answerDec s (.ok (s.dec.init s.cfg v)) := rfl
theorem exec_decPut : exec (.decPut bs) s = answerDec s (s.dec.put s.cfg bs) := rfl
theorem exec_decEnd : exec (.decEnd v) s = answerDec s (s.dec.close s.cfg) := rfl
theorem exec_decData : exec (.decData v) s = answerDec s (s.dec.data s.cfg) := rfl
theorem exec_decRelease : exec (.decRelease v) s = answerDec s (.ok (s.dec.release, .ok 0 [])) := rfl
theorem exec_decStat : exec (.decStat v) s = answerDec s (.ok (s.dec.stat v)) := rfl
theorem exec_encNew : exec (.encNew v) s = answerEnc s (.ok (s.enc.renew v, .ok 0 [])) := rfl
theorem exec_encEncode : exec (.encEncode bs) s = answerEnc s (s.enc.encode s.cfg bs) := rfl
theorem exec_encRelease : exec (.encRelease v) s = answerEnc s (.ok (s.enc.release, .ok 0 [])) := rfl
theorem exec_encStat : exec (.encStat v) s = answerEnc s (.ok (s.enc.stat v)) := rfl
end Exec

end Sys2Proof.Machine
end

section
/-! The invariant of the core through every command and every step (rules R22 to R24, R30, R31, R57, R136): one lemma for
each command of a unit, then the state, the step, obligation O3 and what it says of the reachable states. -/

namespace Sys2Proof.Machine

section Decoder
variable {c : Config} {d d' : DecUnit} {r : Response}

/-- The cleared unit of `DEC.NEW` meets the invariant whatever it was before (rule R120). -/
theorem DecUnit.renew_inv (c : Config) (keepSize : Word) (d : DecUnit) : (d.renew keepSize).Inv c where
  decoded_le := Nat.le_refl _
  stream_le := Nat.le_refl _
  write_le := Nat.le_refl _
  grouped := fun _ => by simp [DecUnit.renew]
  finished := fun _ => rfl
  mem_paged := Nat.zero_mod _
  mem_le := Nat.zero_le _
  reserved := fun h => absurd h (Nat.lt_irrefl 0)
  buf_wf := rfl
  buf_range := fun _ _ => rfl
  written := fun a h => absurd h (Nat.not_lt_zero a)

/-- A unit opened at the start of a stream meets the invariant once its memory does (rules R24, R30): no cursor points into
the buffer. -/
theorem DecUnit.Inv.reopened (h : d.Inv c) {mb cap : Word} (hmono : d.memBytes.toNat ≤ mb.toNat)
    (hpage : mb.toNat % c.page = 0) (hmax : mb.toNat ≤ c.memMax) (hres : 0 < cap.toNat → cap.toNat + c.ovhDec ≤ mb.toNat) :
    DecUnit.Inv c { d.reopen with memBytes := mb, capacity := cap } where
  decoded_le := Nat.le_refl _
  stream_le := Nat.le_refl _
  write_le := Nat.zero_le _
  grouped := fun _ => by simp
  finished := fun _ => rfl
  mem_paged := hpage
  mem_le := hmax
  reserved := hres
  buf_wf := h.buf_wf
  buf_range := fun a ha => h.buf_range a (Nat.le_trans (Nat.sub_le_sub_right hmono _) ha)
  written := fun a ha => absurd ha (Nat.not_lt_zero a)

/-- A failure in a phase other than CLOSED keeps the invariant: FAILED asks of the cursors what OPEN does (rule R23). -/
theorem DecUnit.Inv.failed (h : d.Inv c) (hp : d.phase ≠ .closed) : DecUnit.Inv c { d with phase := .failed } :=
  ⟨h.decoded_le, h.stream_le, h.write_le, fun _ => h.grouped hp, fun e => (by cases e), h.mem_paged, h.mem_le, h.reserved,
    h.buf_wf, h.buf_range, h.written⟩

theorem DecUnit.Inv.init (hc : c.Legal) (h : d.Inv c) (size : Word) : (d.init c size).1.Inv c := by
  by_cases hfit : decNeed c size.toNat ≤ c.memMax
  · obtain ⟨-, hneed, hmono, hpage, hmax⟩ := grownTo_spec hc hfit h.mem_paged h.mem_le
    rw [DecUnit.init_of_le hfit]
    refine h.reopened hmono hpage hmax fun _ => ?_
    have hcap : (BitVec.ofNat 32 (capacityFor size.toNat)).toNat ≤ capacityFor size.toNat := by
      rw [BitVec.toNat_ofNat]; exact Nat.mod_le _ _
    exact Nat.le_trans (Nat.add_le_add_right hcap _) hneed
  · rw [DecUnit.init_of_gt (Nat.lt_of_not_le hfit)]; exact h

theorem DecUnit.Inv.release (h : d.Inv c) : d.release.Inv c := by
  unfold DecUnit.release
  split
  · exact DecUnit.renew_inv c d.keepSize d
  · exact h.reopened (Nat.le_refl _) h.mem_paged h.mem_le h.reserved

theorem DecUnit.Inv.put (hc : c.Legal) (h : d.Inv c) {chunk : List Byte} (hr : d.put c chunk = .ok (d', r)) :
    d'.Inv c := by
  by_cases hp : d.phase = .opened
  case neg =>
    rw [DecUnit.put, if_pos hp] at hr
    cases hr; exact h
  by_cases hcap : d.writePos.toNat + chunk.length ≤ d.capacity.toNat
  case neg =>
    rw [DecUnit.put, if_neg (not_not.2 hp), if_pos (Nat.lt_of_not_le hcap)] at hr
    cases hr; exact h
  obtain ⟨-, -, hinv⟩ := h.append hp hcap
  obtain ⟨hbelow, hat⟩ := DecUnit.put_spec hc h hp hcap rfl
  rcases Nat.lt_or_ge (DecUnit.pending _) c.tPut with hlt | hge
  · rw [hbelow hlt] at hr
    cases hr; exact hinv
  · obtain ⟨k, g, input, m', hk, hd, hlt, -, -, hframe, hgood, hbad⟩ := hat hge
    cases hall : input.all isSymbol with
    | true =>
      rw [(hgood hall).2] at hr
      cases hr
      exact (hinv.afterBulk hk hd hlt hframe (ph := d.phase) (by simp [hp])).2
    | false =>
      rw [hbad hall] at hr
      cases hr
      exact (hinv.afterBulk hk hd hlt hframe (ph := .failed) (by decide)).1

/-- The last part of `DEC.END`, with at most 4 bytes pending (rule R126). -/
theorem DecUnit.Inv.finish (h : d.Inv c) (hp : d.phase = .opened) (h4 : d.pending ≤ 4)
    (hr : d.finish c = .ok (d', r)) : d'.Inv c := by
  obtain ⟨hshort, htail⟩ := DecUnit.finish_spec h h4
  have hfailed : DecUnit.Inv c { d with phase := .failed } := h.failed (by simp [hp])
  rcases Nat.lt_or_ge d.pending 2 with h2 | h2
  · rw [hshort h2] at hr
    cases hr; exact hfailed
  · obtain ⟨tail, -, hdec⟩ := htail h2
    split at hdec
    · rw [hdec] at hr
      cases hr; exact hfailed
    · obtain ⟨hok, -, hle⟩ := hdec
      rw [hok] at hr
      cases hr; exact h.closed (Nat.le_of_lt hle)

theorem DecUnit.Inv.close (h : d.Inv c) (hr : d.close c = .ok (d', r)) : d'.Inv c := by
  by_cases hp : d.phase = .opened
  case neg =>
    rw [DecUnit.close, if_pos hp] at hr
    cases hr; exact h
  obtain ⟨hdirect, hbulk⟩ := DecUnit.close_spec h hp
  rcases Nat.lt_or_ge 4 d.pending with h4 | h4
  case inr =>
    rw [hdirect h4] at hr
    exact h.finish hp h4 hr
  case inl =>
    obtain ⟨k, g, input, m', hk, hd, hlt, hub, -, hframe, hgood, hbad⟩ := hbulk h4
    cases hall : input.all isSymbol with
    | true =>
      rw [(hgood hall).2] at hr
      have hinv := (h.afterBulk hk hd hlt hframe (ph := d.phase) (by simp [hp])).2
      refine hinv.finish hp ?_ hr
      have hw := d.writePos.isLt
      simp only [DecUnit.pending, BitVec.toNat_ofNat]
      omega
    | false =>
      rw [hbad hall] at hr
      cases hr
      exact (h.afterBulk hk hd hlt hframe (ph := .failed) (by decide)).1

end Decoder

section Encoder
variable {c : Config} {e e' : EncUnit} {r : Response}

/-- The cleared unit of `ENC.NEW` meets the invariant whatever it was before (rule R160). -/
theorem EncUnit.renew_inv (c : Config) (keepSize : Word) (e : EncUnit) : (e.renew keepSize).Inv c :=
  ⟨Nat.zero_mod _, Nat.zero_le _, rfl, fun _ _ => rfl⟩

theorem EncUnit.Inv.release (h : e.Inv c) : e.release.Inv c := by
  unfold EncUnit.release
  split
  · exact EncUnit.renew_inv c e.keepSize e
  · exact h

theorem EncUnit.Inv.encode (hc : c.Legal) (h : e.Inv c) {source : List Byte} (hr : e.encode c source = .ok (e', r)) :
    e'.Inv c := by
  by_cases hfit : encNeed c source.length ≤ c.memMax
  · obtain ⟨e₁, hrun, -, hinv, -⟩ := EncUnit.encode_spec hc h hfit
    rw [hrun] at hr
    cases hr; exact hinv
  · rw [EncUnit.encode_of_gt (Nat.lt_of_not_le hfit)] at hr
    cases hr; exact h

end Encoder

section Core
variable {s t : State}

/-- The invariant reads the parameters and the two units: streams and the turn do not matter. -/
theorem State.Inv.of_units (h : s.Inv) (hc : t.cfg = s.cfg) (hd : t.dec = s.dec) (he : t.enc = s.enc) : t.Inv :=
  ⟨hc ▸ h.cfg, hc ▸ hd ▸ h.dec, hc ▸ he ▸ h.enc⟩

theorem State.Inv.answerDec {a : Except Fault (DecUnit × Response)} (h : s.Inv)
    (hd : ∀ d r, a = .ok (d, r) → d.Inv s.cfg) (ht : answerDec s a = .next t) : t.Inv := by
  obtain ⟨d, r, ha, rfl⟩ := answerDec_eq_next_iff.1 ht
  exact ⟨h.cfg, hd d r ha, h.enc⟩

theorem State.Inv.answerEnc {a : Except Fault (EncUnit × Response)} (h : s.Inv)
    (he : ∀ e r, a = .ok (e, r) → e.Inv s.cfg) (ht : answerEnc s a = .next t) : t.Inv := by
  obtain ⟨e, r, ha, rfl⟩ := answerEnc_eq_next_iff.1 ht
  exact ⟨h.cfg, h.dec, he e r ha⟩

theorem State.Inv.answerDec_ok {x : DecUnit × Response} (h : s.Inv) (hd : x.1.Inv s.cfg)
    (ht : Machine.answerDec s (.ok x) = .next t) : t.Inv :=
  h.answerDec (fun _ _ hx => by cases hx; exact hd) ht

theorem State.Inv.answerEnc_ok {x : EncUnit × Response} (h : s.Inv) (he : x.1.Inv s.cfg)
    (ht : Machine.answerEnc s (.ok x) = .next t) : t.Inv :=
  h.answerEnc (fun _ _ hx => by cases hx; exact he) ht

/-- Every command keeps the invariant (rule R136). -/
theorem State.Inv.exec {i : Instr} (h : s.Inv) (ht : exec i s = .next t) : t.Inv := by
  cases i with
  | decNew keepSize => rw [exec_decNew] at ht; exact h.answerDec_ok (DecUnit.renew_inv s.cfg keepSize s.dec) ht
  | decInit size => rw [exec_decInit] at ht; exact h.answerDec_ok (h.dec.init h.cfg size) ht
  | decPut chunk => rw [exec_decPut] at ht; exact h.answerDec (fun _ _ => h.dec.put h.cfg) ht
  | decEnd arg => rw [exec_decEnd] at ht; exact h.answerDec (fun _ _ => h.dec.close) ht
  | decData arg => rw [exec_decData] at ht; exact h.answerDec (fun _ _ ha => DecUnit.data_frame ha ▸ h.dec) ht
  | decRelease arg => rw [exec_decRelease] at ht; exact h.answerDec_ok h.dec.release ht
  | decStat reg => rw [exec_decStat] at ht; exact h.answerDec (fun _ _ ha => DecUnit.stat_frame (Except.ok.inj ha) ▸ h.dec) ht
  | encNew keepSize => rw [exec_encNew] at ht; exact h.answerEnc_ok (EncUnit.renew_inv s.cfg keepSize s.enc) ht
  | encEncode source => rw [exec_encEncode] at ht; exact h.answerEnc (fun _ _ => h.enc.encode h.cfg) ht
  | encRelease arg => rw [exec_encRelease] at ht; exact h.answerEnc_ok h.enc.release ht
  | encStat reg => rw [exec_encStat] at ht; exact h.answerEnc (fun _ _ ha => EncUnit.stat_frame (Except.ok.inj ha) ▸ h.enc) ht

theorem State.Inv.step (h : s.Inv) (ht : step s = .next t) : t.Inv := by
  obtain ⟨p, i, rest, -, -, -, hexec⟩ | ⟨p, op, rest, -, -, -, rfl⟩ | ⟨p, bs, rest, -, rfl⟩ | rfl := step_cases ht
  · have hconsumed : (s.consume p rest).Inv :=
      h.of_units (State.consume_cfg ..) (State.consume_dec ..) (State.consume_enc ..)
    exact hconsumed.exec hexec
  · exact h.of_units (by simp [State.raiseIllegal]) (by simp [State.raiseIllegal]) (by simp [State.raiseIllegal])
  · exact h.of_units (State.arrive_cfg ..) (State.arrive_dec ..) (State.arrive_enc ..)
  · exact h

end Core

/-- Settles O3: a step takes a command off a stream and runs it, answers a reserved header, routes, or waits; only the
first touches a unit, and each command keeps the invariant of its unit. -/
theorem stepKeepsInvariant : Obligations.StepKeepsInvariant := by
  unfold Obligations.StepKeepsInvariant
  intro s t hinv hstep
  exact hinv.step hstep

end Sys2Proof.Machine
end

section
/-! What every command leaves alone (rules R20, R21, R24, R25, R31, R65, R192): the other unit, the registers its rule does
not name, the parameters; and how memory sizes move. -/

namespace Sys2Proof.Machine

/-- The effect of a command is a function of the parameters and of the unit of its port alone (rules R20, R65). -/
theorem exec_reads_own_unit (i : Instr) :
    (i.port = .dec ∧ ∃ f : Config → DecUnit → Except Fault (DecUnit × Response),
      ∀ s, exec i s = answerDec s (f s.cfg s.dec)) ∨
    (i.port = .enc ∧ ∃ f : Config → EncUnit → Except Fault (EncUnit × Response),
      ∀ s, exec i s = answerEnc s (f s.cfg s.enc)) := by
  cases i with
  | decNew keepSize => exact .inl ⟨by simp, fun _ d => .ok (d.renew keepSize, .ok 0 []), exec_decNew keepSize⟩
  | decInit size => exact .inl ⟨by simp, fun c d => .ok (d.init c size), exec_decInit size⟩
  | decPut chunk => exact .inl ⟨by simp, fun c d => d.put c chunk, exec_decPut chunk⟩
  | decEnd arg => exact .inl ⟨by simp, fun c d => d.close c, exec_decEnd arg⟩
  | decData arg => exact .inl ⟨by simp, fun c d => d.data c, exec_decData arg⟩
  | decRelease arg => exact .inl ⟨by simp, fun _ d => .ok (d.release, .ok 0 []), exec_decRelease arg⟩
  | decStat reg => exact .inl ⟨by simp, fun _ d => .ok (d.stat reg), exec_decStat reg⟩
  | encNew keepSize => exact .inr ⟨by simp, fun _ e => .ok (e.renew keepSize, .ok 0 []), exec_encNew keepSize⟩
  | encEncode source => exact .inr ⟨by simp, fun c e => e.encode c source, exec_encEncode source⟩
  | encRelease arg => exact .inr ⟨by simp, fun _ e => .ok (e.release, .ok 0 []), exec_encRelease arg⟩
  | encStat reg => exact .inr ⟨by simp, fun _ e => .ok (e.stat reg), exec_encStat reg⟩

/-- No command writes a build parameter (rule R33). -/
theorem exec_cfg {i : Instr} {s t : State} (h : exec i s = .next t) : t.cfg = s.cfg := by
  rcases exec_reads_own_unit i with ⟨-, f, hf⟩ | ⟨-, f, hf⟩
  · obtain ⟨d, r, -, rfl⟩ := answerDec_eq_next_iff.1 ((hf s).symm.trans h)
    rfl
  · obtain ⟨e, r, -, rfl⟩ := answerEnc_eq_next_iff.1 ((hf s).symm.trans h)
    rfl

/-- No step writes a build parameter (rule R33). -/
theorem step_cfg {s t : State} (h : step s = .next t) : t.cfg = s.cfg := by
  obtain ⟨p, i, rest, -, -, -, hexec⟩ | ⟨p, op, rest, -, -, -, rfl⟩ | ⟨p, bs, rest, -, rfl⟩ | rfl := step_cases h
  · exact (exec_cfg hexec).trans (State.consume_cfg ..)
  · simp [State.raiseIllegal]
  · exact State.arrive_cfg ..
  · rfl

/-- Settles O49: both states give the command's function of its unit the same arguments, so both get its new unit state and
its response. -/
theorem unitsAreIsolated : Obligations.UnitsAreIsolated := by
  unfold Obligations.UnitsAreIsolated
  intro i s s' t hcfg hdec henc h
  rcases exec_reads_own_unit i with ⟨hp, f, hf⟩ | ⟨hp, f, hf⟩
  · rw [hf] at h
    obtain ⟨d, r, hd, rfl⟩ := answerDec_eq_next_iff.1 h
    refine ⟨State.respond .dec r { s' with dec := d }, r, ?_, fun _ => ⟨rfl, rfl⟩, fun he => by simp [hp] at he⟩
    have hd' : f s'.cfg s'.dec = .ok (d, r) := by rw [← hcfg, ← hdec hp, hd]
    rw [hf, hd', answerDec_ok]
  · rw [hf] at h
    obtain ⟨e, r, he, rfl⟩ := answerEnc_eq_next_iff.1 h
    refine ⟨State.respond .enc r { s' with enc := e }, r, ?_, fun hd => by simp [hp] at hd, fun _ => ⟨rfl, rfl⟩⟩
    have he' : f s'.cfg s'.enc = .ok (e, r) := by rw [← hcfg, ← henc hp, he]
    rw [hf, he', answerEnc_ok]

/-- Settles O47: a command answers through its own unit, and the frame of each command names the registers it writes. -/
theorem registersHaveOnlyTheirWriters : Obligations.RegistersHaveOnlyTheirWriters := by
  unfold Obligations.RegistersHaveOnlyTheirWriters
  intro i s t h
  cases i with
  | decNew keepSize =>
    rw [exec_decNew] at h
    obtain ⟨d, r, -, rfl⟩ := answerDec_eq_next_iff.1 h
    simp [Instr.op]
  | decInit size =>
    rw [exec_decInit] at h
    obtain ⟨d, r, hd, rfl⟩ := answerDec_eq_next_iff.1 h
    have hkeep := DecUnit.keepSize_of_init (Except.ok.inj hd)
    simp [Instr.op, hkeep]
  | decPut chunk =>
    rw [exec_decPut] at h
    obtain ⟨d, r, hd, rfl⟩ := answerDec_eq_next_iff.1 h
    obtain ⟨m, wp, sp, dp, ph, rfl⟩ := DecUnit.put_frame hd
    simp [Instr.op]
  | decEnd arg =>
    rw [exec_decEnd] at h
    obtain ⟨d, r, hd, rfl⟩ := answerDec_eq_next_iff.1 h
    obtain ⟨m, sp, dp, ph, rfl⟩ := DecUnit.close_frame hd
    simp [Instr.op]
  | decData arg =>
    rw [exec_decData] at h
    obtain ⟨d, r, hd, rfl⟩ := answerDec_eq_next_iff.1 h
    obtain rfl := DecUnit.data_frame hd
    simp
  | decRelease arg =>
    rw [exec_decRelease] at h
    obtain ⟨d, r, hd, rfl⟩ := answerDec_eq_next_iff.1 h
    cases hd
    simp [Instr.op]
  | decStat reg =>
    rw [exec_decStat] at h
    obtain ⟨d, r, hd, rfl⟩ := answerDec_eq_next_iff.1 h
    obtain rfl := DecUnit.stat_frame (Except.ok.inj hd)
    simp
  | encNew keepSize =>
    rw [exec_encNew] at h
    obtain ⟨e, r, -, rfl⟩ := answerEnc_eq_next_iff.1 h
    simp [Instr.op]
  | encEncode source =>
    rw [exec_encEncode] at h
    obtain ⟨e, r, he, rfl⟩ := answerEnc_eq_next_iff.1 h
    obtain ⟨mb, m, rfl⟩ := EncUnit.encode_frame he
    simp [Instr.op]
  | encRelease arg =>
    rw [exec_encRelease] at h
    obtain ⟨e, r, he, rfl⟩ := answerEnc_eq_next_iff.1 h
    cases he
    simp [Instr.op]
  | encStat reg =>
    rw [exec_encStat] at h
    obtain ⟨e, r, he, rfl⟩ := answerEnc_eq_next_iff.1 h
    obtain rfl := EncUnit.stat_frame (Except.ok.inj he)
    simp

section Memory
variable {c : Config} {i : Instr} {s t : State}

/-- `DEC.RELEASE` keeps the memory or frees all of it (rule R129). -/
theorem DecUnit.release_memBytes (d : DecUnit) : d.release.memBytes = d.memBytes ∨ d.release.memBytes = 0 := by
  unfold DecUnit.release
  split
  · exact .inr rfl
  · exact .inl rfl

/-- `ENC.RELEASE` keeps the memory or frees all of it (rule R166). -/
theorem EncUnit.release_memBytes (e : EncUnit) : e.release.memBytes = e.memBytes ∨ e.release.memBytes = 0 := by
  unfold EncUnit.release
  split
  · exact .inr rfl
  · exact .inl rfl

/-- `DEC.INIT` never shrinks the memory (rule R121). -/
theorem DecUnit.Inv.memBytes_le_init {d : DecUnit} (hc : c.Legal) (h : d.Inv c) (size : Word) :
    d.memBytes.toNat ≤ (d.init c size).1.memBytes.toNat := by
  by_cases hfit : decNeed c size.toNat ≤ c.memMax
  · obtain ⟨-, -, hmono, -, -⟩ := grownTo_spec hc hfit h.mem_paged h.mem_le
    rw [DecUnit.init_of_le hfit]
    exact hmono
  · rw [DecUnit.init_of_gt (Nat.lt_of_not_le hfit)]

/-- `ENC.ENCODE` never shrinks the memory (rule R161). -/
theorem EncUnit.Inv.memBytes_le_encode {e e' : EncUnit} {r : Response} {source : List Byte} (hc : c.Legal) (h : e.Inv c)
    (hr : e.encode c source = .ok (e', r)) : e.memBytes.toNat ≤ e'.memBytes.toNat := by
  by_cases hfit : encNeed c source.length ≤ c.memMax
  · obtain ⟨-, -, hmono, -, -⟩ := grownTo_spec hc hfit h.mem_paged h.mem_le
    obtain ⟨e₁, hrun, he₁, -⟩ := EncUnit.encode_spec hc h hfit
    rw [hrun] at hr
    cases hr
    rw [he₁]
    exact hmono
  · rw [EncUnit.encode_of_gt (Nat.lt_of_not_le hfit)] at hr
    cases hr
    exact Nat.le_refl _

/-- The decoder's memory shrinks only to 0, by `DEC.RELEASE` or `DEC.NEW` (rule R24): of the three commands that write its
size, `DEC.INIT` only lets it grow. -/
theorem exec_shrinks_decMemory (hs : s.Inv) (h : exec i s = .next t) (hlt : t.dec.memBytes.toNat < s.dec.memBytes.toNat) :
    t.dec.memBytes = 0 ∧ (i.op = .decRelease ∨ i.op = .decNew) := by
  have hne : t.dec.memBytes ≠ s.dec.memBytes := fun e => absurd hlt (e ▸ Nat.lt_irrefl _)
  obtain ⟨-, -, hwriters, -⟩ := registersHaveOnlyTheirWriters i s t h
  have hop := hwriters hne
  cases i with
  | decNew keepSize =>
    rw [exec_decNew] at h
    cases h
    exact ⟨rfl, .inr rfl⟩
  | decInit size =>
    rw [exec_decInit] at h
    obtain ⟨d, r, hd, rfl⟩ := answerDec_eq_next_iff.1 h
    have hgrows := hs.dec.memBytes_le_init hs.cfg size
    rw [Except.ok.inj hd] at hgrows
    exact absurd hlt (Nat.not_lt.2 hgrows)
  | decRelease arg =>
    rw [exec_decRelease] at h
    cases h
    exact ⟨(DecUnit.release_memBytes s.dec).resolve_left hne, .inl rfl⟩
  | _ => simp [Instr.op] at hop

/-- The encoder's memory shrinks only to 0, by `ENC.RELEASE` or `ENC.NEW` (rule R31). -/
theorem exec_shrinks_encMemory (hs : s.Inv) (h : exec i s = .next t) (hlt : t.enc.memBytes.toNat < s.enc.memBytes.toNat) :
    t.enc.memBytes = 0 ∧ (i.op = .encRelease ∨ i.op = .encNew) := by
  have hne : t.enc.memBytes ≠ s.enc.memBytes := fun e => absurd hlt (e ▸ Nat.lt_irrefl _)
  obtain ⟨-, -, -, -, -, -, -, -, -, hwriters⟩ := registersHaveOnlyTheirWriters i s t h
  have hop := hwriters hne
  cases i with
  | encNew keepSize =>
    rw [exec_encNew] at h
    cases h
    exact ⟨rfl, .inr rfl⟩
  | encEncode source =>
    rw [exec_encEncode] at h
    obtain ⟨e, r, he, rfl⟩ := answerEnc_eq_next_iff.1 h
    exact absurd hlt (Nat.not_lt.2 (hs.enc.memBytes_le_encode hs.cfg he))
  | encRelease arg =>
    rw [exec_encRelease] at h
    cases h
    exact ⟨(EncUnit.release_memBytes s.enc).resolve_left hne, .inl rfl⟩
  | _ => simp [Instr.op] at hop

end Memory

/-- Settles O48, unit by unit. -/
theorem memoryGrowsOrIsFreed : Obligations.MemoryGrowsOrIsFreed := by
  unfold Obligations.MemoryGrowsOrIsFreed
  intro i s t hs h
  exact ⟨exec_shrinks_decMemory hs h, exec_shrinks_encMemory hs h⟩

end Sys2Proof.Machine
end

section
/-! Power-on and the states reached from it (rules R22 to R24, R27, R31, R34, R57, R210): the invariant and the parameters
hold of every reachable state by induction over the run, and with them the obligations about reachable states. -/

namespace Sys2Proof

open Machine

/-- Power-on meets the invariant: both units are the cleared ones of `NEW` (rules R34, R136). -/
theorem Machine.State.powerOn_inv {c : Config} (hc : c.Legal) : (State.powerOn c).Inv :=
  ⟨hc, DecUnit.renew_inv c 0 .reset, EncUnit.renew_inv c 0 .reset⟩

/-- Settles O1: with nothing on any stream no port is ready and the router has nothing to move, so the step is idle. -/
theorem powerOnStateIsZeroAndIdle : Obligations.PowerOnStateIsZeroAndIdle := by
  unfold Obligations.PowerOnStateIsZeroAndIdle
  rintro c s rfl
  have hdec : (State.powerOn c).dec.bufSize c = 0 := Nat.zero_sub _
  have henc : (State.powerOn c).enc.bufSize c = 0 := Nat.zero_sub _
  have hidle : step (State.powerOn c) = .next (State.powerOn c) := rfl
  exact ⟨rfl, rfl, rfl, rfl, rfl, rfl, rfl, rfl, rfl, hdec, rfl, rfl, rfl, henc, rfl, rfl, rfl, rfl, rfl, hidle⟩

section Reachable
variable {c : Config} {s : State}

/-- A run never changes its build parameters (rule R33). -/
theorem Reachable.cfg_eq (h : Reachable c s) : s.cfg = c := by
  induction h with
  | powerOn => rfl
  | step _ hstep ih => exact (step_cfg hstep).trans ih
  | arrive p bs _ ih => exact (State.arrive_cfg p bs _).trans ih
  | arriveSingle bs _ ih => exact ih

/-- Every reachable state meets the invariant (rule R136). -/
theorem Reachable.inv (hc : c.Legal) (h : Reachable c s) : s.Inv := by
  induction h with
  | powerOn => exact State.powerOn_inv hc
  | step _ hstep ih => exact ih.step hstep
  | arrive p bs _ ih => exact ih.of_units (State.arrive_cfg ..) (State.arrive_dec ..) (State.arrive_enc ..)
  | arriveSingle bs _ ih => exact ih.of_units rfl rfl rfl

theorem Reachable.decInv (hc : c.Legal) (h : Reachable c s) : s.dec.Inv c := h.cfg_eq ▸ (h.inv hc).dec

theorem Reachable.encInv (hc : c.Legal) (h : Reachable c s) : s.enc.Inv c := h.cfg_eq ▸ (h.inv hc).enc

end Reachable

/-- A cursor stays inside the memory: what is written lies in the reserved capacity, which is held (rules R22, R24). -/
theorem Machine.DecUnit.Inv.stream_le_memMax {c : Config} {d : DecUnit} (h : d.Inv c) : d.streamPos.toNat ≤ c.memMax := by
  have hstream := h.stream_le
  have hwrite := h.write_le
  have hreserved := h.reserved
  have hmem := h.mem_le
  omega

/-- Settles O5: the ordering is part of the invariant. -/
theorem reachableCursorsAreOrdered : Obligations.ReachableCursorsAreOrdered := by
  unfold Obligations.ReachableCursorsAreOrdered
  intro c s hc hreach
  have hinv := hreach.decInv hc
  exact ⟨hinv.decoded_le, hinv.stream_le, hinv.write_le⟩

/-- Settles O6: all but the last two parts are the invariant of the two units; a cursor is below `MEM_MAX`, which legal
parameters keep below `2 ^ 32`. -/
theorem reachableGroupsAndMemorySizes : Obligations.ReachableGroupsAndMemorySizes := by
  unfold Obligations.ReachableGroupsAndMemorySizes
  intro c s hc hreach
  have hdec := hreach.decInv hc
  have henc := hreach.encInv hc
  have hgrouped : s.dec.phase = .opened ∨ s.dec.phase = .failed → s.dec.phase ≠ .closed := by
    rintro (hp | hp) <;> simp [hp]
  have hmax : c.memMax < 2 ^ 32 := by
    obtain ⟨hpage, -, -, -, hfits⟩ := hc
    omega
  exact ⟨fun hp => hdec.grouped (hgrouped hp), hdec.finished, hdec.mem_paged, hdec.mem_le, henc.mem_paged, henc.mem_le,
    hdec.reserved, hdec.stream_le_memMax, hmax⟩

end Sys2Proof
end

section
/-! The buffers and the block words: a canonical buffer is determined by its bytes (rule R50), the table words of a 3-byte
block are its four symbols (rule R101), the output region is answered as it stands (rule R128), the encoder's buffer follows
its map (rules R59, R61), and the commands of different units commute (rule R65). -/

namespace Sys2Proof.Machine

namespace Memory

/-- A canonical buffer holds something at its first listed offset and nothing below it (log entry 2): of two buffers with
the same bytes neither begins before the other. -/
theorem head_le_of_read?_eq {k k' : Nat} {v v' : Byte} {m m' : Memory} (hm' : Memory.risingFrom (k' + 1) m' = true)
    (h : Memory.read? ((k, v) :: m) k = Memory.read? ((k', v') :: m') k) : k' ≤ k := by
  by_contra hlt
  have hnone : Memory.read? m' k = none := read?_eq_none_of_risingFrom hm' (by omega)
  have hne : k ≠ k' := by omega
  simp [Memory.read?, hne, hnone] at h

/-- Buffers with rising offsets and the same bytes are equal. -/
theorem eq_of_risingFrom {lo lo' : Nat} {m m' : Memory} (hm : m.risingFrom lo = true) (hm' : m'.risingFrom lo' = true)
    (h : ∀ a, m.read? a = m'.read? a) : m = m' := by
  induction m generalizing lo lo' m' with
  | nil =>
    cases m' with
    | nil => rfl
    | cons c' m' => simpa [Memory.read?] using h c'.1
  | cons c m ih =>
    obtain ⟨k, v⟩ := c
    cases m' with
    | nil => simpa [Memory.read?] using h k
    | cons c' m' =>
      obtain ⟨k', v'⟩ := c'
      simp only [Memory.risingFrom, Bool.and_eq_true, decide_eq_true_eq] at hm hm'
      obtain ⟨-, hrise⟩ := hm
      obtain ⟨-, hrise'⟩ := hm'
      obtain rfl : k = k' := Nat.le_antisymm (head_le_of_read?_eq hrise (h k').symm) (head_le_of_read?_eq hrise' (h k))
      obtain rfl : v = v' := by simpa [Memory.read?] using h k
      have htail : ∀ a, Memory.read? m a = Memory.read? m' a := fun a => by
        by_cases ha : a = k
        · rw [read?_eq_none_of_risingFrom hrise (by omega), read?_eq_none_of_risingFrom hrise' (by omega)]
        · simpa [Memory.read?, ha] using h a
      rw [ih hrise hrise' htail]

end Memory

/-- Settles O8: both buffers list their offsets in rising order, so entry by entry they agree. -/
theorem canonicalBuffersAreEqual : Obligations.CanonicalBuffersAreEqual := by
  unfold Obligations.CanonicalBuffersAreEqual
  intro m m' hm hm' h
  exact Memory.eq_of_risingFrom hm hm' h

/-- The accumulator of a block has its first byte in the highest place (rules R101, R165). -/
theorem toNat_blockAcc (b0 b1 b2 : Byte) :
    (blockAcc b0 b1 b2).toNat = b0.toNat * 65536 + b1.toNat * 256 + b2.toNat := by
  have h1 := b1.isLt
  have h2 := b2.isLt
  rw [blockAcc, BitVec.toNat_append, BitVec.toNat_append, ← Nat.shiftLeft_add_eq_or_of_lt h2,
    ← Nat.shiftLeft_add_eq_or_of_lt h1, Nat.shiftLeft_eq, Nat.shiftLeft_eq]
  omega

/-- Settles O19: the value of the accumulator, and the law of the table words of a block. -/
theorem blockWordsAreFourSymbols : Obligations.BlockWordsAreFourSymbols := by
  unfold Obligations.BlockWordsAreFourSymbols
  intro b0 b1 b2
  exact ⟨toNat_blockAcc b0 b1 b2, leBytes_block b0 b1 b2⟩

/-- `DEC.DATA` reads the whole output region: it is written, being below `writePos`, and inside the buffer (rules R22, R57,
R128). -/
theorem DecUnit.Inv.data_eq {c : Config} {d : DecUnit} (h : d.Inv c) :
    ∃ bytes, d.output? = some bytes ∧ d.data c = .ok (d, .ok d.decodePos bytes) := by
  have hle : d.decodePos.toNat ≤ d.writePos.toNat := Nat.le_trans h.decoded_le h.stream_le
  have hsize := h.write_le_bufSize
  obtain ⟨bytes, hread⟩ := h.exists_readBytes (a := 0) (n := d.decodePos.toNat) (by omega)
  have hload : loadBytes .dec (d.bufSize c) d.buf 0 d.decodePos.toNat = .ok bytes :=
    loadBytes_eq_ok_iff.2 ⟨.inr (by omega), hread⟩
  exact ⟨bytes, hread, by rw [DecUnit.data, hload]; rfl⟩

/-- Settles O31: the phase plays no part, only the order of the cursors does. -/
theorem dataAnswersOutput : Obligations.DataAnswersOutput := by
  unfold Obligations.DataAnswersOutput
  intro a s hs
  obtain ⟨bytes, hout, hdata⟩ := hs.dec.data_eq
  have hlen : bytes.length = s.dec.decodePos.toNat := (Memory.readBytes?_eq_some_iff.1 hout).1
  exact ⟨bytes, hout, hlen, by rw [exec_decData, hdata, answerDec_ok]⟩

/-- Settles O36: the map is what the specification of the unit's `encode` says, the result being as long as `encOutLen`. -/
theorem encodeBufferMap : Obligations.EncodeBufferMap := by
  unfold Obligations.EncodeBufferMap
  intro source s t hs hfit h
  obtain ⟨e, hrun, -, -, -, hapart, hinside, hresult, hcopy, hframe⟩ := EncUnit.encode_spec hs.cfg hs.enc hfit
  rw [exec_encEncode, hrun, answerEnc_ok] at h
  cases h
  rw [length_base64Encode]
  exact ⟨hapart, hinside, hresult, hcopy, hframe⟩

/-- Settles O50: each command computes its answer from the parameters and its own unit, which the other one leaves alone. -/
theorem unitsCommute : Obligations.UnitsCommute := by
  unfold Obligations.UnitsCommute
  intro i j s t u hi hj ht hu
  obtain ⟨-, f, hf⟩ := (exec_reads_own_unit i).resolve_right fun h => by simp [hi] at h
  obtain ⟨-, g, hg⟩ := (exec_reads_own_unit j).resolve_left fun h => by simp [hj] at h
  rw [hf] at ht
  obtain ⟨d, r, hd, rfl⟩ := answerDec_eq_next_iff.1 ht
  rw [hg] at hu
  obtain ⟨e, q, he, rfl⟩ := answerEnc_eq_next_iff.1 hu
  have hfirst : exec j s = .next (State.respond .enc q { s with enc := e }) :=
    (hg s).trans (answerEnc_eq_next_iff.2 ⟨e, q, he, rfl⟩)
  exact ⟨_, hfirst, (hf _).trans (answerDec_eq_next_iff.2 ⟨d, r, hd, rfl⟩)⟩

end Sys2Proof.Machine
end

section
/-! Totality (rule R57): from the invariant no command of a unit meets a fault, so every step answers. -/

namespace Sys2Proof.Machine

section Decoder
variable {c : Config} {d : DecUnit}

/-- `DEC.PUT` stays inside the buffer and reads written bytes only (rules R57, R122). -/
theorem DecUnit.Inv.put_answers (hc : c.Legal) (h : d.Inv c) (chunk : List Byte) : ∃ x, d.put c chunk = .ok x := by
  by_cases hp : d.phase = .opened
  case neg => exact ⟨_, if_pos hp⟩
  by_cases hcap : d.writePos.toNat + chunk.length ≤ d.capacity.toNat
  case neg => exact ⟨_, by rw [DecUnit.put, if_neg (not_not.2 hp), if_pos (Nat.lt_of_not_le hcap)]⟩
  obtain ⟨hbelow, hat⟩ := DecUnit.put_spec hc h hp hcap rfl
  rcases Nat.lt_or_ge (DecUnit.pending _) c.tPut with hlt | hge
  · exact ⟨_, hbelow hlt⟩
  · obtain ⟨k, g, input, m', -, -, -, -, -, -, hgood, hbad⟩ := hat hge
    cases hall : input.all isSymbol with
    | true => exact ⟨_, (hgood hall).2⟩
    | false => exact ⟨_, hbad hall⟩

/-- The last part of `DEC.END`, with at most 4 bytes pending (rules R57, R126). -/
theorem DecUnit.Inv.finish_answers (h : d.Inv c) (h4 : d.pending ≤ 4) : ∃ x, d.finish c = .ok x := by
  obtain ⟨hshort, htail⟩ := DecUnit.finish_spec h h4
  rcases Nat.lt_or_ge d.pending 2 with h2 | h2
  · exact ⟨_, hshort h2⟩
  · obtain ⟨tail, -, hdec⟩ := htail h2
    split at hdec
    · exact ⟨_, hdec⟩
    · obtain ⟨hok, -⟩ := hdec
      exact ⟨_, hok⟩

/-- `DEC.END` (rules R57, R126): a good bulk step leaves at most 4 bytes for its last part. -/
theorem DecUnit.Inv.close_answers (h : d.Inv c) : ∃ x, d.close c = .ok x := by
  by_cases hp : d.phase = .opened
  case neg => exact ⟨_, if_pos hp⟩
  obtain ⟨hdirect, hbulk⟩ := DecUnit.close_spec h hp
  rcases Nat.lt_or_ge 4 d.pending with h4 | h4
  case inr => rw [hdirect h4]; exact h.finish_answers h4
  case inl =>
    obtain ⟨k, g, input, m', hk, hd, hlt, hub, -, hframe, hgood, hbad⟩ := hbulk h4
    cases hall : input.all isSymbol with
    | false => exact ⟨_, hbad hall⟩
    | true =>
      rw [(hgood hall).2]
      have hinv := (h.afterBulk hk hd hlt hframe (ph := d.phase) (by simp [hp])).2
      refine hinv.finish_answers ?_
      have hw := d.writePos.isLt
      simp only [DecUnit.pending, BitVec.toNat_ofNat]
      omega

end Decoder

/-- `ENC.ENCODE` (rules R57, R161). -/
theorem EncUnit.Inv.encode_answers {c : Config} {e : EncUnit} (hc : c.Legal) (h : e.Inv c) (source : List Byte) :
    ∃ x, e.encode c source = .ok x := by
  by_cases hfit : encNeed c source.length ≤ c.memMax
  · obtain ⟨e', hrun, -⟩ := EncUnit.encode_spec hc h hfit
    exact ⟨_, hrun⟩
  · exact ⟨_, EncUnit.encode_of_gt (Nat.lt_of_not_le hfit)⟩

section Core
variable {s : State}

theorem answerDec_of_ok {a : Except Fault (DecUnit × Response)} (h : ∃ x, a = .ok x) : ∃ t, answerDec s a = .next t := by
  obtain ⟨⟨d, r⟩, rfl⟩ := h
  exact ⟨_, answerDec_ok s d r⟩

theorem answerEnc_of_ok {a : Except Fault (EncUnit × Response)} (h : ∃ x, a = .ok x) : ∃ t, answerEnc s a = .next t := by
  obtain ⟨⟨e, r⟩, rfl⟩ := h
  exact ⟨_, answerEnc_ok s e r⟩

/-- Every command answers from every state of the invariant (rule R57). -/
theorem State.Inv.exec_answers (h : s.Inv) (i : Instr) : ∃ t, Machine.exec i s = .next t := by
  cases i with
  | decNew keepSize => rw [exec_decNew]; exact answerDec_of_ok ⟨_, rfl⟩
  | decInit size => rw [exec_decInit]; exact answerDec_of_ok ⟨_, rfl⟩
  | decPut chunk => rw [exec_decPut]; exact answerDec_of_ok (h.dec.put_answers h.cfg chunk)
  | decEnd arg => rw [exec_decEnd]; exact answerDec_of_ok h.dec.close_answers
  | decData arg =>
    obtain ⟨bytes, -, hdata⟩ := h.dec.data_eq
    rw [exec_decData]; exact answerDec_of_ok ⟨_, hdata⟩
  | decRelease arg => rw [exec_decRelease]; exact answerDec_of_ok ⟨_, rfl⟩
  | decStat reg => rw [exec_decStat]; exact answerDec_of_ok ⟨_, rfl⟩
  | encNew keepSize => rw [exec_encNew]; exact answerEnc_of_ok ⟨_, rfl⟩
  | encEncode source => rw [exec_encEncode]; exact answerEnc_of_ok (h.enc.encode_answers h.cfg source)
  | encRelease arg => rw [exec_encRelease]; exact answerEnc_of_ok ⟨_, rfl⟩
  | encStat reg => rw [exec_encStat]; exact answerEnc_of_ok ⟨_, rfl⟩

/-- Taking a command off a stream keeps the invariant. -/
theorem State.Inv.consume (h : s.Inv) (p : Port) (rest : List Byte) : (s.consume p rest).Inv :=
  h.of_units (State.consume_cfg ..) (State.consume_dec ..) (State.consume_enc ..)

end Core

/-- Settles O4: no header is at the other unit's port, so a step stops only where a command faults, and none does from the
invariant. -/
theorem stepAlwaysAnswers : Obligations.StepAlwaysAnswers := by
  unfold Obligations.StepAlwaysAnswers
  intro s hs hdec henc
  have hrouted : ∀ p, s.Routed p := fun p => match p with
    | .dec => hdec
    | .enc => henc
  exact step_answers hrouted fun p i rest _ _ _ => (hs.consume p rest).exec_answers i

end Sys2Proof.Machine
end

section
/-! The command format on the wire (rules R80 to R86, R93 to R100): the obligations about headers, reserved codes, the
alphabet and the tables, each from the law that says what the definition holds. -/

namespace Sys2Proof

open Machine

/-- Settles O9: what the decoder answers on the bytes of a command. -/
theorem decodeOfEncode : Obligations.DecodeOfEncode := by
  unfold Obligations.DecodeOfEncode
  intro i rest hw
  exact decode_encode_append hw rest

/-- A whole header is rejected as reserved exactly when its code stands for no operation (rule R84). -/
theorem decode_eq_reserved_iff {op a0 a1 a2 a3 : Byte} {rest : List Byte} :
    decode (op :: a0 :: a1 :: a2 :: a3 :: rest) = .error (.reserved op) ↔ Op.ofCode? op = none := by
  cases ho : Op.ofCode? op with
  | none => simp [decode, ho]
  | some o =>
    simp only [decode, ho, reduceCtorEq, iff_false]
    split
    · split <;> simp
    · simp

/-- What it takes to decode a command: a header with a code of the opcode map, and for format `HP` the whole payload
(rules R80, R83). -/
theorem decode_eq_ok {bs rest : List Byte} {i : Instr} (h : decode bs = .ok (i, rest)) :
    ∃ o arg payload, bs = headerBytes o.code arg ++ payload ++ rest ∧ i = Instr.build o arg payload ∧
      (if o.hasPayload then payload.length = arg.toNat else payload = []) := by
  unfold decode at h
  split at h
  case h_2 => cases h
  case h_1 op a0 a1 a2 a3 tl =>
    split at h
    case h_1 => cases h
    case h_2 o ho =>
      have hheader : op :: a0 :: a1 :: a2 :: a3 :: tl = headerBytes o.code (leWord a0 a1 a2 a3) ++ tl := by
        rw [headerBytes, leBytes_leWord, Op.code_of_ofCode? ho]; rfl
      by_cases hp : o.hasPayload = true
      · by_cases hl : tl.length < (leWord a0 a1 a2 a3).toNat
        · simp [hp, hl] at h
        · simp only [if_pos hp, if_neg hl] at h
          cases h
          refine ⟨o, leWord a0 a1 a2 a3, _, ?_, rfl, ?_⟩
          · rw [List.append_assoc, List.take_append_drop, hheader]
          · simp [hp, Nat.not_lt.1 hl]
      · simp only [if_neg hp] at h
        cases h
        exact ⟨o, leWord a0 a1 a2 a3, [], by rw [List.append_nil, hheader], rfl, by simp [hp]⟩

/-- A command built from an operation, an operand and a payload that fits the operand keeps all three (rules R80, R83). -/
theorem Instr.build_spec {o : Op} {arg : Word} {payload : List Byte}
    (h : if o.hasPayload then payload.length = arg.toNat else payload = []) :
    (Instr.build o arg payload).wellFormed = true ∧
      encode (Instr.build o arg payload) = headerBytes o.code arg ++ payload := by
  have harg : arg.toNat < 4294967296 := arg.isLt
  cases o <;> simp only [Op.hasPayload, if_true, Bool.false_eq_true, if_false] at h <;>
    simp [Instr.build, Instr.wellFormed, payloadFits, encode, Instr.op, Instr.arg, Instr.payload, h, harg]

/-- Settles O10: the header is the one of the command's operation and `arg`, and the payload is what the header names. -/
theorem encodeOfDecode : Obligations.EncodeOfDecode := by
  unfold Obligations.EncodeOfDecode
  intro bs rest i h
  obtain ⟨o, arg, payload, rfl, rfl, hfits⟩ := decode_eq_ok h
  obtain ⟨hw, hencode⟩ := Instr.build_spec hfits
  exact ⟨hw, by rw [hencode]⟩

/-- Settles O11: each header is its row of the opcode map by definition, without a payload for format `H`. -/
theorem headersFollowOpcodeMap : Obligations.HeadersFollowOpcodeMap := by
  unfold Obligations.HeadersFollowOpcodeMap
  have header : ∀ i : Instr, i.payload = [] → encode i = i.op.code :: leBytes 4 i.arg := fun i hi => by
    rw [encode, hi, List.append_nil, headerBytes]
  exact ⟨fun _ => header _ rfl, fun _ => header _ rfl, fun _ => rfl, fun _ => header _ rfl, fun _ => header _ rfl,
    fun _ => header _ rfl, fun _ => header _ rfl, fun _ => header _ rfl, fun _ => rfl, fun _ => header _ rfl,
    fun _ => header _ rfl, fun i => portOfOp_code i.op⟩

/-- Settles O12: a header is rejected as reserved when its code is of no operation, and those are the listed codes. -/
theorem reservedCodesAreRejected : Obligations.ReservedCodesAreRejected := by
  unfold Obligations.ReservedCodesAreRejected
  intro op a0 a1 a2 a3 rest
  exact decode_eq_reserved_iff.trans (Op.ofCode?_eq_none_iff op)

/-- Settles O13: the words are closed terms. -/
theorem sampleWordsDecode : Obligations.SampleWordsDecode := by
  unfold Obligations.SampleWordsDecode
  decide

namespace Machine

/-- Settles O14: each range is one branch of `alpha`, and `symVal` undoes it both ways. -/
theorem alphabetIsBase64 : Obligations.AlphabetIsBase64 := by
  unfold Obligations.AlphabetIsBase64
  refine ⟨fun v => ⟨?upper, ?lower, ?digit, ?plus, ?slash, symVal_alpha v⟩, fun c v => alpha_of_symVal, by decide⟩
  case upper => intro h; simp [alpha, h]; omega
  case lower =>
    rintro ⟨hlo, hhi⟩
    simp [alpha, Nat.not_lt.2 hlo, hhi]; omega
  case digit =>
    rintro ⟨hlo, hhi⟩
    simp [alpha, Nat.not_lt.2 hlo, show ¬ v.toNat < 26 by omega, hhi]; omega
  case plus => intro h; simp [alpha, h]
  case slash => intro h; simp [alpha, h]

/-- Settles O15: at a symbol each table takes its first branch. -/
theorem decodeTablesAtSymbols : Obligations.DecodeTablesAtSymbols := by
  unfold Obligations.DecodeTablesAtSymbols
  intro c v h
  exact ⟨by rw [tableD0, h], by rw [tableD1, h], by rw [tableD2, h], by rw [tableD3, h]⟩

/-- A byte that is the symbol of no value has none (rules R91, R98). -/
theorem symVal_eq_none_of_forall_ne {c : Byte} (h : ∀ v, alpha v ≠ c) : symVal c = none :=
  Option.eq_none_iff_forall_ne_some.2 fun v hv => h v (alpha_of_symVal hv)

/-- Settles O16: `symVal` has no value there, so each table takes its second branch. -/
theorem decodeTablesAtOtherBytes : Obligations.DecodeTablesAtOtherBytes := by
  unfold Obligations.DecodeTablesAtOtherBytes
  intro c hc
  have h := symVal_eq_none_of_forall_ne hc
  exact ⟨by rw [tableD0, h]; rfl, by rw [tableD1, h]; rfl, by rw [tableD2, h]; rfl, by rw [tableD3, h]; rfl⟩

/-- Settles O18: the two bytes of the word are what it stores. -/
theorem encodeTableWords : Obligations.EncodeTableWords := by
  unfold Obligations.EncodeTableWords
  intro i
  have hbytes : [(lut i).extractLsb' 0 8, (lut i).extractLsb' 8 8] = [alpha (i.extractLsb' 6 6), alpha (i.extractLsb' 0 6)] :=
    leBytes_lut i
  simpa using hbytes

section TopByte
/-! The top byte of a table word is 0 at a symbol and 0xFF at any other byte (rules R94 to R98). -/
variable (c : Byte)
theorem topByte_tableD0 : (tableD0 c).extractLsb' 24 8 = if isSymbol c then 0#8 else 0xFF#8 := by revert c; decide
theorem topByte_tableD1 : (tableD1 c).extractLsb' 24 8 = if isSymbol c then 0#8 else 0xFF#8 := by revert c; decide
theorem topByte_tableD2 : (tableD2 c).extractLsb' 24 8 = if isSymbol c then 0#8 else 0xFF#8 := by revert c; decide
theorem topByte_tableD3 : (tableD3 c).extractLsb' 24 8 = if isSymbol c then 0#8 else 0xFF#8 := by revert c; decide
end TopByte

/-- Two such top bytes or-ed: 0 when both are. -/
theorem topByte_or (p q : Bool) :
    ((if p then 0#8 else 0xFF#8) ||| (if q then 0#8 else 0xFF#8)) = if p && q then 0#8 else 0xFF#8 := by
  cases p <;> cases q <;> rfl

/-- The top byte of a group word is 0 for four symbols and 0xFF otherwise (rules R99, R124). -/
theorem topByte_groupWord (c0 c1 c2 c3 : Byte) :
    (groupWord c0 c1 c2 c3).extractLsb' 24 8 = if [c0, c1, c2, c3].all isSymbol then 0#8 else 0xFF#8 := by
  simp only [groupWord, BitVec.extractLsb'_or, topByte_tableD0, topByte_tableD1, topByte_tableD2, topByte_tableD3,
    topByte_or, List.all_cons, List.all_nil, Bool.and_true, Bool.and_assoc]

/-- The error flag of an accumulator after some group words: it was set before, or some byte is no symbol (rule R99). -/
theorem errorSeen_foldl_groupWord (groups : List (Byte × Byte × Byte × Byte)) (acc : Word) :
    errorSeen (groups.foldl (fun acc g => acc ||| groupWord g.1 g.2.1 g.2.2.1 g.2.2.2) acc) =
      (errorSeen acc || !groups.all fun g => [g.1, g.2.1, g.2.2.1, g.2.2.2].all isSymbol) := by
  induction groups generalizing acc with
  | nil => simp
  | cons g groups ih =>
    rw [List.foldl_cons, ih, errorSeen_or, errorSeen_groupWord, Bool.or_assoc, ← Bool.not_and]
    rfl

/-- Settles O17: the top byte of a group word, its lower bytes at four symbols, and the error flag of a fold. -/
theorem groupWordValidatesAndDecodes : Obligations.GroupWordValidatesAndDecodes := by
  unfold Obligations.GroupWordValidatesAndDecodes
  refine ⟨fun c0 c1 c2 c3 h => ⟨?_, ?_⟩, fun c0 c1 c2 c3 h => ?_, fun groups => ?_⟩
  · rw [topByte_groupWord, if_pos h]
  · simp only [List.all_cons, List.all_nil, Bool.and_true, Bool.and_eq_true] at h
    obtain ⟨h0, h1, h2, h3⟩ := h
    exact leBytes_groupWord h0 h1 h2 h3
  · rw [topByte_groupWord, h]; rfl
  · rw [errorSeen_foldl_groupWord, errorSeen_zero, Bool.false_or]

end Machine

end Sys2Proof
end

section
/-! What a step does with a reserved header and with the single command input (rules R80, R84). -/

namespace Sys2Proof.Machine

/-- A stream that begins with a reserved header has it at its front, and no payload belongs to it (rule R84). -/
theorem front_of_reserved {op a0 a1 a2 a3 : Byte} {rest : List Byte} (h : Op.ofCode? op = none) :
    front (op :: a0 :: a1 :: a2 :: a3 :: rest) = .reservedOp op rest := by
  simp [front, decode, h]

/-- The encoder port has the codes with `op[7:4]` = 0 and `op[3]` = 1 (rules R80, R84). -/
theorem portOfOp_eq_enc_iff (op : Byte) : portOfOp op = .enc ↔ op.toNat / 16 = 0 ∧ op.toNat / 8 % 2 = 1 := by
  revert op; decide

theorem portOfOp_eq_ite (op : Byte) :
    portOfOp op = if op.toNat / 16 = 0 ∧ op.toNat / 8 % 2 = 1 then .enc else .dec := by
  have h := portOfOp_eq_enc_iff op
  split
  · next hop => exact h.2 hop
  · next hop =>
    cases hp : portOfOp op with
    | enc => exact absurd (h.1 hp) hop
    | dec => rfl

/-- The step on a reserved header at its own port (rule R84). -/
theorem step_of_served_reserved {s : State} {p : Port} {op : Byte} {rest : List Byte} (hs : s.served = some p)
    (hf : front (s.cmd p) = .reservedOp op rest) (hp : portOfOp op = p) :
    step s = .next ((s.consume p rest).raiseIllegal p) := by
  have htake : s.takeFrom p = .illegal p (s.consume p rest) := by simp [State.takeFrom, hf, hp]
  have hfetch : s.fetch = .illegal p (s.consume p rest) := by simp [State.fetch, hs, htake]
  rw [step, hfetch]

/-- Settles O42: the header is at the front of its own port, so the step answers it there. -/
theorem stepAnswersReservedHeader : Obligations.StepAnswersReservedHeader := by
  unfold Obligations.StepAnswersReservedHeader
  intro s p op a0 a1 a2 a3 rest hop hp hserved hcmd
  have hfront : front (s.cmd p) = .reservedOp op rest := by
    rw [hcmd, front_of_reserved ((Op.ofCode?_eq_none_iff op).2 hop)]
  exact step_of_served_reserved hserved hfront (by rw [hp, portOfOp_eq_ite])

/-- The step when no port can be served and the router has something to move (rule R80). -/
theorem step_of_routeOne {s t : State} (hs : s.served = none) (hr : s.routeOne = some t) : step s = .next t := by
  have hfetch : s.fetch = .routed t := by simp [State.fetch, hs, hr]
  rw [step, hfetch]

/-- Taking bytes off the single input leaves what waits at the ports (rule R80). -/
@[simp] theorem State.cmd_with_cmdIn (s : State) (bs : List Byte) (p : Port) :
    State.cmd { s with cmdIn := bs } p = s.cmd p := by
  cases p <;> rfl

/-- Settles O43: the router looks at the front of the single input, and appends the bytes it takes to the port's stream. -/
theorem stepRoutesSingleInput : Obligations.StepRoutesSingleInput := by
  unfold Obligations.StepRoutesSingleInput
  refine ⟨?command, ?reserved, portOfOp_eq_enc_iff⟩
  case command =>
    intro s i rest hserved hw hin
    refine step_of_routeOne hserved ?_
    simp only [State.routeOne, hin, front_encode_append hw, State.arrive, State.cmd_with_cmdIn]
  case reserved =>
    intro s op a0 a1 a2 a3 rest hserved hop hin
    refine step_of_routeOne hserved ?_
    have htake : s.cmdIn.take 5 = [op, a0, a1, a2, a3] := by rw [hin]; rfl
    simp only [State.routeOne, htake]
    simp only [hin, front_of_reserved hop, State.arrive, State.cmd_with_cmdIn]

end Sys2Proof.Machine
end

section
/-! Rule R82: the one response of each command, said once for each command of a unit, and the response header. -/

namespace Sys2Proof.Machine

/-- A response without a result: success with `val` 0 and no data, or a failure (rule R82). -/
inductive Response.Bare : Response → Prop where
  | ok : Bare (.ok 0 [])
  | fail (c : FailClass) : Bare (.fail c)

theorem Response.Bare.val_eq {r : Response} (h : r.Bare) : r.val = 0 := by cases h <;> rfl

theorem Response.Bare.data_eq {r : Response} (h : r.Bare) : r.data = [] := by cases h <;> rfl

/-- A failure carries nothing (rule R82). -/
theorem Response.bare_of_status {r : Response} (h : r.status = true) : r.Bare := by
  cases r with
  | ok val data => cases h
  | fail c => exact .fail c

section Decoder
variable {c : Config} {d d' : DecUnit} {r : Response}

theorem DecUnit.init_bare {size : Word} (h : d.init c size = (d', r)) : r.Bare := by
  by_cases hfit : decNeed c size.toNat ≤ c.memMax
  · rw [DecUnit.init_of_le hfit] at h; cases h; exact .ok
  · rw [DecUnit.init_of_gt (Nat.lt_of_not_le hfit)] at h; cases h; exact .fail _

theorem DecUnit.put_bare {chunk : List Byte} (h : d.put c chunk = .ok (d', r)) : r.Bare := by
  unfold DecUnit.put at h
  split at h
  · cases h; exact .fail _
  split at h
  · cases h; exact .fail _
  obtain ⟨m, -, h⟩ := bind_eq_ok_iff.1 h
  dsimp only at h
  split at h
  · obtain ⟨⟨good, d₁⟩, -, h⟩ := bind_eq_ok_iff.1 h
    dsimp only at h
    split at h <;> cases h
    · exact .ok
    · exact .fail _
  · cases h; exact .ok

theorem DecUnit.finish_bare (h : d.finish c = .ok (d', r)) : r.Bare := by
  unfold DecUnit.finish at h
  split at h
  · cases h; exact .fail _
  obtain ⟨⟨w, dp⟩, -, h⟩ := bind_eq_ok_iff.1 h
  dsimp only at h
  split at h
  · cases h; exact .fail _
  · obtain ⟨m, -, h⟩ := bind_eq_ok_iff.1 h
    cases h; exact .ok

theorem DecUnit.close_bare (h : d.close c = .ok (d', r)) : r.Bare := by
  unfold DecUnit.close at h
  split at h
  · cases h; exact .fail _
  split at h
  · obtain ⟨⟨good, d₁⟩, -, h⟩ := bind_eq_ok_iff.1 h
    dsimp only at h
    split at h
    · exact DecUnit.finish_bare h
    · cases h; exact .fail _
  · exact DecUnit.finish_bare h

/-- `DEC.DATA` answers as many bytes as `val` says (rule R128). -/
theorem DecUnit.data_length (h : d.data c = .ok (d', r)) : r.val.toNat = r.data.length := by
  obtain ⟨bytes, hload, h⟩ := bind_eq_ok_iff.1 h
  cases h
  exact (Memory.readBytes?_eq_some_iff.1 (loadBytes_eq_ok_iff.1 hload).2).1.symm

/-- `DEC.STAT` answers the register or fails (rule R130). -/
theorem DecUnit.stat_response {reg : Word} (h : d.stat reg = (d', r)) :
    r.data = [] ∧ (r.status = false → d.reg? reg.toNat = some r.val) := by
  unfold DecUnit.stat at h
  split at h
  · next v hv => cases h; exact ⟨rfl, fun _ => hv⟩
  · cases h; exact ⟨rfl, fun h => by cases h⟩

end Decoder

section Encoder
variable {c : Config} {e e' : EncUnit} {r : Response}

/-- `ENC.ENCODE` that succeeds answers as many bytes as `val` says: the length of a result that fits `MEM_MAX` does not wrap
(rules R8, R161). -/
theorem EncUnit.encode_length {source : List Byte} (hc : c.Legal) (h : e.encode c source = .ok (e', r))
    (hok : r.status = false) : r.val.toNat = r.data.length := by
  obtain ⟨hpage, -, -, -, hmax⟩ := hc
  unfold EncUnit.encode at h
  dsimp only at h
  split at h
  · cases h; cases hok
  next hfit =>
  obtain ⟨m0, -, h⟩ := bind_eq_ok_iff.1 h
  obtain ⟨m1, -, h⟩ := bind_eq_ok_iff.1 h
  obtain ⟨m2, -, h⟩ := bind_eq_ok_iff.1 h
  obtain ⟨bytes, hload, h⟩ := bind_eq_ok_iff.1 h
  cases h
  have hlen : bytes.length = encOutLen source.length :=
    (Memory.readBytes?_eq_some_iff.1 (loadBytes_eq_ok_iff.1 hload).2).1
  have hlt : encOutLen source.length < 2 ^ 32 := by
    have : encOutLen source.length ≤ encNeed c source.length := by unfold encNeed; omega
    omega
  show (BitVec.ofNat 32 (encOutLen source.length)).toNat = bytes.length
  rw [hlen, BitVec.toNat_ofNat, Nat.mod_eq_of_lt hlt]

/-- `ENC.STAT` answers the register or fails (rule R167). -/
theorem EncUnit.stat_response {reg : Word} (h : e.stat reg = (e', r)) :
    r.data = [] ∧ (r.status = false → e.reg? reg.toNat = some r.val) := by
  unfold EncUnit.stat at h
  split at h
  · next v hv => cases h; exact ⟨rfl, fun _ => hv⟩
  · cases h; exact ⟨rfl, fun h => by cases h⟩

end Encoder

/-- Rule R82 of the response `r` of command `i` run in state `s`: which commands send data and how much, and what `val`
is. -/
structure ResponseFormat (i : Instr) (s : State) (r : Response) : Prop where
  sized : r.status = false → i.op = .decData ∨ i.op = .encEncode → r.val.toNat = r.data.length
  noData : i.op ≠ .decData → i.op ≠ .encEncode → r.data = []
  decReg : ∀ reg, i = .decStat reg → r.status = false → s.dec.reg? reg.toNat = some r.val
  encReg : ∀ reg, i = .encStat reg → r.status = false → s.enc.reg? reg.toNat = some r.val
  noVal : i.op ≠ .decData → i.op ≠ .encEncode → i.op ≠ .decStat → i.op ≠ .encStat → r.val = 0

/-- A command that is no `STAT` may answer a bare response. -/
theorem Response.Bare.format {i : Instr} {r : Response} (h : r.Bare) (s : State) (hd : i.op ≠ .decStat)
    (he : i.op ≠ .encStat) : ResponseFormat i s r where
  sized := fun _ _ => by rw [h.val_eq, h.data_eq]; rfl
  noData := fun _ _ => h.data_eq
  decReg := fun _ hi => absurd (congrArg Instr.op hi) hd
  encReg := fun _ hi => absurd (congrArg Instr.op hi) he
  noVal := fun _ _ _ _ => h.val_eq

section
variable {i : Instr} {s t : State}

/-- A decoder command that answers sends the response its unit computes, on the decoder's stream only (rule R82). -/
theorem exec_responds_of_answerDec {a : Except Fault (DecUnit × Response)} (ha : exec i s = answerDec s a)
    (hp : i.port = .dec) (h : exec i s = .next t) (hf : ∀ d r, a = .ok (d, r) → ResponseFormat i s r) :
    ∃ r, t.rsp i.port = s.rsp i.port ++ [r] ∧ t.rsp i.port.other = s.rsp i.port.other ∧ ResponseFormat i s r := by
  rw [ha] at h
  obtain ⟨d, r, hr, rfl⟩ := answerDec_eq_next_iff.1 h
  rw [hp]
  exact ⟨r, rfl, rfl, hf d r hr⟩

/-- An encoder command that answers sends the response its unit computes, on the encoder's stream only (rule R82). -/
theorem exec_responds_of_answerEnc {a : Except Fault (EncUnit × Response)} (ha : exec i s = answerEnc s a)
    (hp : i.port = .enc) (h : exec i s = .next t) (hf : ∀ e r, a = .ok (e, r) → ResponseFormat i s r) :
    ∃ r, t.rsp i.port = s.rsp i.port ++ [r] ∧ t.rsp i.port.other = s.rsp i.port.other ∧ ResponseFormat i s r := by
  rw [ha] at h
  obtain ⟨e, r, hr, rfl⟩ := answerEnc_eq_next_iff.1 h
  rw [hp]
  exact ⟨r, rfl, rfl, hf e r hr⟩

/-- Every command answers once, on its own unit's stream, in the format of rule R82. -/
theorem exec_responds (hc : s.cfg.Legal) (h : exec i s = .next t) :
    ∃ r, t.rsp i.port = s.rsp i.port ++ [r] ∧ t.rsp i.port.other = s.rsp i.port.other ∧ ResponseFormat i s r := by
  cases i with
  | decNew keepSize =>
    exact exec_responds_of_answerDec (exec_decNew ..) (by simp) h fun d r hd => by
      cases hd; exact Response.Bare.ok.format s nofun nofun
  | decInit size =>
    exact exec_responds_of_answerDec (exec_decInit ..) (by simp) h fun d r hd =>
      (DecUnit.init_bare (Except.ok.inj hd)).format s nofun nofun
  | decPut chunk =>
    exact exec_responds_of_answerDec (exec_decPut ..) (by simp) h fun d r hd =>
      (DecUnit.put_bare hd).format s nofun nofun
  | decEnd arg =>
    exact exec_responds_of_answerDec (exec_decEnd ..) (by simp) h fun d r hd =>
      (DecUnit.close_bare hd).format s nofun nofun
  | decData arg =>
    refine exec_responds_of_answerDec (exec_decData ..) (by simp) h fun d r hd => ?_
    exact {
      sized := fun _ _ => DecUnit.data_length hd
      noData := fun hne => absurd rfl hne
      decReg := nofun
      encReg := nofun
      noVal := fun hne => absurd rfl hne }
  | decRelease arg =>
    exact exec_responds_of_answerDec (exec_decRelease ..) (by simp) h fun d r hd => by
      cases hd; exact Response.Bare.ok.format s nofun nofun
  | decStat reg =>
    refine exec_responds_of_answerDec (exec_decStat ..) (by simp) h fun d r hd => ?_
    obtain ⟨hdata, hreg⟩ := DecUnit.stat_response (Except.ok.inj hd)
    exact {
      sized := fun _ hop => by simp [Instr.op] at hop
      noData := fun _ _ => hdata
      decReg := fun _ hi => by cases hi; exact hreg
      encReg := nofun
      noVal := fun _ _ hne => absurd rfl hne }
  | encNew keepSize =>
    exact exec_responds_of_answerEnc (exec_encNew ..) (by simp) h fun e r he => by
      cases he; exact Response.Bare.ok.format s nofun nofun
  | encEncode source =>
    refine exec_responds_of_answerEnc (exec_encEncode ..) (by simp) h fun e r he => ?_
    exact {
      sized := fun hok _ => EncUnit.encode_length hc he hok
      noData := fun _ hne => absurd rfl hne
      decReg := nofun
      encReg := nofun
      noVal := fun _ hne => absurd rfl hne }
  | encRelease arg =>
    exact exec_responds_of_answerEnc (exec_encRelease ..) (by simp) h fun e r he => by
      cases he; exact Response.Bare.ok.format s nofun nofun
  | encStat reg =>
    refine exec_responds_of_answerEnc (exec_encStat ..) (by simp) h fun e r he => ?_
    obtain ⟨hdata, hreg⟩ := EncUnit.stat_response (Except.ok.inj he)
    exact {
      sized := fun _ hop => by simp [Instr.op] at hop
      noData := fun _ _ => hdata
      decReg := nofun
      encReg := fun _ hi => by cases hi; exact hreg
      noVal := fun _ _ _ hne => absurd rfl hne }

end

/-- The three fields of a response header lie where rule R82 puts them. -/
theorem Response.header_fields (r : Response) :
    r.header.extractLsb' 0 1 = BitVec.ofBool r.status ∧ r.header.extractLsb' 1 7 = 0 ∧
      r.header.extractLsb' 8 32 = r.val := by
  unfold Response.header
  generalize r.val = v
  generalize r.status = b
  refine ⟨?_, ?_, ?_⟩ <;> ext i hi <;>
    simp only [BitVec.getElem_extractLsb', BitVec.getLsbD_append]
  · simp [show i = 0 by omega]
  · simp [Nat.not_le.2 hi]
  · simp [BitVec.getLsbD_eq_getElem hi]

/-- Settles O45: the format of each command's response, the failure of a reserved header, and the fields of the header. -/
theorem oneResponsePerCommand : Obligations.OneResponsePerCommand := by
  unfold Obligations.OneResponsePerCommand
  refine ⟨fun i s t hc h => ?command, fun p s => ⟨State.respond_rsp .., State.respond_rsp_other ..⟩, fun r => ?header⟩
  case command =>
    obtain ⟨r, hown, hother, hformat⟩ := exec_responds hc h
    have hfail : r.status = true → r.val = 0 ∧ r.data = [] := fun hs =>
      ⟨(Response.bare_of_status hs).val_eq, (Response.bare_of_status hs).data_eq⟩
    exact ⟨r, hown, hother, hfail, hformat.sized, hformat.noData, hformat.decReg, hformat.encReg, hformat.noVal⟩
  case header =>
    obtain ⟨hstatus, hzero, hval⟩ := r.header_fields
    exact ⟨hstatus, hzero, hval, rfl⟩

end Sys2Proof.Machine
end

section
/-! The text `E(b)` of a source (rules R88, R93, R104, R138): whole groups, then one last group with or without its pads;
what it decodes to as it stands, with its pads stripped, and with one byte replaced. -/

namespace Sys2Proof

open Machine

theorem ne_pad_of_isSymbol {c : Byte} (h : isSymbol c = true) : c ≠ pad := by
  rintro rfl
  rw [isSymbol_pad] at h; cases h

/-- The four values of three bytes give the three bytes back (rule R93). -/
theorem bytesOfValues_of_bytes (b0 b1 b2 : Byte) :
    bytesOfValues (b0.extractLsb' 2 6) (b0.extractLsb' 0 2 ++ b1.extractLsb' 4 4)
      (b1.extractLsb' 0 4 ++ b2.extractLsb' 6 2) (b2.extractLsb' 0 6) = [b0, b1, b2] := by
  simp only [bytesOfValues, List.cons.injEq, and_true]
  refine ⟨?_, ?_, ?_⟩ <;>
    (apply BitVec.eq_of_getLsbD_eq; intro i hi; interval_cases i <;>
      simp only [BitVec.getLsbD_append, BitVec.getLsbD_extractLsb'] <;> simp)

theorem all_isSymbol_symbolsOfBytes (b0 b1 b2 : Byte) : (symbolsOfBytes b0 b1 b2).all isSymbol = true := by
  simp [symbolsOfBytes]

theorem decodedGroups_symbolsOfBytes (b0 b1 b2 : Byte) : decodedGroups (symbolsOfBytes b0 b1 b2) = [b0, b1, b2] := by
  simp only [symbolsOfBytes, decodedGroups, symValue_alpha, bytesOfValues_of_bytes, List.append_nil]

/-- A source of whole blocks is encoded in whole groups of symbols, which decode to it (rules R88, R93). -/
theorem base64Encode_blocks {x : List Byte} (h : x.length % 3 = 0) :
    (base64Encode x).all isSymbol = true ∧ decodedGroups (base64Encode x) = x := by
  induction x using base64Encode.induct with
  | case1 b0 b1 b2 rest ih =>
    obtain ⟨hall, hdec⟩ := ih (by simpa [Nat.add_assoc] using h)
    constructor
    · rw [base64Encode, List.all_append, all_isSymbol_symbolsOfBytes, hall]; rfl
    · rw [base64Encode, decodedGroups_append 1 (length_symbolsOfBytes b0 b1 b2), decodedGroups_symbolsOfBytes, hdec]; rfl
  | case2 b0 b1 => simp at h
  | case3 b0 => simp at h
  | case4 => exact ⟨rfl, rfl⟩

/-- A last group of symbols without pads decodes as a partial group (rules R104, R106). -/
theorem decodedTail_of_symbols {syms : List Byte} (h2 : 2 ≤ syms.length) (h4 : syms.length ≤ 4)
    (hall : syms.all isSymbol = true) : decodedTail syms = partialGroup syms := by
  match syms, h2, h4 with
  | [t0, t1], _, _ => rfl
  | [t0, t1, t2], _, _ => rfl
  | [t0, t1, t2, t3], _, _ =>
    have h3 : t3 ≠ pad := ne_pad_of_isSymbol (List.all_eq_true.1 hall t3 (by simp))
    simp [decodedTail, h3]

/-- The pads that fill a last group do not change what it decodes to (rule R103). -/
theorem decodedTail_of_padded {syms : List Byte} (h2 : 2 ≤ syms.length) (h4 : syms.length ≤ 4)
    (hall : syms.all isSymbol = true) :
    decodedTail (syms ++ List.replicate (4 - syms.length) pad) = partialGroup syms := by
  match syms, h2, h4 with
  | [t0, t1], _, _ => rfl
  | [t0, t1, t2], _, _ =>
    have h2 : t2 ≠ pad := ne_pad_of_isSymbol (List.all_eq_true.1 hall t2 (by simp))
    simp [decodedTail, h2]
  | [t0, t1, t2, t3], _, _ => simpa using decodedTail_of_symbols (by simp) (by simp) hall

/-- Symbols decode to the bytes of their values, the missing ones having value 0 (rules R93, R106). -/
theorem partialGroup_map_alpha (vs : List (BitVec 6)) : partialGroup (vs.map alpha) =
    some ((bytesOfValues (vs.getD 0 0) (vs.getD 1 0) (vs.getD 2 0) (vs.getD 3 0)).take (vs.length - 1)) := by
  have hvalue : ∀ i, symValue ((vs.map alpha).getD i 0x41) = vs.getD i 0 := fun i => by
    rw [show (0x41 : Byte) = alpha 0 from rfl, List.getD_map, symValue_alpha]
  have hall : (vs.map alpha).all isSymbol = true := by simp
  simp only [partialGroup, if_pos hall, hvalue, List.length_map]

/-- The encoding of 1 to 3 bytes is a last group: one symbol more than there are bytes, then pads; the symbols decode to
the bytes (rules R88, R93, R163). -/
theorem base64Encode_lastGroup {y : List Byte} (h1 : 1 ≤ y.length) (h3 : y.length ≤ 3) :
    ∃ syms : List Byte, base64Encode y = syms ++ List.replicate (4 - syms.length) pad ∧
      syms.length = y.length + 1 ∧ syms.all isSymbol = true ∧ partialGroup syms = some y := by
  match y, h1, h3 with
  | [b0], _, _ =>
    let v0 := b0.extractLsb' 2 6
    let v1 : BitVec 6 := b0.extractLsb' 0 2 ++ (0 : Byte).extractLsb' 4 4
    have hbytes : bytesOfValues v0 v1 0#6 0#6 = [b0, 0, 0] := bytesOfValues_of_bytes b0 0 0
    exact ⟨[v0, v1].map alpha, rfl, rfl, by simp, by rw [partialGroup_map_alpha]; simp [hbytes]⟩
  | [b0, b1], _, _ =>
    let v0 := b0.extractLsb' 2 6
    let v1 : BitVec 6 := b0.extractLsb' 0 2 ++ b1.extractLsb' 4 4
    let v2 : BitVec 6 := b1.extractLsb' 0 4 ++ (0 : Byte).extractLsb' 6 2
    have hbytes : bytesOfValues v0 v1 v2 0#6 = [b0, b1, 0] := bytesOfValues_of_bytes b0 b1 0
    exact ⟨[v0, v1, v2].map alpha, rfl, rfl, by simp, by rw [partialGroup_map_alpha]; simp [hbytes]⟩
  | [b0, b1, b2], _, _ =>
    let v0 := b0.extractLsb' 2 6
    let v1 : BitVec 6 := b0.extractLsb' 0 2 ++ b1.extractLsb' 4 4
    let v2 : BitVec 6 := b1.extractLsb' 0 4 ++ b2.extractLsb' 6 2
    let v3 := b2.extractLsb' 0 6
    have hbytes : bytesOfValues v0 v1 v2 v3 = [b0, b1, b2] := bytesOfValues_of_bytes b0 b1 b2
    exact ⟨[v0, v1, v2, v3].map alpha, rfl, rfl, by simp, by rw [partialGroup_map_alpha]; simp [hbytes]⟩

/-- A source that is not empty is whole blocks and 1 to 3 more bytes; its encoding is that of the two parts. -/
theorem exists_blocks_lastGroup {source : List Byte} (h : source ≠ []) :
    ∃ x y k, source = x ++ y ∧ x.length = 3 * k ∧ 1 ≤ y.length ∧ y.length ≤ 3 ∧
      base64Encode source = base64Encode x ++ base64Encode y := by
  have hpos : 0 < source.length := List.length_pos_of_ne_nil h
  let k := (source.length - 1) / 3
  have hx : (source.take (3 * k)).length = 3 * k := by simp; omega
  refine ⟨source.take (3 * k), source.drop (3 * k), k, (List.take_append_drop _ _).symm, hx, ?_, ?_, ?_⟩
  · simp; omega
  · simp; omega
  · rw [← base64Encode_append k hx, List.take_append_drop]

theorem length_base64Encode_blocks {x : List Byte} {k : Nat} (h : x.length = 3 * k) : (base64Encode x).length = 4 * k := by
  rw [length_base64Encode, encOutLen, ceilDiv]; omega

theorem length_base64Encode_lastGroup {y : List Byte} (h1 : 1 ≤ y.length) (h3 : y.length ≤ 3) :
    (base64Encode y).length = 4 := by
  rw [length_base64Encode, encOutLen, ceilDiv]; omega

/-- A text of at most one group is its own tail (rule R137). -/
theorem base64Decode_of_length_le {t : List Byte} (h : t.length ≤ 4) : base64Decode t = decodedTail t := by
  have htail : tailStart t.length = 0 := by unfold tailStart; omega
  simp [base64Decode, htail, decodedGroups]

/-- Whole groups and a last group (rule R137). -/
theorem base64Decode_groups_tail {x t : List Byte} {k : Nat} (hx : x.length = 4 * k) (h1 : 1 ≤ t.length)
    (h4 : t.length ≤ 4) :
    base64Decode (x ++ t) = if x.all isSymbol then (decodedTail t).map (decodedGroups x ++ ·) else none := by
  rw [base64Decode_append k hx (List.ne_nil_of_length_pos h1), base64Decode_of_length_le h4]

/-- The text of a source that is not empty decodes to it (rule R88). -/
theorem base64Decode_base64Encode {source : List Byte} (h : source ≠ []) :
    base64Decode (base64Encode source) = some source := by
  obtain ⟨x, y, k, rfl, hx, h1, h3, henc⟩ := exists_blocks_lastGroup h
  obtain ⟨hall, hdec⟩ := base64Encode_blocks (x := x) (by omega)
  obtain ⟨syms, hsyms, hlen, hsymbols, hpart⟩ := base64Encode_lastGroup h1 h3
  have hy := length_base64Encode_lastGroup h1 h3
  rw [henc, base64Decode_groups_tail (length_base64Encode_blocks hx) (by omega) (by omega), if_pos hall, hsyms,
    decodedTail_of_padded (by omega) (by omega) hsymbols, hpart, hdec]
  rfl

/-- With its pads stripped it decodes to the same source (rule R104). -/
theorem base64Decode_unpadded {source : List Byte} (h : source ≠ []) :
    base64Decode ((base64Encode source).filter fun c => c != pad) = some source := by
  obtain ⟨x, y, k, rfl, hx, h1, h3, henc⟩ := exists_blocks_lastGroup h
  obtain ⟨hall, hdec⟩ := base64Encode_blocks (x := x) (by omega)
  obtain ⟨syms, hsyms, hlen, hsymbols, hpart⟩ := base64Encode_lastGroup h1 h3
  have hkeep : ∀ {l : List Byte}, l.all isSymbol = true → l.filter (fun c => c != pad) = l := fun hl =>
    List.filter_eq_self.2 fun c hc => by simpa using ne_pad_of_isSymbol (List.all_eq_true.1 hl c hc)
  have hpads : ∀ n, (List.replicate n pad).filter (fun c => c != pad) = [] := fun n => by simp
  rw [henc, hsyms, List.filter_append, List.filter_append, hkeep hall, hkeep hsymbols, hpads, List.append_nil,
    base64Decode_groups_tail (length_base64Encode_blocks hx) (by omega) (by omega), if_pos hall,
    decodedTail_of_symbols (by omega) (by omega) hsymbols, hpart, hdec]
  rfl

theorem all_isSymbol_of_partialGroup {syms out : List Byte} (h : partialGroup syms = some out) :
    syms.all isSymbol = true := by
  unfold partialGroup at h
  by_contra hall
  rw [if_neg hall] at h; cases h

/-- A last group of four bytes that decodes holds symbols, and in its last two places pads or symbols (rule R103). -/
theorem isSymbol_or_pad_of_decodedTail {t0 t1 t2 t3 : Byte} {out : List Byte} (h : decodedTail [t0, t1, t2, t3] = some out) :
    isSymbol t0 = true ∧ isSymbol t1 = true ∧ (isSymbol t2 = true ∨ t2 = pad) ∧ (isSymbol t3 = true ∨ t3 = pad) := by
  simp only [decodedTail] at h
  split at h
  case isTrue hp =>
    obtain ⟨rfl, rfl⟩ := hp
    simpa using all_isSymbol_of_partialGroup h
  case isFalse =>
    split at h
    case isTrue hp =>
      subst hp
      have hall := all_isSymbol_of_partialGroup h
      simp only [List.all_cons, List.all_nil, Bool.and_true, Bool.and_eq_true] at hall
      obtain ⟨h0, h1, h2⟩ := hall
      exact ⟨h0, h1, .inl h2, .inr rfl⟩
    case isFalse =>
      have hall := all_isSymbol_of_partialGroup h
      simp only [List.all_cons, List.all_nil, Bool.and_true, Bool.and_eq_true] at hall
      obtain ⟨h0, h1, h2, h3⟩ := hall
      exact ⟨h0, h1, .inl h2, .inl h3⟩

/-- A last group of four bytes does not decode with a byte in it that is neither a symbol nor, in its last two places, a
pad (rules R103, R105). -/
theorem decodedTail_set_eq_none {t : List Byte} {i : Nat} {c : Byte} (ht : t.length = 4) (hi : i < 4)
    (hc : isSymbol c = false) (hpad : c = pad → i < 2) : decodedTail (t.set i c) = none := by
  match t, ht with
  | [t0, t1, t2, t3], _ =>
    refine Option.eq_none_iff_forall_ne_some.2 fun out h => ?_
    have hne : 2 ≤ i → c ≠ pad := fun h2 hcp => absurd (hpad hcp) (Nat.not_lt.2 h2)
    match i, hi with
    | 0, _ => obtain ⟨h0, -, -, -⟩ := isSymbol_or_pad_of_decodedTail h; simp [hc] at h0
    | 1, _ => obtain ⟨-, h1, -, -⟩ := isSymbol_or_pad_of_decodedTail h; simp [hc] at h1
    | 2, _ => obtain ⟨-, -, h2, -⟩ := isSymbol_or_pad_of_decodedTail h; simp [hc, hne] at h2
    | 3, _ => obtain ⟨-, -, -, h3⟩ := isSymbol_or_pad_of_decodedTail h; simp [hc, hne] at h3

/-- A byte that is no symbol in the whole groups of a text spoils it (rules R105, R137). -/
theorem base64Decode_eq_none_of_groups {s : List Byte} {n : Nat} (hn : 4 * n < s.length)
    (hbad : (s.take (4 * n)).all isSymbol = false) : base64Decode s = none := by
  have hx : (s.take (4 * n)).length = 4 * n := by simp; omega
  rw [← List.take_append_drop (4 * n) s, base64Decode_append n hx (by simpa using hn), hbad]
  rfl

/-- The text of a source with one byte replaced by a byte that is neither a symbol nor, in its last two places, a pad does
not decode (rules R105, R138). -/
theorem base64Decode_corrupted {source : List Byte} {j : Nat} {c : Byte} (hj : j < encOutLen source.length)
    (hc : isSymbol c = false) (hpad : c = pad → j + 2 < encOutLen source.length) :
    base64Decode ((base64Encode source).set j c) = none := by
  have hne : source ≠ [] := by rintro rfl; simp [encOutLen, ceilDiv] at hj
  rw [← length_base64Encode] at hj hpad
  obtain ⟨x, y, k, rfl, hx, h1, h3, henc⟩ := exists_blocks_lastGroup hne
  have hX := length_base64Encode_blocks hx
  have hY := length_base64Encode_lastGroup h1 h3
  rw [henc] at hj hpad ⊢
  rw [List.length_append, hX, hY] at hj hpad
  by_cases hin : j < 4 * k
  · have hbad : ((base64Encode x).set j c).all isSymbol = false := by
      refine List.all_eq_false.2 ⟨c, List.mem_set (by omega) c, by simp [hc]⟩
    rw [List.set_append_left _ _ (by omega), base64Decode_groups_tail (by simpa using hX) (by omega) (by omega), hbad]
    rfl
  · rw [List.set_append_right _ _ (by omega), base64Decode_groups_tail hX (by simp [hY]) (by simp [hY]),
      decodedTail_set_eq_none hY (by omega) hc fun h => by have := hpad h; omega]
    simp

end Sys2Proof
end

section
/-! The decoder's stream (rules R122 to R127, R135, R137): what the unit holds after the append of a `put`, after a bulk
pass and after `end`, from one cursor position to the next. -/

namespace Sys2Proof.Machine

section Holds
variable {c : Config} {d : DecUnit} {input : List Byte}

/-- What an OPEN unit holds (rule R135). -/
theorem DecUnit.holds_iff_of_opened (hp : d.phase = .opened) : d.Holds input ↔
    input.length = d.writePos.toNat ∧
    d.buf.readBytes? d.streamPos.toNat d.pending = some (input.drop d.streamPos.toNat) ∧
    (input.take d.streamPos.toNat).all isSymbol = true ∧
    d.output? = some (decodedGroups (input.take d.streamPos.toNat)) := by
  unfold DecUnit.Holds
  rw [hp]

/-- What a FAILED unit holds (rule R135). -/
theorem DecUnit.holds_iff_of_failed (hp : d.phase = .failed) : d.Holds input ↔
    input.length = d.writePos.toNat ∧
    (input.take d.streamPos.toNat).all isSymbol = true ∧
    d.output? = some (decodedGroups (input.take d.streamPos.toNat)) := by
  unfold DecUnit.Holds
  rw [hp]

/-- An OPEN unit that fails still holds its stream (rules R135, R190). -/
theorem DecUnit.Holds.failed (hp : d.phase = .opened) (h : d.Holds input) :
    DecUnit.Holds { d with phase := .failed } input := by
  obtain ⟨hlen, -, hall, hout⟩ := (DecUnit.holds_iff_of_opened hp).1 h
  exact (DecUnit.holds_iff_of_failed rfl).2 ⟨hlen, hall, hout⟩

/-- The append of `DEC.PUT` adds the chunk to the stream (rules R122, R135). -/
theorem DecUnit.Holds.append (hinv : d.Inv c) (hp : d.phase = .opened) (h : d.Holds input) {chunk : List Byte}
    (hcap : d.writePos.toNat + chunk.length ≤ d.capacity.toNat) :
    DecUnit.Holds { d with
      buf := d.buf.writeBytes d.writePos.toNat chunk
      writePos := BitVec.ofNat 32 (d.writePos.toNat + chunk.length) } (input ++ chunk) := by
  obtain ⟨hlen, hpend, hall, hout⟩ := (DecUnit.holds_iff_of_opened hp).1 h
  obtain ⟨-, hw, -⟩ := hinv.append hp hcap
  have hsp := hinv.stream_le
  have hdp := hinv.decoded_le
  have htake : (input ++ chunk).take d.streamPos.toNat = input.take d.streamPos.toNat :=
    List.take_append_of_le_length (by omega)
  have hdrop : (input ++ chunk).drop d.streamPos.toNat = input.drop d.streamPos.toNat ++ chunk :=
    List.drop_append_of_le_length (by omega)
  refine (DecUnit.holds_iff_of_opened (by exact hp)).2 ⟨?length, ?pending, ?symbols, ?output⟩
  case length => rw [List.length_append, hlen, hw]
  case pending =>
    have hold : (d.buf.writeBytes d.writePos.toNat chunk).readBytes? d.streamPos.toNat d.pending =
        some (input.drop d.streamPos.toNat) := by
      rw [Memory.readBytes?_writeBytes_of_outside _ _ _ _ _ (by unfold DecUnit.pending; omega), hpend]
    have hnew : (d.buf.writeBytes d.writePos.toNat chunk).readBytes? (d.streamPos.toNat + d.pending) chunk.length =
        some chunk := by
      rw [show d.streamPos.toNat + d.pending = d.writePos.toNat by unfold DecUnit.pending; omega]
      exact Memory.readBytes?_writeBytes_same ..
    have hboth := Memory.readBytes?_append hold hnew
    rw [hdrop]
    rw [← hboth]
    congr 1
    simp only [DecUnit.pending, hw]
    omega
  case symbols => rw [htake]; exact hall
  case output =>
    rw [htake, ← hout]
    exact Memory.readBytes?_writeBytes_of_outside _ _ _ _ _ (by simp; omega)

/-- A bulk pass that fails leaves the stream as it was, the phase aside (rules R123, R135). -/
theorem DecUnit.Holds.badBulk (hp : d.phase = .opened) (h : d.Holds input) {k g : Nat} {m' : Memory}
    (hd : d.decodePos.toNat = 3 * k) (hframe : BulkFrame g (3 * k) d.buf m') :
    DecUnit.Holds { d with buf := m', phase := .failed } input := by
  obtain ⟨hlen, hall, hout⟩ := (DecUnit.holds_iff_of_failed rfl).1 (h.failed hp)
  refine (DecUnit.holds_iff_of_failed rfl).2 ⟨hlen, hall, ?_⟩
  rw [← hout]
  exact Memory.readBytes?_congr fun i hi => hframe.unchanged _ (by simp only at hi; omega)

/-- The whole groups a bulk pass reads are the next ones of the stream (rule R123). -/
theorem DecUnit.Holds.groups_eq (hp : d.phase = .opened) (h : d.Holds input) {k g : Nat} {groups : List Byte}
    (hk : d.streamPos.toNat = 4 * k) (hlt : 4 * (k + g) < d.writePos.toNat)
    (hgroups : d.buf.readBytes? (4 * k) (4 * g) = some groups) :
    input.take (4 * (k + g)) = input.take (4 * k) ++ groups := by
  obtain ⟨-, hpend, -, -⟩ := (DecUnit.holds_iff_of_opened hp).1 h
  have hread := Memory.readBytes?_take hpend (k := 4 * g) (by unfold DecUnit.pending; omega)
  rw [hk, hgroups] at hread
  rw [Option.some.inj hread, Nat.mul_add, List.take_add]

/-- A good bulk pass moves its groups from the pending bytes to the output (rules R123, R135). -/
theorem DecUnit.Holds.goodBulk (hp : d.phase = .opened) (h : d.Holds input) {k g : Nat} {m' : Memory} {groups : List Byte}
    (hk : d.streamPos.toNat = 4 * k) (hd : d.decodePos.toNat = 3 * k) (hlt : 4 * (k + g) < d.writePos.toNat)
    (hgroups : d.buf.readBytes? (4 * k) (4 * g) = some groups) (hframe : BulkFrame g (3 * k) d.buf m')
    (hgood : groups.all isSymbol = true) (hdata : m'.readBytes? (3 * k) (3 * g) = some (decodedGroups groups)) :
    DecUnit.Holds { d with
      buf := m', streamPos := BitVec.ofNat 32 (4 * (k + g)), decodePos := BitVec.ofNat 32 (3 * (k + g)) } input := by
  have htake := h.groups_eq hp hk hlt hgroups
  obtain ⟨hlen, hpend, hall, hout⟩ := (DecUnit.holds_iff_of_opened hp).1 h
  have hw := d.writePos.isLt
  have e1 : (BitVec.ofNat 32 (4 * (k + g))).toNat = 4 * (k + g) := by
    rw [BitVec.toNat_ofNat, Nat.mod_eq_of_lt (by omega)]
  have e2 : (BitVec.ofNat 32 (3 * (k + g))).toNat = 3 * (k + g) := by
    rw [BitVec.toNat_ofNat, Nat.mod_eq_of_lt (by omega)]
  rw [hk] at hall hout hpend
  refine (DecUnit.holds_iff_of_opened (by exact hp)).2 ⟨hlen, ?pending, ?symbols, ?output⟩
  case pending =>
    have hrest := Memory.readBytes?_drop hpend (k := 4 * g) (by unfold DecUnit.pending; omega)
    rw [List.drop_drop] at hrest
    simp only [DecUnit.pending, e1]
    rw [Nat.mul_add, ← hrest, Memory.readBytes?_congr (m' := d.buf) fun i hi => hframe.unchanged _ (by omega)]
    simp only [DecUnit.pending]
    congr 1; omega
  case symbols => rw [e1, htake, List.all_append, hall, hgood]; rfl
  case output =>
    have hx : (input.take (4 * k)).length = 4 * k := by simp; omega
    rw [e1, htake, decodedGroups_append k hx]
    simp only [DecUnit.output?, e2]
    rw [Nat.mul_add]
    refine Memory.readBytes?_append ?_ (by rw [Nat.zero_add]; exact hdata)
    rw [Memory.readBytes?_congr (m' := d.buf) fun i hi => hframe.unchanged _ (by omega), ← hd]
    exact hout

end Holds

/-- An OPEN unit in the middle of a stream (rules R22, R123, R135): it holds the bytes accepted so far, and at least one of
them is pending unless there are none. -/
structure DecUnit.Receiving (c : Config) (d : DecUnit) (input : List Byte) : Prop where
  inv : d.Inv c
  opened : d.phase = .opened
  holds : d.Holds input
  pending : input = [] ∨ d.streamPos.toNat < d.writePos.toNat

/-- Some byte of the first whole groups of a text is no symbol, and the text goes on behind them (rules R105, R123). -/
def BadGroups (input : List Byte) : Prop :=
  ∃ n, 4 * n < input.length ∧ (input.take (4 * n)).all isSymbol = false

theorem BadGroups.append {input : List Byte} (h : BadGroups input) (rest : List Byte) : BadGroups (input ++ rest) := by
  obtain ⟨n, hn, hbad⟩ := h
  exact ⟨n, by simp; omega, by rw [List.take_append_of_le_length (by omega)]; exact hbad⟩

theorem BadGroups.base64Decode_eq_none {input : List Byte} (h : BadGroups input) : base64Decode input = none := by
  obtain ⟨n, hn, hbad⟩ := h
  exact base64Decode_eq_none_of_groups hn hbad

theorem BadGroups.ne_nil {input : List Byte} (h : BadGroups input) : input ≠ [] := by
  rintro rfl
  obtain ⟨n, hn, -⟩ := h
  simp at hn

section Receiving
variable {c : Config} {d : DecUnit} {input : List Byte}

theorem DecUnit.Receiving.length_eq (h : d.Receiving c input) : input.length = d.writePos.toNat :=
  ((DecUnit.holds_iff_of_opened h.opened).1 h.holds).1

/-- An OPEN unit whose cursors are zero has the empty stream (rules R34, R121). -/
theorem DecUnit.receiving_nil (hinv : d.Inv c) (hp : d.phase = .opened) (hw : d.writePos = 0) (hs : d.streamPos = 0)
    (hd : d.decodePos = 0) : d.Receiving c [] where
  inv := hinv
  opened := hp
  holds := by
    rw [DecUnit.holds_iff_of_opened hp]
    simp [DecUnit.pending, DecUnit.output?, hw, hs, hd, Memory.readBytes?, decodedGroups]
  pending := .inl rfl

/-- Whole groups read from the stream that are not all symbols (rule R123). -/
theorem DecUnit.Receiving.badGroups (h : d.Receiving c input) {k g : Nat} {groups : List Byte}
    (hk : d.streamPos.toNat = 4 * k) (hlt : 4 * (k + g) < d.writePos.toNat)
    (hgroups : d.buf.readBytes? (4 * k) (4 * g) = some groups) (hbad : groups.all isSymbol = false) : BadGroups input := by
  have hlen := h.length_eq
  refine ⟨k + g, by omega, ?_⟩
  rw [h.holds.groups_eq h.opened hk hlt hgroups, List.all_append, hbad, Bool.and_false]

/-- A good bulk pass keeps the unit receiving the same stream (rules R123, R136). -/
theorem DecUnit.Receiving.goodBulk (h : d.Receiving c input) {k g : Nat} {m' : Memory} {groups : List Byte}
    (hk : d.streamPos.toNat = 4 * k) (hd : d.decodePos.toNat = 3 * k) (hlt : 4 * (k + g) < d.writePos.toNat)
    (hgroups : d.buf.readBytes? (4 * k) (4 * g) = some groups) (hframe : BulkFrame g (3 * k) d.buf m')
    (hgood : groups.all isSymbol = true) (hdata : m'.readBytes? (3 * k) (3 * g) = some (decodedGroups groups)) :
    DecUnit.Receiving c { d with
      buf := m', streamPos := BitVec.ofNat 32 (4 * (k + g)), decodePos := BitVec.ofNat 32 (3 * (k + g)) } input where
  inv := (h.inv.afterBulk hk hd hlt hframe (ph := d.phase) (by simp [h.opened])).2
  opened := h.opened
  holds := h.holds.goodBulk h.opened hk hd hlt hgroups hframe hgood hdata
  pending := .inr (by
    have hw := d.writePos.isLt
    simp only [BitVec.toNat_ofNat]; omega)

/-- The append of `DEC.PUT` keeps the unit receiving (rule R122). -/
theorem DecUnit.Receiving.append (h : d.Receiving c input) {chunk : List Byte}
    (hcap : d.writePos.toNat + chunk.length ≤ d.capacity.toNat) :
    DecUnit.Receiving c { d with
      buf := d.buf.writeBytes d.writePos.toNat chunk
      writePos := BitVec.ofNat 32 (d.writePos.toNat + chunk.length) } (input ++ chunk) := by
  obtain ⟨-, hw, hinv⟩ := h.inv.append h.opened hcap
  refine ⟨hinv, h.opened, h.holds.append h.inv h.opened hcap, ?_⟩
  have hlen := h.length_eq
  have hsp := h.inv.stream_le
  simp only [hw]
  rcases h.pending with rfl | hlt
  · cases chunk with
    | nil => exact .inl rfl
    | cons b bs => exact .inr (by simp at hlen ⊢; omega)
  · exact .inr (by omega)

/-- `DEC.PUT` of a chunk that fits, on a unit that is receiving (rules R122, R137): it goes on receiving, or a bulk pass
meets a byte of the whole groups that is no symbol. -/
theorem DecUnit.Receiving.put (hc : c.Legal) (h : d.Receiving c input) {chunk : List Byte}
    (hcap : (input ++ chunk).length ≤ d.capacity.toNat) :
    ∃ d' r, d.put c chunk = .ok (d', r) ∧ d'.capacity = d.capacity ∧
      ((r = .ok 0 [] ∧ d'.Receiving c (input ++ chunk)) ∨
       (r = .fail .invalidSymbol ∧ d'.phase = .failed ∧ d'.Holds (input ++ chunk) ∧ BadGroups (input ++ chunk))) := by
  rw [List.length_append, h.length_eq] at hcap
  have happend := h.append hcap
  obtain ⟨hbelow, hat⟩ := DecUnit.put_spec hc h.inv h.opened hcap rfl
  rcases Nat.lt_or_ge (DecUnit.pending _) c.tPut with hlt | hge
  · exact ⟨_, _, hbelow hlt, rfl, .inl ⟨rfl, happend⟩⟩
  · obtain ⟨k, g, groups, m', hk, hd, hlt, -, hgroups, hframe, hgood, hbad⟩ := hat hge
    cases hall : groups.all isSymbol with
    | true =>
      obtain ⟨hdata, hrun⟩ := hgood hall
      exact ⟨_, _, hrun, rfl, .inl ⟨rfl, happend.goodBulk hk hd hlt hgroups hframe hall hdata⟩⟩
    | false =>
      exact ⟨_, _, hbad hall, rfl, .inr ⟨rfl, rfl, happend.holds.badBulk happend.opened hd hframe,
        happend.badGroups hk hlt hgroups hall⟩⟩

/-- What `DEC.END` answers and leaves on a unit that received `input` (rules R126, R137): success and the whole decoding,
or a failure. -/
structure DecUnit.Ended (input : List Byte) (d' : DecUnit) (r : Response) : Prop where
  decoded : ∀ out, base64Decode input = some out →
    r = .ok 0 [] ∧ d'.phase = .closed ∧ d'.writePos.toNat = input.length ∧ d'.output? = some out
  rejected : base64Decode input = none → r.status = true ∧ d'.phase = .failed ∧ d'.Holds input

theorem DecUnit.Ended.of_rejected {d' : DecUnit} {r : Response} (hnone : base64Decode input = none) (hr : r.status = true)
    (hp : d'.phase = .failed) (hh : d'.Holds input) : DecUnit.Ended input d' r where
  decoded := fun out hout => by rw [hnone] at hout; cases hout
  rejected := fun _ => ⟨hr, hp, hh⟩

/-- The stream of a unit with 1 to 4 pending bytes: the committed groups, then the tail (rule R137). -/
theorem DecUnit.Receiving.base64Decode_eq (h : d.Receiving c input) (h1 : 1 ≤ d.pending) (h4 : d.pending ≤ 4) :
    ∃ groups tail, input = groups ++ tail ∧ d.buf.readBytes? d.streamPos.toNat d.pending = some tail ∧
      d.output? = some (decodedGroups groups) ∧
      base64Decode input = (decodedTail tail).map (decodedGroups groups ++ ·) := by
  obtain ⟨hlen, hpend, hall, hout⟩ := (DecUnit.holds_iff_of_opened h.opened).1 h.holds
  obtain ⟨hmod, -⟩ := h.inv.grouped (by simp [h.opened])
  have hsp := h.inv.stream_le
  unfold DecUnit.pending at h1 h4
  have hgroups : (input.take d.streamPos.toNat).length = 4 * (d.streamPos.toNat / 4) := by simp; omega
  have hdecode := base64Decode_groups_tail hgroups (t := input.drop d.streamPos.toNat) (by simp; omega) (by simp; omega)
  rw [List.take_append_drop, if_pos hall] at hdecode
  exact ⟨_, _, (List.take_append_drop _ _).symm, hpend, hout, hdecode⟩

/-- `DEC.END` after its bulk step (rules R126, R127, R137). -/
theorem DecUnit.Receiving.finish (h : d.Receiving c input) (h4 : d.pending ≤ 4) :
    ∃ d' r, d.finish c = .ok (d', r) ∧ DecUnit.Ended input d' r := by
  obtain ⟨hshort, hlong⟩ := DecUnit.finish_spec h.inv h4
  have hlen := h.length_eq
  have hfailed : DecUnit.Holds { d with phase := .failed } input := h.holds.failed h.opened
  rcases Nat.lt_or_ge d.pending 2 with h2 | h2
  case inl =>
    refine ⟨_, _, hshort h2, .of_rejected ?_ rfl rfl hfailed⟩
    rcases h.pending with rfl | hlt
    · rfl
    · obtain ⟨groups, tail, rfl, htail, -, hdecode⟩ := h.base64Decode_eq (by unfold DecUnit.pending; omega) h4
      have hshortTail : tail.length < 2 := by rw [(Memory.readBytes?_eq_some_iff.1 htail).1]; exact h2
      rw [hdecode, decodedTail_short hshortTail]; rfl
  case inr =>
    obtain ⟨groups, tail, rfl, htail, hout, hdecode⟩ := h.base64Decode_eq (by omega) h4
    obtain ⟨tail', htail', hfinish⟩ := hlong h2
    obtain rfl : tail = tail' := Option.some.inj (htail.symm.trans htail')
    cases hdec : decodedTail tail with
    | none =>
      simp only [hdec] at hfinish hdecode
      exact ⟨_, _, hfinish, .of_rejected hdecode rfl rfl hfailed⟩
    | some more =>
      simp only [hdec] at hfinish hdecode
      obtain ⟨hrun, -, hfits⟩ := hfinish
      refine ⟨_, _, hrun, ⟨fun out hsome => ?_, fun hnone => by rw [hnone] at hdecode; cases hdecode⟩⟩
      obtain rfl : decodedGroups groups ++ more = out := Option.some.inj (hdecode.symm.trans hsome)
      refine ⟨rfl, rfl, hlen.symm, ?_⟩
      have hw := d.writePos.isLt
      simp only [DecUnit.output?, BitVec.toNat_ofNat, Nat.mod_eq_of_lt (show d.decodePos.toNat + more.length < 2 ^ 32 by omega)]
      refine Memory.readBytes?_append ?_ (by rw [Nat.zero_add]; exact Memory.readBytes?_writeBytes_same ..)
      rw [Memory.readBytes?_writeBytes_of_outside _ _ _ _ _ (by omega)]
      exact hout

/-- `DEC.END` on a unit that is receiving (rules R126, R137). -/
theorem DecUnit.Receiving.close (h : d.Receiving c input) :
    ∃ d' r, d.close c = .ok (d', r) ∧ DecUnit.Ended input d' r := by
  obtain ⟨hdirect, hbulk⟩ := DecUnit.close_spec h.inv h.opened
  rcases Nat.lt_or_ge 4 d.pending with h4 | h4
  case inr => rw [hdirect h4]; exact h.finish h4
  case inl =>
    obtain ⟨k, g, groups, m', hk, hd, hlt, hub, hgroups, hframe, hgood, hbad⟩ := hbulk h4
    cases hall : groups.all isSymbol with
    | true =>
      obtain ⟨hdata, hrun⟩ := hgood hall
      rw [hrun]
      refine (h.goodBulk hk hd hlt hgroups hframe hall hdata).finish ?_
      have hw := d.writePos.isLt
      simp only [DecUnit.pending, BitVec.toNat_ofNat]
      omega
    | false =>
      exact ⟨_, _, hbad hall, .of_rejected (h.badGroups hk hlt hgroups hall).base64Decode_eq_none rfl rfl
        (h.holds.badBulk h.opened hd hframe)⟩

/-- `DEC.END` on an empty stream (rules R126, R182). -/
theorem DecUnit.Receiving.close_nil (h : d.Receiving c []) : d.close c = .ok (d.raise .incompleteTrailer) := by
  have hlen := h.length_eq
  have hpend : d.pending = 0 := by
    simp only [List.length_nil] at hlen
    unfold DecUnit.pending; omega
  obtain ⟨hdirect, -⟩ := DecUnit.close_spec h.inv h.opened
  obtain ⟨hshort, -⟩ := DecUnit.finish_spec h.inv (by omega)
  rw [hdirect (by omega), hshort (by omega)]

end Receiving

end Sys2Proof.Machine
end

section
/-! Runs of decoder commands (rules R135 to R138, R192): `init`, any chunks put, `end`. The answers are those of the base64
text the chunks make up, and with the laws of `E(b)` this settles the obligations about encoded texts. -/

namespace Sys2Proof

open Machine

section ExecAll
variable {i : Instr} {cmds : List Instr} {s t : State}

theorem execAll_cons (h : exec i s = .next t) : execAll (i :: cmds) s = execAll cmds t := by
  rw [execAll, h]

end ExecAll

@[simp] theorem allOk_cons (r : Response) (rs : List Response) : allOk (r :: rs) = (!r.status && allOk rs) := rfl

@[simp] theorem allOk_nil : allOk [] = true := rfl

/-- How a run of decoder commands that ends with `end` answers the byte stream it put (rule R137): all succeed and the output
is the decoding, or the stream is no base64 text and some command fails. -/
structure StreamEnded (stream : List Byte) (t : State) (rs : List Response) : Prop where
  decoded : ∀ out, base64Decode stream = some out → allOk rs = true ∧ t.dec.phase = .closed ∧
    t.dec.writePos.toNat = stream.length ∧ t.dec.output? = some out
  rejected : base64Decode stream = none → allOk rs = false ∧ t.dec.phase = .failed

/-- One more success before the others keeps the answer. -/
theorem StreamEnded.cons_ok {stream : List Byte} {t : State} {rs : List Response} (h : StreamEnded stream t rs) :
    StreamEnded stream t (.ok 0 [] :: rs) where
  decoded := fun out hout => by simpa [Response.status] using h.decoded out hout
  rejected := fun hnone => by simpa [Response.status] using h.rejected hnone

/-- The run of `end` alone. -/
theorem StreamEnded.of_ended {stream : List Byte} {t : State} {r : Response} (h : DecUnit.Ended stream t.dec r) :
    StreamEnded stream t [r] where
  decoded := fun out hout => by
    obtain ⟨rfl, hrest⟩ := h.decoded out hout
    exact ⟨rfl, hrest⟩
  rejected := fun hnone => by
    obtain ⟨hr, hp, -⟩ := h.rejected hnone
    exact ⟨by simp [hr], hp⟩

/-- A failure first, on a stream that is no base64 text; what the later commands answer does not matter. -/
theorem StreamEnded.of_rejected {stream : List Byte} {t : State} {r : Response} {rs : List Response}
    (hnone : base64Decode stream = none) (hr : r.status = true) (hp : t.dec.phase = .failed) :
    StreamEnded stream t (r :: rs) where
  decoded := fun out hout => by rw [hnone] at hout; cases hout
  rejected := fun _ => ⟨by simp [hr], hp⟩

section Stream
variable {input : List Byte} {s : State}

/-- The state a decoder command leaves when its unit answers. -/
theorem exists_answerDec (s : State) (d : DecUnit) (r : Response) : ∃ t, answerDec s (.ok (d, r)) = .next t ∧
    t.dec = d ∧ t.cfg = s.cfg ∧ t.decRsp = s.decRsp ++ [r] :=
  ⟨_, answerDec_ok s d r, rfl, rfl, rfl⟩

/-- `DEC.INIT` that fits opens an empty stream with the capacity it names (rule R121). -/
theorem exec_decInit_receiving (hs : s.Inv) {size : Word} (hfit : decNeed s.cfg size.toNat ≤ s.cfg.memMax) :
    ∃ t, exec (.decInit size) s = .next t ∧ t.cfg = s.cfg ∧ t.decRsp = s.decRsp ++ [.ok 0 []] ∧
      t.dec.Receiving s.cfg [] ∧ t.dec.capacity.toNat = capacityFor size.toNat := by
  have hinv := hs.dec.init hs.cfg size
  obtain ⟨hpage, -, -, -, hmax⟩ := hs.cfg
  rw [exec_decInit]
  rw [DecUnit.init_of_le hfit] at hinv ⊢
  refine ⟨_, answerDec_ok .., rfl, rfl, DecUnit.receiving_nil hinv rfl rfl rfl rfl, ?_⟩
  show (BitVec.ofNat 32 (capacityFor size.toNat)).toNat = capacityFor size.toNat
  rw [BitVec.toNat_ofNat, Nat.mod_eq_of_lt]
  have : capacityFor size.toNat ≤ decNeed s.cfg size.toNat := Nat.le_add_right ..
  omega

/-- `DEC.PUT` of a chunk that fits, on a core whose decoder is receiving (rules R122, R137). -/
theorem exec_decPut_receiving (hc : s.cfg.Legal) (h : s.dec.Receiving s.cfg input) {chunk : List Byte}
    (hcap : (input ++ chunk).length ≤ s.dec.capacity.toNat) :
    ∃ t r, exec (.decPut chunk) s = .next t ∧ t.cfg = s.cfg ∧ t.decRsp = s.decRsp ++ [r] ∧
      t.dec.capacity = s.dec.capacity ∧
      ((r = .ok 0 [] ∧ t.dec.Receiving s.cfg (input ++ chunk)) ∨
       (r.status = true ∧ t.dec.phase = .failed ∧ BadGroups (input ++ chunk))) := by
  obtain ⟨d, r, hput, hcapacity, hcases⟩ := h.put hc hcap
  obtain ⟨t, ht, rfl, hcfg, hrsp⟩ := exists_answerDec s d r
  refine ⟨t, r, by rw [exec_decPut, hput, ht], hcfg, hrsp, hcapacity, hcases.imp_right ?_⟩
  rintro ⟨rfl, hp, -, hbad⟩
  exact ⟨rfl, hp, hbad⟩

/-- `DEC.END` on a core whose decoder is receiving (rules R126, R137). -/
theorem exec_decEnd_receiving (h : s.dec.Receiving s.cfg input) (a : Word) :
    ∃ t r, exec (.decEnd a) s = .next t ∧ t.cfg = s.cfg ∧ t.decRsp = s.decRsp ++ [r] ∧ DecUnit.Ended input t.dec r := by
  obtain ⟨d, r, hclose, hended⟩ := h.close
  obtain ⟨t, ht, rfl, hcfg, hrsp⟩ := exists_answerDec s d r
  exact ⟨t, r, by rw [exec_decEnd, hclose, ht], hcfg, hrsp, hended⟩

/-- `put` and `end` outside phase OPEN fail and leave the unit as it is (rule R184). -/
theorem exec_of_not_opened (hp : s.dec.phase ≠ .opened) {i : Instr} (hi : i.op = .decPut ∨ i.op = .decEnd) :
    exec i s = .next (State.respond .dec (.fail .phase) s) := by
  have hraise : answerDec s (.ok (s.dec.raise .phase)) = .next (State.respond .dec (.fail .phase) s) := rfl
  cases i <;> simp only [Instr.op, reduceCtorEq, or_self] at hi
  case decPut chunk => rw [exec_decPut, DecUnit.put, if_pos hp, hraise]
  case decEnd arg => rw [exec_decEnd, DecUnit.close, if_pos hp, hraise]

/-- Any number of them (rule R192). -/
theorem execAll_of_not_opened {cmds : List Instr} (hp : s.dec.phase ≠ .opened)
    (hcmds : ∀ i ∈ cmds, i.op = .decPut ∨ i.op = .decEnd) :
    ∃ t rs, execAll cmds s = .next t ∧ t.dec = s.dec ∧ t.decRsp = s.decRsp ++ rs ∧ rs.length = cmds.length := by
  induction cmds generalizing s with
  | nil => exact ⟨s, [], rfl, rfl, by simp, rfl⟩
  | cons i cmds ih =>
    obtain ⟨hi, hrest⟩ := List.forall_mem_cons.1 hcmds
    rw [execAll_cons (exec_of_not_opened hp hi)]
    obtain ⟨t, rs, hrun, hdec, hrsp, hlen⟩ := ih (s := State.respond .dec (.fail .phase) s) (by simpa using hp) hrest
    exact ⟨t, .fail .phase :: rs, hrun, by rw [hdec, State.respond_dec], by rw [hrsp, State.respond_dec_decRsp]; simp,
      by simp [hlen]⟩

theorem op_of_mem_puts_end {chunks : List (List Byte)} (a : Word) :
    ∀ i ∈ chunks.map Instr.decPut ++ [.decEnd a], i.op = .decPut ∨ i.op = .decEnd := by
  intro i hi
  rcases List.mem_append.1 hi with hput | hend
  · obtain ⟨chunk, -, rfl⟩ := List.mem_map.1 hput
    exact .inl rfl
  · obtain rfl := List.mem_singleton.1 hend
    exact .inr rfl

/-- Chunks put and `end`, on a core whose decoder is receiving (rule R137): every command succeeds exactly when the whole
stream is base64. -/
theorem execAll_puts_end (hc : s.cfg.Legal) (h : s.dec.Receiving s.cfg input) {chunks : List (List Byte)} (a : Word)
    (hcap : (input ++ chunks.flatten).length ≤ s.dec.capacity.toNat) :
    ∃ t rs, execAll (chunks.map .decPut ++ [.decEnd a]) s = .next t ∧ t.decRsp = s.decRsp ++ rs ∧
      rs.length = chunks.length + 1 ∧ StreamEnded (input ++ chunks.flatten) t rs := by
  induction chunks generalizing input s with
  | nil =>
    rw [List.flatten_nil, List.append_nil]
    obtain ⟨t, r, hend, -, hrsp, hended⟩ := exec_decEnd_receiving h a
    exact ⟨t, [r], by rw [List.map_nil, List.nil_append, execAll_cons hend, execAll], hrsp, rfl, .of_ended hended⟩
  | cons chunk chunks ih =>
    rw [List.flatten_cons, ← List.append_assoc] at hcap ⊢
    obtain ⟨u, r, hput, hcfg, hrsp, hcapacity, hcases⟩ := exec_decPut_receiving hc h (chunk := chunk)
      (by rw [List.length_append] at hcap; omega)
    rw [List.map_cons, List.cons_append, execAll_cons hput]
    rcases hcases with ⟨rfl, hrecv⟩ | ⟨hr, hp, hbad⟩
    · obtain ⟨t, rs, hrun, hrsp', hlen, hended⟩ :=
        ih (s := u) (hcfg ▸ hc) (hcfg ▸ hrecv) (by rw [hcapacity]; exact hcap)
      exact ⟨t, .ok 0 [] :: rs, hrun, by rw [hrsp', hrsp]; simp, by simp [hlen], hended.cons_ok⟩
    · obtain ⟨t, rs, hrun, hdec, hrsp', hlen⟩ := execAll_of_not_opened (s := u)
        (cmds := chunks.map .decPut ++ [.decEnd a]) (by simp [hp]) (op_of_mem_puts_end a)
      have hnone := (hbad.append chunks.flatten).base64Decode_eq_none
      exact ⟨t, r :: rs, hrun, by rw [hrsp', hrsp]; simp, by simpa using hlen, .of_rejected hnone hr (by rw [hdec, hp])⟩

/-- A whole stream from `init` to `end` (rule R137): its answers depend on the bytes and not on the chunks. -/
theorem execAll_stream (hs : s.Inv) {size : Word} (a : Word) {chunks : List (List Byte)}
    (hfit : decNeed s.cfg size.toNat ≤ s.cfg.memMax) (hcap : chunks.flatten.length ≤ capacityFor size.toNat) :
    ∃ t rs, execAll (.decInit size :: (chunks.map .decPut ++ [.decEnd a])) s = .next t ∧ t.decRsp = s.decRsp ++ rs ∧
      rs.length = chunks.length + 2 ∧ StreamEnded chunks.flatten t rs := by
  obtain ⟨u, hinit, hcfg, hrsp, hrecv, hcapacity⟩ := exec_decInit_receiving hs hfit
  obtain ⟨t, rs, hrun, hrsp', hlen, hended⟩ :=
    execAll_puts_end (s := u) (hcfg ▸ hs.cfg) (hcfg ▸ hrecv) a (chunks := chunks) (by rw [hcapacity]; exact hcap)
  exact ⟨t, .ok 0 [] :: rs, by rw [execAll_cons hinit, hrun], by rw [hrsp', hrsp]; simp, by simp [hlen],
    hended.cons_ok⟩

end Stream

/-- Settles O57: without its pads the text still decodes to the source. -/
theorem unpaddedTextDecodes : Obligations.UnpaddedTextDecodes := by
  unfold Obligations.UnpaddedTextDecodes
  intro source size a chunks s hs hne hfit hcap hchunks
  have hdecode : base64Decode chunks.flatten = some source := by rw [hchunks, base64Decode_unpadded hne]
  have hlen : chunks.flatten.length ≤ encOutLen source.length := by
    rw [hchunks, ← length_base64Encode]; exact List.length_filter_le ..
  obtain ⟨t, rs, hrun, hrsp, -, hended⟩ := execAll_stream hs a hfit (Nat.le_trans hlen hcap)
  obtain ⟨hok, -, -, hout⟩ := hended.decoded source hdecode
  exact ⟨t, rs, hrun, hrsp, hok, hout⟩

/-- Settles O58: the corrupted text is no base64 text. -/
theorem corruptedTextIsRejected : Obligations.CorruptedTextIsRejected := by
  unfold Obligations.CorruptedTextIsRejected
  intro source j x size a chunks s hs hfit hcap hj hx hpad hchunks
  have hdecode : base64Decode chunks.flatten = none := by rw [hchunks, base64Decode_corrupted hj hx hpad]
  have hlen : chunks.flatten.length = encOutLen source.length := by
    rw [hchunks, List.length_set, length_base64Encode]
  obtain ⟨t, rs, hrun, hrsp, -, hended⟩ := execAll_stream hs a hfit (hlen ▸ hcap)
  obtain ⟨hfail, hp⟩ := hended.rejected hdecode
  exact ⟨t, rs, hrun, hrsp, hfail, hp⟩

/-- `DEC.DATA` answers an output it knows, with its length (rule R128). -/
theorem exec_decData_output {s : State} (hs : s.dec.Inv s.cfg) (a : Word) {out : List Byte} (h : s.dec.output? = some out) :
    exec (.decData a) s = .next (State.respond .dec (.ok (BitVec.ofNat 32 out.length) out) s) := by
  obtain ⟨bytes, hbytes, hdata⟩ := hs.data_eq
  obtain rfl : out = bytes := Option.some.inj (h.symm.trans hbytes)
  have hlen : out.length = s.dec.decodePos.toNat := (Memory.readBytes?_eq_some_iff.1 h).1
  rw [exec_decData, hdata, answerDec_ok, hlen, BitVec.ofNat_toNat, BitVec.setWidth_eq]

/-- No bulk pass over the text of a source meets a byte that is no symbol (rule R88). -/
theorem not_badGroups_base64Encode (source : List Byte) : ¬ BadGroups (base64Encode source) := by
  intro hbad
  have hne : source ≠ [] := by rintro rfl; exact hbad.ne_nil rfl
  have hdecode := base64Decode_base64Encode hne
  rw [hbad.base64Decode_eq_none] at hdecode
  cases hdecode

/-- `DEC.END` after the text of a source: the output is the source; it fails only on the empty one, which has no last group
(rules R88, R182). -/
theorem exec_decEnd_encoded {s : State} {source : List Byte} (h : s.dec.Receiving s.cfg (base64Encode source)) (a : Word) :
    ∃ t, exec (.decEnd a) s = .next t ∧
      t.decRsp = s.decRsp ++ [if source = [] then .fail .incompleteTrailer else .ok 0 []] ∧ t.dec.output? = some source := by
  by_cases hne : source = []
  case pos =>
    subst hne
    obtain ⟨-, -, hout⟩ := (DecUnit.holds_iff_of_failed rfl).1 (h.holds.failed h.opened)
    rw [base64Encode, List.take_nil] at hout
    obtain ⟨t, ht, hdec, -, hrsp⟩ := exists_answerDec s (s.dec.raise .incompleteTrailer).1 (.fail .incompleteTrailer)
    refine ⟨t, ?_, hrsp, by rw [hdec]; exact hout⟩
    rw [exec_decEnd, DecUnit.Receiving.close_nil h]
    exact ht
  case neg =>
    obtain ⟨t, r, hend, -, hrsp, hended⟩ := exec_decEnd_receiving h a
    obtain ⟨rfl, -, -, hout⟩ := hended.decoded source (base64Decode_base64Encode hne)
    exact ⟨t, hend, by rw [hrsp, if_neg hne], hout⟩

/-- Settles O56: the encoder leaves the decoder alone, the text fits and goes through the decoder's four commands. -/
theorem roundTrip : Obligations.RoundTrip := by
  unfold Obligations.RoundTrip
  intro source size a a' s hs henc hfit hcap
  obtain ⟨e, hrun, -⟩ := EncUnit.encode_spec hs.cfg hs.enc henc
  let val := BitVec.ofNat 32 (encOutLen source.length)
  let text := base64Encode source
  let t := State.respond .enc (.ok val text) { s with enc := e }
  have ht : exec (.encEncode source) s = .next t := by rw [exec_encEncode, hrun, answerEnc_ok]
  have htInv : t.Inv := hs.exec ht
  obtain ⟨u₁, hinit, hcfg₁, hrsp₁, hrecv₁, hcap₁⟩ := exec_decInit_receiving htInv hfit
  have hu₁ : u₁.Inv := htInv.exec hinit
  obtain ⟨u₂, r, hput, hcfg₂, hrsp₂, -, hcases⟩ := exec_decPut_receiving hu₁.cfg (hcfg₁ ▸ hrecv₁) (chunk := text)
    (by rw [hcap₁, List.nil_append, length_base64Encode]; exact hcap)
  have hu₂ : u₂.Inv := hu₁.exec hput
  obtain ⟨rfl, hrecv₂⟩ := hcases.resolve_right fun ⟨_, _, hbad⟩ => not_badGroups_base64Encode source hbad
  obtain ⟨u₃, hend, hrsp₃, hout⟩ := exec_decEnd_encoded (hcfg₂ ▸ hrecv₂) a
  have hu₃ : u₃.Inv := hu₂.exec hend
  have hdata := exec_decData_output hu₃.dec a' hout
  refine ⟨t, State.respond .dec (.ok (BitVec.ofNat 32 source.length) source) u₃, val, text, ht, rfl, ?run, ?responses⟩
  case run => rw [execAll_cons hinit, execAll_cons hput, execAll_cons hend, execAll_cons hdata, execAll]
  case responses =>
    rw [State.respond_dec_decRsp, hrsp₃, hrsp₂, hrsp₁]
    simp [t]

end Sys2Proof
end

section
/-! The bulk pass over pending bytes that are known (rules R122, R123, R126): `DEC.PUT` at the threshold and `DEC.END` run the
same pass, so what it reads, commits and leaves alone is said once for both. -/

namespace Sys2Proof.Machine

/-- The next decoder unit is the one the command's function answers. -/
theorem ok_of_answerDec {s t : State} {a : Except Fault (DecUnit × Response)} (h : answerDec s a = .next t) :
    ∃ r, a = .ok (t.dec, r) := by
  obtain ⟨d, r, ha, rfl⟩ := answerDec_eq_next_iff.1 h
  exact ⟨r, ha⟩

/-- An encoder command leaves the decoder (rule R65). -/
theorem dec_of_answerEnc {s t : State} {a : Except Fault (EncUnit × Response)} (h : answerEnc s a = .next t) :
    t.dec = s.dec := by
  obtain ⟨e, r, -, rfl⟩ := answerEnc_eq_next_iff.1 h
  rfl

/-- A pass over no group stores nothing; any other stores the fourth byte of its last word too (rules R54, R123). -/
theorem BulkFrame.read?_of_outside {g o x : Nat} {m m' : Memory} (h : BulkFrame g o m m')
    (hx : ¬(o ≤ x ∧ x < o + passStores g)) : m'.read? x = m.read? x := by
  refine h.unchanged x ?_
  unfold passStores at hx
  split at hx <;> omega

/-- What lies below the output position of a pass stays. -/
theorem BulkFrame.readBytes?_below {g o n : Nat} {m m' : Memory} (h : BulkFrame g o m m') (hn : n ≤ o) :
    m'.readBytes? 0 n = m.readBytes? 0 n :=
  Memory.readBytes?_congr fun i hi => h.unchanged _ (by omega)

/-- The bulk pass of a unit with `k` groups committed over its next `g` groups, whose bytes are `groups`; it leaves the
buffer `m'` (rule R123). -/
structure DecUnit.BulkRun (d : DecUnit) (k g : Nat) (groups : List Byte) (m' : Memory) : Prop where
  stream : d.streamPos.toNat = 4 * k
  decoded : d.decodePos.toNat = 3 * k
  tail : tailStart d.pending = 4 * g
  read : d.buf.readBytes? (4 * k) (4 * g) = some groups
  data : groups.all isSymbol = true → m'.readBytes? (3 * k) (3 * g) = some (decodedGroups groups)
  frame : BulkFrame g (3 * k) d.buf m'

/-- The unit after a pass that is good: the groups are committed (rule R123). -/
def DecUnit.afterPass (d : DecUnit) (k g : Nat) (m' : Memory) : DecUnit :=
  { d with buf := m', streamPos := BitVec.ofNat 32 (4 * (k + g)), decodePos := BitVec.ofNat 32 (3 * (k + g)) }

/-- The unit after the append of `DEC.PUT` (rule R122). -/
def DecUnit.appended (d : DecUnit) (chunk : List Byte) : DecUnit :=
  { d with
    buf := d.buf.writeBytes d.writePos.toNat chunk
    writePos := BitVec.ofNat 32 (d.writePos.toNat + chunk.length) }

section BulkRun
variable {c : Config} {d : DecUnit} {k g : Nat} {groups pending : List Byte} {m' : Memory}

/-- The tail behind the whole groups of `n` bytes has at most 4 bytes (rule R137). -/
theorem tailStart_bounds (n : Nat) : tailStart n ≤ n ∧ n ≤ tailStart n + 4 := by
  unfold tailStart; omega

theorem DecUnit.BulkRun.bounds (h : d.BulkRun k g groups m') (hinv : d.Inv c) :
    4 * (k + g) ≤ d.writePos.toNat ∧ d.writePos.toNat ≤ 4 * (k + g) + 4 := by
  have hle := hinv.stream_le
  have hstream := h.stream
  have hbounds := tailStart_bounds d.pending
  rw [h.tail] at hbounds
  unfold DecUnit.pending at *
  omega

/-- With bytes pending a pass leaves at least one (rule R123). -/
theorem DecUnit.BulkRun.lt_writePos (h : d.BulkRun k g groups m') (hpos : 0 < d.pending) :
    4 * (k + g) < d.writePos.toNat := by
  have hstream := h.stream
  have htail := h.tail
  unfold tailStart at htail
  unfold DecUnit.pending at *
  omega

theorem DecUnit.BulkRun.length_groups (h : d.BulkRun k g groups m') : groups.length = 4 * g :=
  (Memory.readBytes?_eq_some_iff.1 h.read).1

/-- The groups of the pass are the whole groups of the pending bytes (rules R123, R137). -/
theorem DecUnit.BulkRun.groups_eq (h : d.BulkRun k g groups m')
    (hpend : d.buf.readBytes? d.streamPos.toNat d.pending = some pending) :
    pending.take (tailStart pending.length) = groups := by
  have hlen := (Memory.readBytes?_eq_some_iff.1 hpend).1
  have hle := (tailStart_bounds d.pending).1
  rw [h.tail] at hle
  have htake := Memory.readBytes?_take hpend hle
  rw [h.stream, h.read] at htake
  rw [hlen, h.tail]
  exact (Option.some.inj htake).symm

theorem DecUnit.BulkRun.toNat_streamPos (h : d.BulkRun k g groups m') (hinv : d.Inv c) :
    (d.afterPass k g m').streamPos.toNat = d.streamPos.toNat + groups.length := by
  have hw := d.writePos.isLt
  obtain ⟨hle, -⟩ := h.bounds hinv
  rw [h.length_groups, h.stream]
  simp only [DecUnit.afterPass, BitVec.toNat_ofNat]
  omega

theorem DecUnit.BulkRun.toNat_decodePos (h : d.BulkRun k g groups m') (hinv : d.Inv c) :
    (d.afterPass k g m').decodePos.toNat = d.decodePos.toNat + 3 * (groups.length / 4) := by
  have hw := d.writePos.isLt
  obtain ⟨hle, -⟩ := h.bounds hinv
  rw [h.length_groups, h.decoded]
  simp only [DecUnit.afterPass, BitVec.toNat_ofNat]
  omega

theorem DecUnit.BulkRun.pending_afterPass (h : d.BulkRun k g groups m') (hinv : d.Inv c) :
    (d.afterPass k g m').pending = d.pending - groups.length ∧ (d.afterPass k g m').pending ≤ 4 := by
  obtain ⟨-, hub⟩ := h.bounds hinv
  have hsp := h.toNat_streamPos hinv
  have hlen := h.length_groups
  have hstream := h.stream
  have hw : (d.afterPass k g m').writePos = d.writePos := rfl
  unfold DecUnit.pending
  rw [hw]
  omega

/-- The pass leaves the bytes behind its groups pending (rule R123). -/
theorem DecUnit.BulkRun.rest_pending (h : d.BulkRun k g groups m') (hinv : d.Inv c)
    (hpend : d.buf.readBytes? d.streamPos.toNat d.pending = some pending) :
    (d.afterPass k g m').buf.readBytes? (d.afterPass k g m').streamPos.toNat (d.afterPass k g m').pending =
      some (pending.drop groups.length) := by
  obtain ⟨hle, -⟩ := h.bounds hinv
  have hlen := h.length_groups
  have hstream := h.stream
  rw [h.toNat_streamPos hinv, (h.pending_afterPass hinv).1,
    ← Memory.readBytes?_drop hpend (k := groups.length) (by unfold DecUnit.pending; omega)]
  exact Memory.readBytes?_congr fun i _ => h.frame.unchanged _ (by omega)

/-- A good pass adds the bytes of its groups to the output (rule R123). -/
theorem DecUnit.BulkRun.output_afterPass (h : d.BulkRun k g groups m') (hinv : d.Inv c)
    (hgood : groups.all isSymbol = true) :
    (d.afterPass k g m').output? = d.output?.map (· ++ decodedGroups groups) := by
  obtain ⟨out, hout, -⟩ := hinv.data_eq
  have hlen := h.length_groups
  have hbelow : m'.readBytes? 0 (3 * k) = some out := by
    rw [h.frame.readBytes?_below (Nat.le_refl _), ← h.decoded]; exact hout
  have hall := Memory.readBytes?_append hbelow (by rw [Nat.zero_add]; exact h.data hgood)
  rw [hout, DecUnit.output?, h.toNat_decodePos hinv, h.decoded, hlen, Nat.mul_div_cancel_left g (by decide)]
  exact hall

/-- A pass that is not committed leaves the output (rules R32, R123). -/
theorem DecUnit.BulkRun.output_kept (h : d.BulkRun k g groups m') : m'.readBytes? 0 d.decodePos.toNat = d.output? :=
  h.frame.readBytes?_below (Nat.le_of_eq h.decoded)

/-- No byte changes but those the pass stores (rules R54, R123). -/
theorem DecUnit.BulkRun.read?_of_outside (h : d.BulkRun k g groups m') {x : Nat}
    (hx : ¬(d.decodePos.toNat ≤ x ∧ x < d.decodePos.toNat + passStores (groups.length / 4))) :
    m'.read? x = d.buf.read? x := by
  rw [h.length_groups, Nat.mul_div_cancel_left g (by decide), h.decoded] at hx
  exact h.frame.read?_of_outside hx

/-- No group is between the cursors of an OPEN unit with at most 4 bytes pending: the pass that reads nothing and commits
nothing. -/
theorem DecUnit.Inv.emptyRun (hinv : d.Inv c) (hp : d.phase = .opened) (h4 : d.pending ≤ 4) :
    ∃ k, d.BulkRun k 0 [] d.buf ∧ d.afterPass k 0 d.buf = d := by
  obtain ⟨hmod, hdp⟩ := hinv.grouped (by simp [hp])
  have hstream : 4 * (d.streamPos.toNat / 4) = d.streamPos.toNat := by omega
  have hdecoded : 3 * (d.streamPos.toNat / 4) = d.decodePos.toNat := by omega
  refine ⟨d.streamPos.toNat / 4, ⟨hstream.symm, hdecoded.symm, ?tail, rfl, fun _ => rfl, ?frame⟩, ?same⟩
  case tail => unfold tailStart; omega
  case frame => exact ⟨fun _ _ => rfl, id, fun _ h => h⟩
  case same =>
    unfold DecUnit.afterPass
    simp only [Nat.add_zero, hstream, hdecoded, BitVec.ofNat_toNat, BitVec.setWidth_eq]

/-- The facts the laws of `put` and `end` give of their pass (rule R123). -/
theorem DecUnit.bulkRun_of_pass (hk : d.streamPos.toNat = 4 * k) (hd : d.decodePos.toNat = 3 * k)
    (hlt : 4 * (k + g) < d.writePos.toNat) (hub : d.writePos.toNat ≤ 4 * (k + g) + 4)
    (hread : d.buf.readBytes? (4 * k) (4 * g) = some groups) (hframe : BulkFrame g (3 * k) d.buf m')
    (hdata : groups.all isSymbol = true → m'.readBytes? (3 * k) (3 * g) = some (decodedGroups groups)) :
    d.BulkRun k g groups m' where
  stream := hk
  decoded := hd
  tail := by unfold tailStart DecUnit.pending; omega
  read := hread
  data := hdata
  frame := hframe

end BulkRun

section Put
variable {c : Config} {d : DecUnit} {chunk pending : List Byte}

theorem DecUnit.Inv.toNat_writePos_appended (h : d.Inv c) (hp : d.phase = .opened)
    (hcap : d.writePos.toNat + chunk.length ≤ d.capacity.toNat) :
    (d.appended chunk).writePos.toNat = d.writePos.toNat + chunk.length :=
  have ⟨_, hw, _⟩ := h.append hp hcap
  hw

theorem DecUnit.Inv.appended (h : d.Inv c) (hp : d.phase = .opened)
    (hcap : d.writePos.toNat + chunk.length ≤ d.capacity.toNat) : (d.appended chunk).Inv c :=
  have ⟨_, _, hinv⟩ := h.append hp hcap
  hinv

theorem DecUnit.Inv.pending_appended (h : d.Inv c) (hp : d.phase = .opened)
    (hcap : d.writePos.toNat + chunk.length ≤ d.capacity.toNat) :
    (d.appended chunk).pending = d.writePos.toNat + chunk.length - d.streamPos.toNat := by
  rw [DecUnit.pending, h.toNat_writePos_appended hp hcap]
  rfl

/-- The chunk joins the pending bytes (rule R122). -/
theorem DecUnit.Inv.readBytes?_appended (h : d.Inv c) (hp : d.phase = .opened)
    (hcap : d.writePos.toNat + chunk.length ≤ d.capacity.toNat)
    (hpend : d.buf.readBytes? d.streamPos.toNat d.pending = some pending) :
    (d.appended chunk).buf.readBytes? (d.appended chunk).streamPos.toNat (d.appended chunk).pending =
      some (pending ++ chunk) := by
  have hsp := h.stream_le
  have hlen : d.pending = d.writePos.toNat - d.streamPos.toNat := rfl
  have hold : (d.appended chunk).buf.readBytes? d.streamPos.toNat d.pending = some pending := by
    rw [← hpend]
    exact Memory.readBytes?_writeBytes_of_outside _ _ _ _ _ (by omega)
  have hnew : (d.appended chunk).buf.readBytes? (d.streamPos.toNat + d.pending) chunk.length = some chunk := by
    rw [show d.streamPos.toNat + d.pending = d.writePos.toNat by omega]
    exact Memory.readBytes?_writeBytes_same ..
  rw [← Memory.readBytes?_append hold hnew, h.pending_appended hp hcap]
  congr 1
  omega

theorem DecUnit.read?_appended_of_outside (d : DecUnit) {x : Nat}
    (hx : x < d.writePos.toNat ∨ d.writePos.toNat + chunk.length ≤ x) :
    (d.appended chunk).buf.read? x = d.buf.read? x :=
  Memory.read?_writeBytes_of_outside _ _ _ _ hx

/-- The output lies below the pending bytes, so an append leaves it (rules R22, R122). -/
theorem DecUnit.Inv.output_appended (h : d.Inv c) (chunk : List Byte) : (d.appended chunk).output? = d.output? := by
  have hdp := h.decoded_le
  have hsp := h.stream_le
  refine Memory.readBytes?_writeBytes_of_outside _ _ _ _ _ (.inl ?_)
  show 0 + d.decodePos.toNat ≤ d.writePos.toNat
  omega

/-- `DEC.PUT` of a chunk that fits, at the threshold (rules R122, R123): its pass is good exactly when all its groups are
symbols. -/
theorem DecUnit.Inv.put_run (hc : c.Legal) (h : d.Inv c) (hp : d.phase = .opened)
    (hcap : d.writePos.toNat + chunk.length ≤ d.capacity.toNat) (hat : c.tPut ≤ (d.appended chunk).pending) :
    ∃ k g groups m', (d.appended chunk).BulkRun k g groups m' ∧
      (groups.all isSymbol = true → d.put c chunk = .ok ((d.appended chunk).afterPass k g m', .ok 0 [])) ∧
      (groups.all isSymbol = false →
        d.put c chunk = .ok (DecUnit.raise { d.appended chunk with buf := m' } .invalidSymbol)) := by
  obtain ⟨-, hpass⟩ := DecUnit.put_spec hc h hp hcap (d1 := d.appended chunk) rfl
  obtain ⟨k, g, groups, m', hk, hd, hlt, hub, hread, hframe, hgood, hbad⟩ := hpass hat
  exact ⟨k, g, groups, m', DecUnit.bulkRun_of_pass hk hd hlt hub hread hframe fun hall => (hgood hall).1,
    fun hall => (hgood hall).2, hbad⟩

theorem DecUnit.Inv.put_below (hc : c.Legal) (h : d.Inv c) (hp : d.phase = .opened)
    (hcap : d.writePos.toNat + chunk.length ≤ d.capacity.toNat) (hbelow : (d.appended chunk).pending < c.tPut) :
    d.put c chunk = .ok (d.appended chunk, .ok 0 []) :=
  (DecUnit.put_spec hc h hp hcap (d1 := d.appended chunk) rfl).1 hbelow

/-- `DEC.PUT` outside phase OPEN (rule R184). -/
theorem DecUnit.put_of_not_opened (hp : d.phase ≠ .opened) : d.put c chunk = .ok (d, .fail .phase) :=
  if_pos hp

/-- `DEC.PUT` of a chunk that does not fit (rule R183). -/
theorem DecUnit.put_of_gt (hp : d.phase = .opened) (hcap : d.capacity.toNat < d.writePos.toNat + chunk.length) :
    d.put c chunk = .ok (d, .fail .capacity) := by
  rw [DecUnit.put, if_neg (not_not.2 hp), if_pos hcap]
  rfl

end Put

section Close
variable {c : Config} {d : DecUnit} {pending tail : List Byte}

/-- `DEC.END` outside phase OPEN (rule R184). -/
theorem DecUnit.close_of_not_opened (hp : d.phase ≠ .opened) : d.close c = .ok (d, .fail .phase) :=
  if_pos hp

/-- `DEC.END` in phase OPEN (rule R126): a pass, over no group when at most 4 bytes are pending, and then its last part. -/
theorem DecUnit.Inv.close_run (h : d.Inv c) (hp : d.phase = .opened) :
    ∃ k g groups m', d.BulkRun k g groups m' ∧
      (groups.all isSymbol = true → (d.afterPass k g m').Inv c ∧ d.close c = (d.afterPass k g m').finish c) ∧
      (groups.all isSymbol = false → d.close c = .ok (DecUnit.raise { d with buf := m' } .invalidSymbol)) := by
  obtain ⟨hdirect, hpass⟩ := DecUnit.close_spec h hp
  rcases Nat.lt_or_ge 4 d.pending with h4 | h4
  case inr =>
    obtain ⟨k, hrun, hsame⟩ := h.emptyRun hp h4
    refine ⟨k, 0, [], d.buf, hrun, fun _ => ?_, fun hall => by cases hall⟩
    rw [hsame]
    exact ⟨h, hdirect h4⟩
  case inl =>
    obtain ⟨k, g, groups, m', hk, hd, hlt, hub, hread, hframe, hgood, hbad⟩ := hpass h4
    have hinv := (h.afterBulk hk hd hlt hframe (ph := d.phase) (by simp [hp])).2
    exact ⟨k, g, groups, m', DecUnit.bulkRun_of_pass hk hd hlt hub hread hframe fun hall => (hgood hall).1,
      fun hall => ⟨hinv, (hgood hall).2⟩, hbad⟩

/-- The class of a failure that the tail gives (rules R181, R182). -/
def tailFailure (tail : List Byte) : FailClass := if tail.length < 2 then .incompleteTrailer else .invalidSymbol

/-- Both classes set FAILED (rule R189). -/
theorem DecUnit.raise_tailFailure (d : DecUnit) (tail : List Byte) :
    d.raise (tailFailure tail) = ({ d with phase := .failed }, .fail (tailFailure tail)) := by
  unfold tailFailure
  split <;> rfl

/-- The unit after `DEC.END` has added the bytes of its tail to the output (rule R126). -/
def DecUnit.closedWith (d : DecUnit) (more : List Byte) : DecUnit :=
  { d with
    buf := d.buf.writeBytes d.decodePos.toNat more
    decodePos := BitVec.ofNat 32 (d.decodePos.toNat + more.length)
    streamPos := d.writePos
    phase := .closed }

/-- The last part of `DEC.END` on a tail that is no base64 text (rules R126, R127). -/
theorem DecUnit.Inv.finish_of_bad_tail (h : d.Inv c) (h4 : d.pending ≤ 4)
    (htail : d.buf.readBytes? d.streamPos.toNat d.pending = some tail) (hnone : decodedTail tail = none) :
    d.finish c = .ok ({ d with phase := .failed }, .fail (tailFailure tail)) := by
  rw [← DecUnit.raise_tailFailure]
  have hlen := (Memory.readBytes?_eq_some_iff.1 htail).1
  obtain ⟨hshort, hlong⟩ := DecUnit.finish_spec h h4
  unfold tailFailure
  rw [hlen]
  split
  case isTrue h2 => exact hshort h2
  case isFalse h2 =>
    obtain ⟨tail', htail', hfinish⟩ := hlong (Nat.le_of_not_lt h2)
    obtain rfl : tail = tail' := Option.some.inj (htail.symm.trans htail')
    rw [hnone] at hfinish
    exact hfinish

/-- The last part of `DEC.END` on a tail that is base64 (rules R126, R127). -/
theorem DecUnit.Inv.finish_of_good_tail (h : d.Inv c) (h4 : d.pending ≤ 4)
    (htail : d.buf.readBytes? d.streamPos.toNat d.pending = some tail) {more : List Byte}
    (hsome : decodedTail tail = some more) :
    d.finish c = .ok (d.closedWith more, .ok 0 []) ∧ 1 ≤ more.length ∧
      d.decodePos.toNat + more.length < d.writePos.toNat := by
  have hlen := (Memory.readBytes?_eq_some_iff.1 htail).1
  have h2 : 2 ≤ d.pending := by
    by_contra hlt
    rw [decodedTail_short (by omega)] at hsome
    cases hsome
  obtain ⟨-, hlong⟩ := DecUnit.finish_spec h h4
  obtain ⟨tail', htail', hfinish⟩ := hlong h2
  obtain rfl : tail = tail' := Option.some.inj (htail.symm.trans htail')
  rw [hsome] at hfinish
  exact hfinish

end Close

end Sys2Proof.Machine
end

section
/-! `DEC.PUT` and `DEC.END` in phase OPEN (rules R122, R123, R126, R127, R181, R182): the answer, the cursors, the output and
the bytes that change, each settled from the laws of the append, of the pass and of the tail. -/

namespace Sys2Proof.Machine

section
variable {c : Config} {d : DecUnit} {more : List Byte}

theorem DecUnit.toNat_decodePos_closedWith (hfits : d.decodePos.toNat + more.length < d.writePos.toNat) :
    (d.closedWith more).decodePos.toNat = d.decodePos.toNat + more.length := by
  have hw := d.writePos.isLt
  simp only [DecUnit.closedWith, BitVec.toNat_ofNat]
  omega

/-- The tail's bytes follow the output (rule R126). -/
theorem DecUnit.Inv.output_closedWith (h : d.Inv c) (hfits : d.decodePos.toNat + more.length < d.writePos.toNat) :
    (d.closedWith more).output? = d.output?.map (· ++ more) := by
  obtain ⟨out, hout, -⟩ := h.data_eq
  have hbelow : (d.closedWith more).buf.readBytes? 0 d.decodePos.toNat = some out := by
    rw [← hout]
    exact Memory.readBytes?_writeBytes_of_outside _ _ _ _ _ (.inl (by omega))
  have hnew : (d.closedWith more).buf.readBytes? (0 + d.decodePos.toNat) more.length = some more := by
    rw [Nat.zero_add]
    exact Memory.readBytes?_writeBytes_same ..
  rw [DecUnit.output?, DecUnit.toNat_decodePos_closedWith hfits, hout]
  exact Memory.readBytes?_append hbelow hnew

/-- A text decodes when its whole groups are symbols and its tail decodes (rule R137). -/
theorem exists_tail_of_base64Decode {s out : List Byte} (h : base64Decode s = some out) :
    (s.take (tailStart s.length)).all isSymbol = true ∧ ∃ more, decodedTail (s.drop (tailStart s.length)) = some more ∧
      out = decodedGroups (s.take (tailStart s.length)) ++ more := by
  unfold base64Decode at h
  split at h
  case isFalse => cases h
  case isTrue hall =>
    obtain ⟨more, hmore, rfl⟩ := Option.map_eq_some_iff.1 h
    exact ⟨hall, more, hmore, rfl⟩

end

/-- Settles O25: below the threshold the unit is the one after the append. -/
theorem putBelowThresholdAppends : Obligations.PutBelowThresholdAppends := by
  unfold Obligations.PutBelowThresholdAppends
  intro chunk s hs hp hcap hbelow
  have hput : s.dec.put s.cfg chunk = .ok (s.dec.appended chunk, .ok 0 []) :=
    hs.dec.put_below hs.cfg hp hcap (by rw [hs.dec.pending_appended hp hcap]; exact hbelow)
  exact ⟨_, by rw [exec_decPut, hput, answerDec_ok], hs.dec.toNat_writePos_appended hp hcap,
    Memory.readBytes?_writeBytes_same .., fun _ hx => s.dec.read?_appended_of_outside hx, rfl⟩

section Threshold
variable {s : State} {chunk pending groups : List Byte}

/-- `DEC.PUT` at the threshold on pending bytes that are known: the pass after the append runs over the whole groups of the
pending bytes and the chunk (rules R122, R123). -/
theorem State.Inv.put_at_threshold (hs : s.Inv) (hp : s.dec.phase = .opened)
    (hcap : s.dec.writePos.toNat + chunk.length ≤ s.dec.capacity.toNat)
    (hat : s.cfg.tPut ≤ s.dec.writePos.toNat + chunk.length - s.dec.streamPos.toNat)
    (hpend : s.dec.buf.readBytes? s.dec.streamPos.toNat s.dec.pending = some pending)
    (hgroups : groups = (pending ++ chunk).take (tailStart (pending ++ chunk).length)) :
    ∃ k g m', (s.dec.appended chunk).BulkRun k g groups m' ∧
      (groups.all isSymbol = true →
        s.dec.put s.cfg chunk = .ok ((s.dec.appended chunk).afterPass k g m', .ok 0 [])) ∧
      (groups.all isSymbol = false →
        s.dec.put s.cfg chunk = .ok (DecUnit.raise { s.dec.appended chunk with buf := m' } .invalidSymbol)) := by
  obtain ⟨k, g, groups', m', hrun, hgood, hbad⟩ :=
    hs.dec.put_run hs.cfg hp hcap (by rw [hs.dec.pending_appended hp hcap]; exact hat)
  obtain rfl : groups = groups' := hgroups.trans (hrun.groups_eq (hs.dec.readBytes?_appended hp hcap hpend))
  exact ⟨k, g, m', hrun, hgood, hbad⟩

/-- The bytes a `put` with its pass leaves alone (rules R54, R122, R123). -/
theorem DecUnit.BulkRun.read?_after_append {d : DecUnit} {k g x : Nat} {m' : Memory}
    (h : (d.appended chunk).BulkRun k g groups m')
    (hchunk : ¬(d.writePos.toNat ≤ x ∧ x < d.writePos.toNat + chunk.length))
    (hpass : ¬(d.decodePos.toNat ≤ x ∧ x < d.decodePos.toNat + passStores (groups.length / 4))) :
    m'.read? x = d.buf.read? x :=
  (h.read?_of_outside hpass).trans (d.read?_appended_of_outside (by omega))

end Threshold

/-- Settles O26: the append, and then a good pass. -/
theorem putAtThresholdDecodes : Obligations.PutAtThresholdDecodes := by
  unfold Obligations.PutAtThresholdDecodes
  intro chunk pending groups s hs hp hcap hat hpend hgroups hall
  obtain ⟨k, g, m', hrun, hgood, -⟩ := hs.put_at_threshold hp hcap hat hpend hgroups
  have hinv := hs.dec.appended hp hcap
  refine ⟨_, by rw [exec_decPut, hgood hall, answerDec_ok], hs.dec.toNat_writePos_appended hp hcap,
    hrun.toNat_streamPos hinv, hrun.toNat_decodePos hinv, ?output,
    hrun.rest_pending hinv (hs.dec.readBytes?_appended hp hcap hpend), fun _ => hrun.read?_after_append, rfl⟩
  rw [← hs.dec.output_appended chunk]
  exact hrun.output_afterPass hinv hall

/-- Settles O27: the append, and then a pass that is not committed. -/
theorem putAtThresholdRejects : Obligations.PutAtThresholdRejects := by
  unfold Obligations.PutAtThresholdRejects
  intro chunk pending groups s hs hp hcap hat hpend hgroups hbad
  obtain ⟨k, g, m', hrun, -, hfails⟩ := hs.put_at_threshold hp hcap hat hpend hgroups
  refine ⟨_, by rw [exec_decPut, hfails hbad]; rfl, hs.dec.toNat_writePos_appended hp hcap, ?output,
    fun _ => hrun.read?_after_append, rfl⟩
  rw [← hs.dec.output_appended chunk]
  exact hrun.output_kept

section End
variable {s : State} {pending : List Byte}

/-- `DEC.END` in phase OPEN on pending bytes that are known: its pass runs over their whole groups (rules R123, R126). -/
theorem State.Inv.close_on_pending (hs : s.Inv) (hp : s.dec.phase = .opened)
    (hpend : s.dec.buf.readBytes? s.dec.streamPos.toNat s.dec.pending = some pending) :
    ∃ k g m', s.dec.BulkRun k g (pending.take (tailStart pending.length)) m' ∧
      ((pending.take (tailStart pending.length)).all isSymbol = true → (s.dec.afterPass k g m').Inv s.cfg ∧
        s.dec.close s.cfg = (s.dec.afterPass k g m').finish s.cfg) ∧
      ((pending.take (tailStart pending.length)).all isSymbol = false →
        s.dec.close s.cfg = .ok (DecUnit.raise { s.dec with buf := m' } .invalidSymbol)) := by
  obtain ⟨k, g, groups, m', hrun, hgood, hbad⟩ := hs.dec.close_run hp
  obtain rfl := hrun.groups_eq hpend
  exact ⟨k, g, m', hrun, hgood, hbad⟩

/-- The pending bytes after the pass of `DEC.END` are the tail (rule R126). -/
theorem DecUnit.BulkRun.tail_pending {c : Config} {d : DecUnit} {k g : Nat} {m' : Memory}
    (h : d.BulkRun k g (pending.take (tailStart pending.length)) m') (hinv : d.Inv c)
    (hpend : d.buf.readBytes? d.streamPos.toNat d.pending = some pending) :
    (d.afterPass k g m').buf.readBytes? (d.afterPass k g m').streamPos.toNat (d.afterPass k g m').pending =
      some (pending.drop (tailStart pending.length)) := by
  have hlen : (pending.take (tailStart pending.length)).length = tailStart pending.length :=
    List.length_take_of_le (tailStart_bounds _).1
  have hrest := h.rest_pending hinv hpend
  rwa [hlen] at hrest

end End

/-- Settles O28: a good pass over the whole groups, and then a tail that decodes; the fourth byte of the last group word lies
where the tail's first byte goes. -/
theorem endClosesValidStream : Obligations.EndClosesValidStream := by
  unfold Obligations.EndClosesValidStream
  intro a pending out s hs hp hpend hout
  obtain ⟨hall, more, hmore, rfl⟩ := exists_tail_of_base64Decode hout
  obtain ⟨k, g, m', hrun, hgood, -⟩ := hs.close_on_pending hp hpend
  obtain ⟨hinv, hclose⟩ := hgood hall
  obtain ⟨hfinish, hpos, hfits⟩ := hinv.finish_of_good_tail (hrun.pending_afterPass hs.dec).2
    (hrun.tail_pending hs.dec hpend) hmore
  have hdp := hrun.toNat_decodePos hs.dec
  have hgroups := hrun.length_groups
  have hdata := length_decodedGroups g hgroups
  refine ⟨_, by rw [exec_decEnd, hclose, hfinish, answerDec_ok], ?position, ?output, fun x hx => ?frame, rfl⟩
  case position =>
    refine (DecUnit.toNat_decodePos_closedWith hfits).trans ?_
    rw [hdp, List.length_append]
    omega
  case output =>
    refine (hinv.output_closedWith hfits).trans ?_
    rw [hrun.output_afterPass hs.dec hall, Option.map_map]
    simp only [Function.comp_def, List.append_assoc]
  case frame =>
    rw [List.length_append] at hx
    have htail : ((s.dec.afterPass k g m').closedWith more).buf.read? x = m'.read? x :=
      Memory.read?_writeBytes_of_outside _ _ _ _ (by omega)
    exact htail.trans (hrun.read?_of_outside (by unfold passStores; split <;> omega))

/-- Settles O29: the pass is not committed, and `end` stops there. -/
theorem endRejectsInvalidGroups : Obligations.EndRejectsInvalidGroups := by
  unfold Obligations.EndRejectsInvalidGroups
  intro a pending s hs hp hpend hbad
  obtain ⟨k, g, m', hrun, -, hfails⟩ := hs.close_on_pending hp hpend
  have hlen : (pending.take (tailStart pending.length)).length = tailStart pending.length :=
    List.length_take_of_le (tailStart_bounds _).1
  refine ⟨_, by rw [exec_decEnd, hfails hbad]; rfl, ?output, fun x hx => hrun.read?_of_outside ?frame, rfl⟩
  case output => exact hrun.output_kept
  case frame => rw [hlen]; exact hx

/-- Settles O30: a good pass over the whole groups, and then a failure that leaves the cursors where the pass put them. -/
theorem endRejectsInvalidTail : Obligations.EndRejectsInvalidTail := by
  unfold Obligations.EndRejectsInvalidTail
  rintro a pending groups tail s hs hp hpend rfl rfl hall hnone
  obtain ⟨k, g, m', hrun, hgood, -⟩ := hs.close_on_pending hp hpend
  obtain ⟨hinv, hclose⟩ := hgood hall
  have hfinish := hinv.finish_of_bad_tail (hrun.pending_afterPass hs.dec).2 (hrun.tail_pending hs.dec hpend) hnone
  exact ⟨_, by rw [exec_decEnd, hclose, hfinish, answerDec_ok], hrun.toNat_streamPos hs.dec, hrun.toNat_decodePos hs.dec,
    hrun.output_afterPass hs.dec hall, fun x hx => hrun.read?_of_outside hx, rfl⟩

end Sys2Proof.Machine
end

section
/-! The commands that open the decoder and read its registers (rules R120, R121, R129, R130, R132): `new`, `init`, `release` and
`STAT`, and the memory policy of the first three. -/

namespace Sys2Proof.Machine

/-- Settles O20: the unit's `renew` writes every register and the buffer. -/
theorem decNewRestoresReset : Obligations.DecNewRestoresReset := by
  unfold Obligations.DecNewRestoresReset
  intro k s
  exact ⟨_, exec_decNew k s, rfl, rfl, rfl, rfl, rfl, rfl, rfl, rfl, rfl⟩

section Init
variable {c : Config} {p : Nat}

/-- The need of `DEC.INIT` as its rule writes it (rules R13, R121). -/
theorem decNeed_eq (c : Config) (n : Nat) : decNeed c n = 4 * ((n + 2) / 3) + c.ovhDec := rfl

/-- What `roundUp` adds is less than one multiple (rule R13). -/
theorem roundUp_lt (hp : 0 < p) (a : Nat) : roundUp a p < a + p := by
  have hle : roundUp a p ≤ a + p - 1 := Nat.mul_div_le _ _
  omega

/-- No room is rounded up to no room (rule R13). -/
theorem roundUp_zero (hp : 0 < p) : roundUp 0 p = 0 := by
  have hmod := roundUp_mod 0 p
  rwa [Nat.mod_eq_of_lt (by have := roundUp_lt hp 0; omega)] at hmod

/-- A memory that covers the need is kept (rule R121). -/
theorem grownTo_of_le {memBytes : Word} {need : Nat} (h : need ≤ memBytes.toNat) : grownTo c memBytes need = memBytes :=
  if_neg (Nat.not_lt.2 h)

/-- A freed memory is built anew from the need alone (rules R121, R138). -/
theorem toNat_grownTo_zero (hc : c.Legal) {need : Nat} (hfit : need ≤ c.memMax) :
    (grownTo c 0 need).toNat = roundUp need c.page := by
  obtain ⟨hsize, -⟩ := grownTo_spec hc (memBytes := 0) hfit (Nat.zero_mod _) (Nat.zero_le _)
  rw [hsize]
  split
  case isTrue => rfl
  case isFalse hzero =>
    obtain rfl : need = 0 := by simpa using hzero
    rw [roundUp_zero hc.1]
    rfl

end Init

/-- Settles O21: what growth leaves, and the bounds of `roundUp`. -/
theorem decInitReservesCapacity : Obligations.DecInitReservesCapacity := by
  unfold Obligations.DecInitReservesCapacity
  intro size s hs hfit
  rw [← decNeed_eq] at hfit ⊢
  obtain ⟨hsize, hneed, -, hpage, -⟩ := grownTo_spec hs.cfg hfit hs.dec.mem_paged hs.dec.mem_le
  obtain ⟨t, hexec, -, -, -, hcapacity⟩ := exec_decInit_receiving hs hfit
  have hrun := exec_decInit size s
  rw [DecUnit.init_of_le hfit, answerDec_ok] at hrun
  obtain rfl := Host.Outcome.next.inj (hexec.symm.trans hrun)
  refine ⟨_, hrun, hcapacity, fun hle => grownTo_of_le hle, fun hlt => ⟨hpage, hneed, ?least⟩, rfl⟩
  rw [if_pos hlt] at hsize
  exact hsize ▸ roundUp_lt hs.cfg.1 _

/-- Settles O22: the unit tests its need first. -/
theorem decInitBeyondMemMaxFails : Obligations.DecInitBeyondMemMaxFails := by
  unfold Obligations.DecInitBeyondMemMaxFails
  intro size s hgt
  rw [exec_decInit, DecUnit.init_of_gt hgt, answerDec_ok]

section Release
variable {d : DecUnit}

/-- `DEC.RELEASE` of a memory above `keepSize` (rule R129). -/
theorem DecUnit.release_of_gt (h : d.keepSize.toNat < d.memBytes.toNat) :
    d.release = { d.reopen with memBytes := 0, capacity := 0, buf := [] } :=
  if_pos h

/-- `DEC.RELEASE` of a memory within `keepSize` (rule R129). -/
theorem DecUnit.release_of_le (h : d.memBytes.toNat ≤ d.keepSize.toNat) : d.release = d.reopen :=
  if_neg (Nat.not_lt.2 h)

/-- `DEC.RELEASE` reopens the unit (rule R129). -/
theorem DecUnit.release_opened (d : DecUnit) : d.release.phase = .opened ∧ d.release.writePos = 0 ∧
    d.release.streamPos = 0 ∧ d.release.decodePos = 0 := by
  unfold DecUnit.release
  split <;> exact ⟨rfl, rfl, rfl, rfl⟩

end Release

/-- Settles O32: freed or kept, the unit is reopened. -/
theorem releaseKeepsOrFreesDecoderMemory : Obligations.ReleaseKeepsOrFreesDecoderMemory := by
  unfold Obligations.ReleaseKeepsOrFreesDecoderMemory
  intro a s
  obtain ⟨hp, hw, hsp, hdp⟩ := s.dec.release_opened
  refine ⟨_, exec_decRelease a s, hw, hsp, hdp, hp, fun hgt => ?freed, fun hle => ?kept, ?state⟩
  case freed => simp [DecUnit.release_of_gt hgt]
  case kept => simp [DecUnit.release_of_le hle]
  case state => rw [← DecUnit.release_keepSize (d := s.dec)]; rfl

/-- `DEC.STAT` of a register there is (rules R26, R130). -/
theorem exec_decStat_of_reg {s : State} {r v : Word} (h : s.dec.reg? r.toNat = some v) :
    exec (.decStat r) s = .next (State.respond .dec (.ok v []) s) := by
  rw [exec_decStat, DecUnit.stat, h, answerDec_ok]

/-- No register has a number from 7 on (rule R26). -/
theorem DecUnit.reg?_of_ge (d : DecUnit) {n : Nat} (h : 7 ≤ n) : d.reg? n = none := by
  obtain ⟨k, rfl⟩ := Nat.exists_eq_add_of_le' h
  rfl

/-- Settles O33: each register is one row of `reg?`, which has none from 7 on. -/
theorem decStatReadsRegisters : Obligations.DecStatReadsRegisters := by
  unfold Obligations.DecStatReadsRegisters
  intro s r
  refine ⟨?_, ?_, ?_, ?_, ?_, ?_, ?opened, ?closed, ?failed, fun h => ?illegal⟩
  case opened | closed | failed => rintro rfl hp; exact exec_decStat_of_reg (by simp [DecUnit.reg?, hp, Phase.code])
  case illegal => rw [exec_decStat, DecUnit.stat, s.dec.reg?_of_ge h]; rfl
  all_goals rintro rfl; exact exec_decStat_of_reg rfl

/-- Settles O53: `release` hands `init` the old memory size, or 0. -/
theorem memoryPolicy : Obligations.MemoryPolicy := by
  unfold Obligations.MemoryPolicy
  intro a size s hs hfit
  let t := State.respond .dec (.ok 0 []) { s with dec := s.dec.release }
  have hrelease : exec (.decRelease a) s = .next t := exec_decRelease a s
  have hinit := exec_decInit size t
  rw [DecUnit.init_of_le (c := t.cfg) hfit, answerDec_ok] at hinit
  obtain ⟨-, -, -, hdp⟩ := s.dec.release_opened
  refine ⟨t, _, hrelease, hinit, ?output, fun hkeep hcovers => ?kept, fun hfree => ⟨?freed, ?rebuilt⟩⟩
  case output => simp [t, DecUnit.output?, hdp, Memory.readBytes?]
  case kept => simp [t, DecUnit.release_of_le hkeep, grownTo_of_le hcovers]
  case freed => simp [t, DecUnit.release_of_gt hfree]
  case rebuilt => simpa [t, DecUnit.release_of_gt hfree] using toNat_grownTo_zero hs.cfg hfit

end Sys2Proof.Machine
end

section
/-! The phase after each command (rule R131), the lag of the output behind the input (rule R128), and both with the abstract
form at power-on (rule R136). -/

namespace Sys2Proof.Machine

section Phase
variable {c : Config} {d d' : DecUnit} {r : Response} {chunk : List Byte}

theorem bulkDecode_phase {good : Bool} (h : bulkDecode c d = .ok (good, d')) : d'.phase = d.phase := by
  obtain ⟨m, sp, dp, rfl⟩ := bulkDecode_frame h
  rfl

/-- The rows of `put` in the table of phases (rule R131). -/
theorem DecUnit.put_phase (h : d.put c chunk = .ok (d', r)) :
    (d.phase = .opened ∧ r = .ok 0 [] ∧ d'.phase = .opened) ∨
    (d.phase = .opened ∧ r = .fail .capacity ∧ d'.phase = .opened) ∨
    (d.phase = .opened ∧ r = .fail .invalidSymbol ∧ d'.phase = .failed) ∨
    (d.phase ≠ .opened ∧ r = .fail .phase ∧ d'.phase = d.phase) := by
  by_cases hp : d.phase = .opened
  case neg =>
    rw [DecUnit.put_of_not_opened hp] at h
    cases h; exact .inr (.inr (.inr ⟨hp, rfl, rfl⟩))
  unfold DecUnit.put at h
  rw [if_neg (not_not.2 hp)] at h
  split at h
  · cases h; exact .inr (.inl ⟨hp, rfl, hp⟩)
  obtain ⟨m, -, h⟩ := bind_eq_ok_iff.1 h
  dsimp only at h
  split at h
  · obtain ⟨⟨good, d₁⟩, hbulk, h⟩ := bind_eq_ok_iff.1 h
    have hphase := bulkDecode_phase hbulk
    dsimp only at h
    split at h <;> cases h
    · exact .inl ⟨hp, rfl, hphase.trans hp⟩
    · exact .inr (.inr (.inl ⟨hp, rfl, rfl⟩))
  · cases h; exact .inl ⟨hp, rfl, hp⟩

/-- The last part of `DEC.END` ends the stream (rules R126, R131). -/
theorem DecUnit.finish_phase (h : d.finish c = .ok (d', r)) :
    (r = .ok 0 [] ∧ d'.phase = .closed) ∨ (r = .fail .invalidSymbol ∧ d'.phase = .failed) ∨
    (r = .fail .incompleteTrailer ∧ d'.phase = .failed) := by
  unfold DecUnit.finish at h
  split at h
  · cases h; exact .inr (.inr ⟨rfl, rfl⟩)
  obtain ⟨⟨w, dp⟩, -, h⟩ := bind_eq_ok_iff.1 h
  dsimp only at h
  split at h
  · cases h; exact .inr (.inl ⟨rfl, rfl⟩)
  · obtain ⟨m, -, h⟩ := bind_eq_ok_iff.1 h
    cases h; exact .inl ⟨rfl, rfl⟩

/-- `DEC.END` in phase OPEN ends the stream (rule R131). -/
theorem DecUnit.close_phase_of_opened (hp : d.phase = .opened) (h : d.close c = .ok (d', r)) :
    (r = .ok 0 [] ∧ d'.phase = .closed) ∨ (r = .fail .invalidSymbol ∧ d'.phase = .failed) ∨
    (r = .fail .incompleteTrailer ∧ d'.phase = .failed) := by
  unfold DecUnit.close at h
  rw [if_neg (not_not.2 hp)] at h
  split at h
  · obtain ⟨⟨good, d₁⟩, -, h⟩ := bind_eq_ok_iff.1 h
    dsimp only at h
    split at h
    · exact DecUnit.finish_phase h
    · cases h; exact .inr (.inl ⟨rfl, rfl⟩)
  · exact DecUnit.finish_phase h

/-- The rows of `end` in the table of phases (rule R131). -/
theorem DecUnit.close_phase (h : d.close c = .ok (d', r)) :
    (d.phase = .opened ∧ r = .ok 0 [] ∧ d'.phase = .closed) ∨
    (d.phase = .opened ∧ r = .fail .invalidSymbol ∧ d'.phase = .failed) ∨
    (d.phase = .opened ∧ r = .fail .incompleteTrailer ∧ d'.phase = .failed) ∨
    (d.phase ≠ .opened ∧ r = .fail .phase ∧ d'.phase = d.phase) := by
  by_cases hp : d.phase = .opened
  case neg =>
    rw [DecUnit.close_of_not_opened hp] at h
    cases h; exact .inr (.inr (.inr ⟨hp, rfl, rfl⟩))
  case pos => simpa [hp] using DecUnit.close_phase_of_opened hp h

/-- The rows of `init` in the table of phases (rule R131). -/
theorem DecUnit.init_phase {size : Word} (h : d.init c size = (d', r)) :
    (r = .ok 0 [] ∧ d'.phase = .opened) ∨ (r = .fail .noMem ∧ d'.phase = d.phase) := by
  by_cases hfit : decNeed c size.toNat ≤ c.memMax
  · rw [DecUnit.init_of_le hfit] at h
    cases h; exact .inl ⟨rfl, rfl⟩
  · rw [DecUnit.init_of_gt (Nat.lt_of_not_le hfit)] at h
    cases h; exact .inr ⟨rfl, rfl⟩

end Phase

/-- Settles O46, row by row. -/
theorem phaseTransitions : Obligations.PhaseTransitions := by
  unfold Obligations.PhaseTransitions
  refine ⟨fun i s t h => ?row, fun p s => by simp [State.raiseIllegal]⟩
  cases i with
  | decNew keepSize => cases h; rfl
  | decInit size =>
    rw [exec_decInit] at h
    obtain ⟨d, r, hd, rfl⟩ := answerDec_eq_next_iff.1 h
    simpa using DecUnit.init_phase (Except.ok.inj hd)
  | decPut chunk =>
    rw [exec_decPut] at h
    obtain ⟨d, r, hd, rfl⟩ := answerDec_eq_next_iff.1 h
    simpa using DecUnit.put_phase hd
  | decEnd arg =>
    rw [exec_decEnd] at h
    obtain ⟨d, r, hd, rfl⟩ := answerDec_eq_next_iff.1 h
    simpa using DecUnit.close_phase hd
  | decData arg =>
    rw [exec_decData] at h
    obtain ⟨r, hd⟩ := ok_of_answerDec h
    exact congrArg DecUnit.phase (DecUnit.data_frame hd)
  | decRelease arg =>
    cases h
    obtain ⟨hp, -⟩ := s.dec.release_opened
    exact hp
  | decStat reg =>
    rw [exec_decStat] at h
    obtain ⟨r, hd⟩ := ok_of_answerDec h
    exact congrArg DecUnit.phase (DecUnit.stat_frame (Except.ok.inj hd))
  | encNew keepSize => rw [exec_encNew] at h; exact congrArg DecUnit.phase (dec_of_answerEnc h)
  | encEncode source => rw [exec_encEncode] at h; exact congrArg DecUnit.phase (dec_of_answerEnc h)
  | encRelease arg => rw [exec_encRelease] at h; exact congrArg DecUnit.phase (dec_of_answerEnc h)
  | encStat reg => rw [exec_encStat] at h; exact congrArg DecUnit.phase (dec_of_answerEnc h)

section Lag
variable {c : Config} {d d' : DecUnit} {r : Response} {chunk : List Byte}

/-- Nothing is pending at the start of a stream. -/
theorem DecUnit.lag_of_empty (hw : d.writePos = 0) : d.Lag c := by
  intro _
  simp [DecUnit.pending, hw]

theorem DecUnit.Lag.init (h : d.Lag c) (size : Word) : (d.init c size).1.Lag c := by
  by_cases hfit : decNeed c size.toNat ≤ c.memMax
  · rw [DecUnit.init_of_le hfit]; exact DecUnit.lag_of_empty rfl
  · rw [DecUnit.init_of_gt (Nat.lt_of_not_le hfit)]; exact h

/-- `DEC.PUT` stays below the threshold or runs a pass, which leaves at most 4 bytes or fails (rules R122, R128). -/
theorem DecUnit.Lag.put (hc : c.Legal) (hinv : d.Inv c) (h : d.Lag c) (hr : d.put c chunk = .ok (d', r)) : d'.Lag c := by
  by_cases hp : d.phase = .opened
  case neg =>
    rw [DecUnit.put_of_not_opened hp] at hr
    cases hr; exact h
  by_cases hcap : d.writePos.toNat + chunk.length ≤ d.capacity.toNat
  case neg =>
    rw [DecUnit.put_of_gt hp (Nat.lt_of_not_le hcap)] at hr
    cases hr; exact h
  rcases Nat.lt_or_ge (d.appended chunk).pending c.tPut with hlt | hge
  · rw [hinv.put_below hc hp hcap hlt] at hr
    cases hr; exact fun _ => .inl hlt
  · obtain ⟨k, g, groups, m', hrun, hgood, hbad⟩ := hinv.put_run hc hp hcap hge
    cases hall : groups.all isSymbol with
    | true =>
      rw [hgood hall] at hr
      cases hr; exact fun _ => .inr (hrun.pending_afterPass (hinv.appended hp hcap)).2
    | false =>
      rw [hbad hall] at hr
      cases hr; exact fun hopen => by cases hopen

/-- `DEC.END` leaves no OPEN stream (rule R131). -/
theorem DecUnit.lag_of_close (hr : d.close c = .ok (d', r)) : d'.Lag c := by
  intro hopen
  rcases DecUnit.close_phase hr with ⟨-, -, hp⟩ | ⟨-, -, hp⟩ | ⟨-, -, hp⟩ | ⟨hne, -, hp⟩
  · rw [hp] at hopen; cases hopen
  · rw [hp] at hopen; cases hopen
  · rw [hp] at hopen; cases hopen
  · exact absurd (hp ▸ hopen) hne

/-- Every command keeps the lag (rule R128). -/
theorem exec_keeps_lag {i : Instr} {s t : State} (hs : s.Inv) (h : s.dec.Lag s.cfg) (ht : exec i s = .next t) :
    t.dec.Lag t.cfg := by
  rw [exec_cfg ht]
  cases i with
  | decNew keepSize => cases ht; exact DecUnit.lag_of_empty rfl
  | decInit size =>
    rw [exec_decInit] at ht
    obtain ⟨r, hd⟩ := ok_of_answerDec ht
    have hinit := h.init size
    rwa [Except.ok.inj hd] at hinit
  | decPut chunk =>
    rw [exec_decPut] at ht
    obtain ⟨r, hd⟩ := ok_of_answerDec ht
    exact h.put hs.cfg hs.dec hd
  | decEnd arg =>
    rw [exec_decEnd] at ht
    obtain ⟨r, hd⟩ := ok_of_answerDec ht
    exact DecUnit.lag_of_close hd
  | decData arg =>
    rw [exec_decData] at ht
    obtain ⟨r, hd⟩ := ok_of_answerDec ht
    exact DecUnit.data_frame hd ▸ h
  | decRelease arg =>
    cases ht
    obtain ⟨-, hw, -⟩ := s.dec.release_opened
    exact DecUnit.lag_of_empty hw
  | decStat reg =>
    rw [exec_decStat] at ht
    obtain ⟨r, hd⟩ := ok_of_answerDec ht
    exact DecUnit.stat_frame (Except.ok.inj hd) ▸ h
  | encNew keepSize => rw [exec_encNew] at ht; exact dec_of_answerEnc ht ▸ h
  | encEncode source => rw [exec_encEncode] at ht; exact dec_of_answerEnc ht ▸ h
  | encRelease arg => rw [exec_encRelease] at ht; exact dec_of_answerEnc ht ▸ h
  | encStat reg => rw [exec_encStat] at ht; exact dec_of_answerEnc ht ▸ h

end Lag

/-- Settles O7: of what a step can do only a command touches the decoder, and every command keeps the lag. -/
theorem stepKeepsLag : Obligations.StepKeepsLag := by
  unfold Obligations.StepKeepsLag
  intro s t hs h hstep
  obtain ⟨p, i, rest, -, -, -, hexec⟩ | ⟨p, op, rest, -, -, -, rfl⟩ | ⟨p, bs, rest, -, rfl⟩ | rfl := step_cases hstep
  · exact exec_keeps_lag (hs.consume p rest) (by simpa using h) hexec
  · simpa [State.raiseIllegal] using h
  · simpa using h
  · exact h

/-- Settles O2: the cleared units meet the invariant, and the decoder has an empty stream. -/
theorem powerOnMeetsInvariant : Obligations.PowerOnMeetsInvariant := by
  unfold Obligations.PowerOnMeetsInvariant
  refine ⟨fun c hc => ?powerOn, State.powerOn_inv (by decide)⟩
  have hinv := State.powerOn_inv hc
  exact ⟨hinv, DecUnit.lag_of_empty rfl, (DecUnit.receiving_nil hinv.dec rfl rfl rfl rfl).holds⟩

end Sys2Proof.Machine
end

section
/-! The abstract form of the decoder through every command (rules R135, R190) and whole streams from `init` to `end` (rules
R126, R137, R138). -/

namespace Sys2Proof.Machine

section Decoder
variable {c : Config} {d d' : DecUnit} {r : Response} {input chunk : List Byte}

/-- What a CLOSED unit holds (rule R135). -/
theorem DecUnit.holds_iff_of_closed (hp : d.phase = .closed) : d.Holds input ↔
    input.length = d.writePos.toNat ∧ ∃ out, base64Decode input = some out ∧ d.output? = some out := by
  unfold DecUnit.Holds
  rw [hp]

/-- After `end` the unit holds the stream, whether it succeeded or not (rules R126, R135). -/
theorem DecUnit.Ended.holds (h : DecUnit.Ended input d' r) : d'.Holds input := by
  cases hdecode : base64Decode input with
  | none =>
    obtain ⟨-, -, hholds⟩ := h.rejected hdecode
    exact hholds
  | some out =>
    obtain ⟨-, hp, hw, hout⟩ := h.decoded out hdecode
    exact (DecUnit.holds_iff_of_closed hp).2 ⟨hw.symm, out, hdecode, hout⟩

/-- `DEC.PUT` of a chunk that fits adds it to the stream, also when its pass fails (rules R122, R135, R190). -/
theorem DecUnit.Holds.put (hc : c.Legal) (hinv : d.Inv c) (hp : d.phase = .opened) (h : d.Holds input)
    (hcap : d.writePos.toNat + chunk.length ≤ d.capacity.toNat) (hr : d.put c chunk = .ok (d', r)) :
    d'.Holds (input ++ chunk) := by
  have happend : (d.appended chunk).Holds (input ++ chunk) := h.append hinv hp hcap
  have hp' : (d.appended chunk).phase = .opened := hp
  rcases Nat.lt_or_ge (d.appended chunk).pending c.tPut with hlt | hge
  · rw [hinv.put_below hc hp hcap hlt] at hr
    cases hr; exact happend
  · obtain ⟨k, g, groups, m', hrun, hgood, hbad⟩ := hinv.put_run hc hp hcap hge
    obtain ⟨-, hthreshold, -⟩ := hc
    have hpos : 0 < (d.appended chunk).pending := Nat.lt_of_lt_of_le hthreshold hge
    cases hall : groups.all isSymbol with
    | true =>
      rw [hgood hall] at hr
      cases hr
      exact happend.goodBulk hp' hrun.stream hrun.decoded (hrun.lt_writePos hpos) hrun.read hrun.frame hall (hrun.data hall)
    | false =>
      rw [hbad hall] at hr
      cases hr
      exact happend.badBulk hp' hrun.decoded hrun.frame

/-- `DEC.END` in phase OPEN holds the stream (rules R126, R135, R190). A unit that is not receiving has nothing pending, and
its `end` fails on the empty tail. -/
theorem DecUnit.Holds.close (hinv : d.Inv c) (hp : d.phase = .opened) (h : d.Holds input)
    (hr : d.close c = .ok (d', r)) : d'.Holds input := by
  by_cases hpos : d.streamPos.toNat < d.writePos.toNat
  case pos =>
    obtain ⟨d₁, r₁, hrun, hended⟩ := DecUnit.Receiving.close ⟨hinv, hp, h, .inr hpos⟩
    rw [hrun] at hr
    cases hr; exact hended.holds
  case neg =>
    have hnone : d.pending = 0 := by unfold DecUnit.pending; omega
    obtain ⟨hdirect, -⟩ := DecUnit.close_spec hinv hp
    obtain ⟨hshort, -⟩ := DecUnit.finish_spec hinv (by omega)
    rw [hdirect (by omega), hshort (by omega)] at hr
    cases hr; exact h.failed hp

/-- `DEC.INIT` begins an empty stream when it fits and leaves the stream when it does not (rules R121, R185). -/
theorem DecUnit.Holds.init (hc : c.Legal) (hinv : d.Inv c) (h : d.Holds input) (size : Word) :
    (d.init c size).1.Holds (if c.memMax < decNeed c size.toNat then input else []) := by
  have hinit := hinv.init hc size
  split
  case isTrue hgt => rw [DecUnit.init_of_gt hgt]; exact h
  case isFalse hfit =>
    rw [DecUnit.init_of_le (Nat.le_of_not_lt hfit)] at hinit ⊢
    exact (DecUnit.receiving_nil hinit rfl rfl rfl rfl).holds

end Decoder

section
variable {i : Instr} {s t : State} {input : List Byte}

/-- `DEC.PUT` in every phase (rules R122, R183, R184, R190): only a chunk that is accepted joins the stream. -/
theorem State.Inv.holds_put (hs : s.Inv) (h : s.dec.Holds input) {chunk : List Byte} {d : DecUnit} {r : Response}
    (hr : s.dec.put s.cfg chunk = .ok (d, r)) : d.Holds (acceptedAfter (.decPut chunk) s input) := by
  by_cases hacc : s.dec.phase = .opened ∧ s.dec.writePos.toNat + chunk.length ≤ s.dec.capacity.toNat
  case pos =>
    rw [acceptedAfter, if_pos hacc]
    exact h.put hs.cfg hs.dec hacc.1 hacc.2 hr
  case neg =>
    rw [acceptedAfter, if_neg hacc]
    by_cases hp : s.dec.phase = .opened
    · rw [DecUnit.put_of_gt hp (Nat.lt_of_not_le fun hle => hacc ⟨hp, hle⟩)] at hr
      cases hr; exact h
    · rw [DecUnit.put_of_not_opened hp] at hr
      cases hr; exact h

/-- `DEC.END` in every phase (rules R126, R184, R190). -/
theorem State.Inv.holds_close (hs : s.Inv) (h : s.dec.Holds input) {d : DecUnit} {r : Response}
    (hr : s.dec.close s.cfg = .ok (d, r)) : d.Holds input := by
  by_cases hp : s.dec.phase = .opened
  · exact h.close hs.dec hp hr
  · rw [DecUnit.close_of_not_opened hp] at hr
    cases hr; exact h

end

/-- Settles O54: `put` and `end` keep the form through their passes, `new`, `release` and an `init` that fits begin an empty
stream, and nothing else touches the unit. -/
theorem abstractFormIsKept : Obligations.AbstractFormIsKept := by
  unfold Obligations.AbstractFormIsKept
  intro i s t input hs h ht
  cases i with
  | decNew keepSize =>
    cases ht
    exact (DecUnit.receiving_nil (DecUnit.renew_inv s.cfg keepSize s.dec) rfl rfl rfl rfl).holds
  | decInit size =>
    rw [exec_decInit] at ht
    obtain ⟨r, hd⟩ := ok_of_answerDec ht
    have hinit := h.init hs.cfg hs.dec size
    rwa [Except.ok.inj hd] at hinit
  | decPut chunk =>
    rw [exec_decPut] at ht
    obtain ⟨r, hd⟩ := ok_of_answerDec ht
    exact hs.holds_put h hd
  | decEnd arg =>
    rw [exec_decEnd] at ht
    obtain ⟨r, hd⟩ := ok_of_answerDec ht
    exact hs.holds_close h hd
  | decData arg =>
    rw [exec_decData] at ht
    obtain ⟨r, hd⟩ := ok_of_answerDec ht
    exact DecUnit.data_frame hd ▸ h
  | decRelease arg =>
    cases ht
    obtain ⟨hp, hw, hsp, hdp⟩ := s.dec.release_opened
    exact (DecUnit.receiving_nil hs.dec.release hp hw hsp hdp).holds
  | decStat reg =>
    rw [exec_decStat] at ht
    obtain ⟨r, hd⟩ := ok_of_answerDec ht
    exact DecUnit.stat_frame (Except.ok.inj hd) ▸ h
  | encNew keepSize => rw [exec_encNew] at ht; exact dec_of_answerEnc ht ▸ h
  | encEncode source => rw [exec_encEncode] at ht; exact dec_of_answerEnc ht ▸ h
  | encRelease arg => rw [exec_encRelease] at ht; exact dec_of_answerEnc ht ▸ h
  | encStat reg => rw [exec_encStat] at ht; exact dec_of_answerEnc ht ▸ h

/-- Settles O55: a run answers as its stream's decoding says, whatever the chunks. -/
theorem chunkBoundariesDoNotMatter : Obligations.ChunkBoundariesDoNotMatter := by
  unfold Obligations.ChunkBoundariesDoNotMatter
  intro size a chunks s hs hfit hcap
  obtain ⟨t, rs, hrun, hrsp, hlen, hended⟩ := execAll_stream hs a hfit hcap
  refine ⟨t, rs, hrun, hrsp, hlen, ?success, fun out hout => (hended.decoded out hout).2⟩
  cases hdecode : base64Decode chunks.flatten with
  | none => simp [(hended.rejected hdecode).1]
  | some out => simp [(hended.decoded out hdecode).1]

section Tail
variable {c : Config} {d d' : DecUnit} {r : Response} {input : List Byte}

/-- A text of symbols has no bad groups. -/
theorem not_badGroups_of_all (h : input.all isSymbol = true) : ¬ BadGroups input := by
  rintro ⟨n, -, hbad⟩
  obtain ⟨x, hx, hsym⟩ := List.all_eq_false.1 hbad
  exact hsym (List.all_eq_true.1 h x (List.mem_of_mem_take hx))

/-- The last part of `DEC.END` leaves the cursor of the input or moves it to the end (rule R126). -/
theorem DecUnit.Inv.finish_pending (h : d.Inv c) (h4 : d.pending ≤ 4) (hr : d.finish c = .ok (d', r)) : d'.pending ≤ 4 := by
  obtain ⟨tail, htail⟩ := h.exists_readBytes (a := d.streamPos.toNat) (n := d.pending)
    (by have := h.stream_le; unfold DecUnit.pending; omega)
  cases hdec : decodedTail tail with
  | none =>
    rw [h.finish_of_bad_tail h4 htail hdec] at hr
    cases hr; exact h4
  | some more =>
    rw [(h.finish_of_good_tail h4 htail hdec).1] at hr
    cases hr; simp [DecUnit.pending, DecUnit.closedWith]

/-- `DEC.END` on a stream without bad groups commits all the whole groups, whatever it answers (rule R126). -/
theorem DecUnit.Receiving.close_pending (h : d.Receiving c input) (hgood : ¬ BadGroups input)
    (hr : d.close c = .ok (d', r)) : d'.pending ≤ 4 := by
  obtain ⟨k, g, groups, m', hrun, hpass, -⟩ := h.inv.close_run h.opened
  cases hall : groups.all isSymbol with
  | true =>
    obtain ⟨hinv, hclose⟩ := hpass hall
    rw [hclose] at hr
    exact hinv.finish_pending (hrun.pending_afterPass h.inv).2 hr
  | false =>
    have hpos : 0 < d.pending := by
      have htail := hrun.tail
      have hlen := hrun.length_groups
      by_contra hzero
      obtain rfl : groups = [] := List.eq_nil_of_length_eq_zero (by unfold tailStart at htail; omega)
      cases hall
    exact absurd (h.badGroups hrun.stream (hrun.lt_writePos hpos) hrun.read hall) hgood

/-- `DEC.END` on whole groups of symbols and one symbol more fails and leaves the groups' output (rules R126, R182). -/
theorem DecUnit.Receiving.close_lone_symbol {groups : List Byte} {x : Byte} (h : d.Receiving c (groups ++ [x]))
    (hmod : groups.length % 4 = 0) (hall : (groups ++ [x]).all isSymbol = true) (hr : d.close c = .ok (d', r)) :
    d'.output? = some (decodedGroups groups) := by
  have hpend := h.close_pending (not_badGroups_of_all hall) hr
  have hinv := h.inv.close hr
  obtain ⟨d₁, r₁, hrun, hended⟩ := h.close
  obtain ⟨rfl, -⟩ : d₁ = d' ∧ r₁ = r := by rw [hrun] at hr; cases hr; exact ⟨rfl, rfl⟩
  have hnone : base64Decode (groups ++ [x]) = none := by
    rw [base64Decode_groups_tail (k := groups.length / 4) (by omega) (by simp) (by simp), decodedTail_short (by simp)]
    simp
  obtain ⟨-, hp, hholds⟩ := hended.rejected hnone
  obtain ⟨hlen, -, hout⟩ := (DecUnit.holds_iff_of_failed hp).1 hholds
  have hsp : d₁.streamPos.toNat = groups.length := by
    have hle := hinv.stream_le
    have hgrouped := (hinv.grouped (by simp [hp])).1
    rw [List.length_append, List.length_singleton] at hlen
    unfold DecUnit.pending at hpend
    omega
  rw [hout, hsp, List.take_left]

end Tail

end Sys2Proof.Machine

namespace Sys2Proof

open Machine

/-- Chunks without bad groups are all received, and `end` finds the whole stream (rules R122, R137). -/
theorem execAll_puts_end_of_good {input : List Byte} {s : State} (hc : s.cfg.Legal) (h : s.dec.Receiving s.cfg input)
    {chunks : List (List Byte)} (a : Word) (hcap : (input ++ chunks.flatten).length ≤ s.dec.capacity.toNat)
    (hgood : ¬ BadGroups (input ++ chunks.flatten)) :
    ∃ (t : State) (d : DecUnit) (r : Response), execAll (chunks.map .decPut ++ [.decEnd a]) s = .next t ∧
      d.Receiving s.cfg (input ++ chunks.flatten) ∧ d.close s.cfg = .ok (t.dec, r) := by
  induction chunks generalizing input s with
  | nil =>
    rw [List.flatten_nil, List.append_nil]
    obtain ⟨d, r, hclose, -⟩ := h.close
    obtain ⟨t, ht, rfl, -, -⟩ := exists_answerDec s d r
    refine ⟨t, s.dec, r, ?_, h, hclose⟩
    rw [List.map_nil, List.nil_append, execAll_cons (by rw [exec_decEnd, hclose, ht]), execAll]
  | cons chunk chunks ih =>
    rw [List.flatten_cons, ← List.append_assoc] at hcap hgood ⊢
    obtain ⟨u, r, hput, hcfg, -, hcapacity, hcases⟩ := exec_decPut_receiving hc h (chunk := chunk)
      (by rw [List.length_append] at hcap; omega)
    obtain ⟨-, hrecv⟩ := hcases.resolve_right fun ⟨_, _, hbad⟩ => hgood (hbad.append _)
    obtain ⟨t, d, r, hrun, hall⟩ := ih (s := u) (hcfg ▸ hc) (hcfg ▸ hrecv) (by rw [hcapacity]; exact hcap) hgood
    exact ⟨t, d, r, by rw [List.map_cons, List.cons_append, execAll_cons hput, hrun], hcfg ▸ hall⟩

/-- A last group of 2 to 4 symbols decodes to one byte less than it has symbols (rule R106). -/
theorem exists_decodedTail_of_symbols {tail : List Byte} (h2 : 2 ≤ tail.length) (h4 : tail.length ≤ 4)
    (hall : tail.all isSymbol = true) : ∃ more, decodedTail tail = some more ∧ more.length = tail.length - 1 := by
  rw [decodedTail_of_symbols h2 h4 hall, partialGroup, if_pos hall]
  refine ⟨_, rfl, ?_⟩
  simp only [bytesOfValues, List.length_take, List.length_cons, List.length_nil]
  omega

/-- Settles O59: 2 to 4 trailing symbols make a text that decodes; with one the text does not decode, and `end`, which finds
no bad group, has committed all the groups when it fails. -/
theorem tailCompleteness : Obligations.TailCompleteness := by
  unfold Obligations.TailCompleteness
  intro groups tail size a chunks s hs hfit hcap hmod hgroups htail h1 h4 hchunks
  rw [← hchunks] at hcap
  obtain ⟨t, rs, hrun, hrsp, -, hended⟩ := execAll_stream hs a hfit hcap
  have hdecode : base64Decode chunks.flatten = (decodedTail tail).map (decodedGroups groups ++ ·) := by
    rw [hchunks, base64Decode_groups_tail (k := groups.length / 4) (by omega) h1 h4, if_pos hgroups]
  refine ⟨t, rs, hrun, hrsp, fun hone => ⟨?fails, ?output⟩, fun h2 => ?succeeds⟩
  case fails =>
    rw [decodedTail_short (by omega)] at hdecode
    exact (hended.rejected hdecode).1
  case output =>
    obtain ⟨x, rfl⟩ := List.length_eq_one_iff.1 hone
    have hall : (groups ++ [x]).all isSymbol = true := by rw [List.all_append, hgroups, htail]; rfl
    obtain ⟨u, hinit, hcfg, -, hrecv, hcapacity⟩ := exec_decInit_receiving hs hfit
    obtain ⟨t', d, r, hrun', hwhole, hclose⟩ := execAll_puts_end_of_good (s := u) (hcfg ▸ hs.cfg) (hcfg ▸ hrecv) a
      (chunks := chunks) (by rw [hcapacity]; exact hcap) (by rw [hchunks]; exact not_badGroups_of_all hall)
    rw [execAll_cons hinit, hrun'] at hrun
    cases hrun
    rw [List.nil_append, hchunks] at hwhole
    exact hwhole.close_lone_symbol hmod hall hclose
  case succeeds =>
    obtain ⟨more, hmore, hlen⟩ := exists_decodedTail_of_symbols h2 h4 htail
    rw [hmore, Option.map_some] at hdecode
    obtain ⟨hok, -, -, hout⟩ := hended.decoded _ hdecode
    exact ⟨hok, more, hlen, hout⟩

end Sys2Proof
end

section
/-! The encoder's commands (rules R160, R161, R166 to R168): `new`, `encode` that fits `MEM_MAX` and that does not, how the
texts of pieces join, `release` and `STAT`. -/

namespace Sys2Proof.Machine

/-- Settles O34: the unit's `renew` writes both registers and the buffer. -/
theorem encNewRestoresReset : Obligations.EncNewRestoresReset := by
  unfold Obligations.EncNewRestoresReset
  intro k s
  exact ⟨_, exec_encNew k s, rfl, rfl, rfl, rfl⟩

/-- The need of `ENC.ENCODE` as its rule writes it (rules R13, R161). -/
theorem encNeed_eq (c : Config) (n : Nat) : encNeed c n = 4 * ((n + 2) / 3) + 4 * ((n + 3) / 4) + c.ovhEnc := rfl

section Encode
variable {s : State} {source : List Byte}

/-- `ENC.ENCODE` of a source that fits `MEM_MAX` answers its text and writes the memory size and the buffer (rule R161). -/
theorem exec_encEncode_of_le (hs : s.Inv) (hfit : encNeed s.cfg source.length ≤ s.cfg.memMax) :
    ∃ val m, val.toNat = encOutLen source.length ∧ exec (.encEncode source) s = .next
      (State.respond .enc (.ok val (base64Encode source)) { s with enc := { s.enc with
        memBytes := grownTo s.cfg s.enc.memBytes (encNeed s.cfg source.length), buf := m } }) := by
  obtain ⟨e, hrun, he, -, hval, -⟩ := EncUnit.encode_spec hs.cfg hs.enc hfit
  exact ⟨_, e.buf, hval, by rw [exec_encEncode, hrun, answerEnc_ok, ← he]⟩

/-- `ENC.ENCODE` of a source that does not fit `MEM_MAX` fails (rules R161, R185). -/
theorem exec_encEncode_of_gt (h : s.cfg.memMax < encNeed s.cfg source.length) :
    exec (.encEncode source) s = .next (State.respond .enc (.fail .noMem) s) := by
  rw [exec_encEncode, EncUnit.encode_of_gt h, answerEnc_ok]

/-- An encoder that reports success has answered the text of its source: a source that does not fit gets a failure. -/
theorem data_of_exec_encEncode {t : State} {val : Word} {data : List Byte} (hs : s.Inv)
    (h : exec (.encEncode source) s = .next t) (hrsp : t.encRsp = s.encRsp ++ [.ok val data]) :
    data = base64Encode source := by
  rcases Nat.lt_or_ge s.cfg.memMax (encNeed s.cfg source.length) with hgt | hfit
  · rw [exec_encEncode_of_gt hgt] at h
    cases h
    cases List.append_cancel_left hrsp
  · obtain ⟨_, m, -, hrun⟩ := exec_encEncode_of_le hs hfit
    rw [hrun] at h
    cases h
    cases List.append_cancel_left hrsp
    rfl

end Encode

/-- Settles O35: the text has the length `val` says, and the growth is that of `grownTo` with the bound of `roundUp`. -/
theorem encodeAnswersBase64 : Obligations.EncodeAnswersBase64 := by
  unfold Obligations.EncodeAnswersBase64
  rintro source _ s hs rfl hfit
  rw [← encNeed_eq] at hfit ⊢
  obtain ⟨hsize, hneed, -, hpage, -⟩ := grownTo_spec hs.cfg hfit hs.enc.mem_paged hs.enc.mem_le
  obtain ⟨val, m, hval, hrun⟩ := exec_encEncode_of_le hs hfit
  refine ⟨_, val, hrun, hval, (length_base64Encode source).trans hval.symm, fun hle => grownTo_of_le hle,
    fun hlt => ⟨hpage, hneed, ?least⟩, rfl⟩
  rw [if_pos hlt] at hsize
  exact hsize ▸ roundUp_lt hs.cfg.1 _

/-- Settles O37: the unit tests its need first. -/
theorem encodeBeyondMemMaxFails : Obligations.EncodeBeyondMemMaxFails := by
  unfold Obligations.EncodeBeyondMemMaxFails
  intro source s hgt
  exact exec_encEncode_of_gt hgt

/-- Settles O38: each answer is the text of its source, and texts join after whole blocks. -/
theorem encodedPiecesJoin : Obligations.EncodedPiecesJoin := by
  unfold Obligations.EncodedPiecesJoin
  intro x y dx dy dxy vx vy vxy s1 s2 s3 t1 t2 t3 hs1 hs2 hs3 hx h1 hr1 h2 hr2 h3 hr3
  rw [data_of_exec_encEncode hs1 h1 hr1, data_of_exec_encEncode hs2 h2 hr2, data_of_exec_encEncode hs3 h3 hr3]
  exact base64Encode_append (x.length / 3) (by omega) y

section Release
variable {e : EncUnit}

/-- `ENC.RELEASE` of a memory above `keepSize` (rule R166). -/
theorem EncUnit.release_of_gt (h : e.keepSize.toNat < e.memBytes.toNat) : e.release = { e with memBytes := 0, buf := [] } :=
  if_pos h

/-- `ENC.RELEASE` of a memory within `keepSize` (rule R166). -/
theorem EncUnit.release_of_le (h : e.memBytes.toNat ≤ e.keepSize.toNat) : e.release = e :=
  if_neg (Nat.not_lt.2 h)

end Release

/-- Settles O39: the two sides of the comparison `release` makes. -/
theorem releaseKeepsOrFreesEncoderMemory : Obligations.ReleaseKeepsOrFreesEncoderMemory := by
  unfold Obligations.ReleaseKeepsOrFreesEncoderMemory
  refine fun a s => ⟨fun hgt => ?freed, fun hle => ?kept⟩
  case freed => rw [exec_encRelease, EncUnit.release_of_gt hgt, answerEnc_ok]
  case kept => rw [exec_encRelease, EncUnit.release_of_le hle, answerEnc_ok]

/-- `ENC.STAT` of a register there is (rules R26, R167). -/
theorem exec_encStat_of_reg {s : State} {r v : Word} (h : s.enc.reg? r.toNat = some v) :
    exec (.encStat r) s = .next (State.respond .enc (.ok v []) s) := by
  rw [exec_encStat, EncUnit.stat, h, answerEnc_ok]

/-- No register has a number from 2 on (rule R26). -/
theorem EncUnit.reg?_of_ge (e : EncUnit) {n : Nat} (h : 2 ≤ n) : e.reg? n = none := by
  obtain ⟨k, rfl⟩ := Nat.exists_eq_add_of_le' h
  rfl

/-- Settles O40: each register is one row of `reg?`, which has none from 2 on. -/
theorem encStatReadsRegisters : Obligations.EncStatReadsRegisters := by
  unfold Obligations.EncStatReadsRegisters
  refine fun s r => ⟨?keepSize, ?memBytes, fun h => ?illegal⟩
  case keepSize | memBytes => rintro rfl; exact exec_encStat_of_reg rfl
  case illegal => rw [exec_encStat, EncUnit.stat, s.enc.reg?_of_ge h]; rfl

end Sys2Proof.Machine
end

section
/-! The failures that change nothing (rules R183 to R186, R189, R192): of the classes of rule R180 only the two about the
stream's data leave more than a response behind, and outside phase OPEN no command but those that reopen the decoder changes
it. -/

namespace Sys2Proof.Machine

theorem Phase.ne_opened_iff {p : Phase} : p ≠ .opened ↔ p = .closed ∨ p = .failed := by cases p <;> decide

/-- Settles O23: the unit tests its phase first. -/
theorem putAndEndOutsideOpenFail : Obligations.PutAndEndOutsideOpenFail := by
  unfold Obligations.PutAndEndOutsideOpenFail
  intro chunk a s hphase
  have hp : s.dec.phase ≠ .opened := Phase.ne_opened_iff.2 hphase
  exact ⟨exec_of_not_opened hp (.inl rfl), exec_of_not_opened hp (.inr rfl)⟩

/-- Settles O24: in phase OPEN the unit tests the capacity before it stores anything. -/
theorem putBeyondCapacityFails : Obligations.PutBeyondCapacityFails := by
  unfold Obligations.PutBeyondCapacityFails
  intro chunk s hp hcap
  rw [exec_decPut, DecUnit.put_of_gt hp hcap, answerDec_ok]

section Decoder
variable {c : Config} {d d' : DecUnit} {cls : FailClass}

/-- A `put` that fails on its phase or its capacity fails before the append (rule R188). -/
theorem DecUnit.put_fail_frame {chunk : List Byte} (h : d.put c chunk = .ok (d', .fail cls)) (hsym : cls ≠ .invalidSymbol) :
    d' = d := by
  unfold DecUnit.put at h
  split at h
  · cases h; rfl
  split at h
  · cases h; rfl
  obtain ⟨m, -, h⟩ := bind_eq_ok_iff.1 h
  dsimp only at h
  split at h
  · obtain ⟨⟨good, d₁⟩, -, h⟩ := bind_eq_ok_iff.1 h
    dsimp only at h
    split at h <;> cases h
    exact absurd rfl hsym
  · cases h

/-- An `end` that fails otherwise than on its data fails on its phase (rule R131). -/
theorem DecUnit.close_fail_frame (h : d.close c = .ok (d', .fail cls)) (hsym : cls ≠ .invalidSymbol)
    (htrailer : cls ≠ .incompleteTrailer) : d' = d := by
  by_cases hp : d.phase = .opened
  case neg =>
    rw [DecUnit.close_of_not_opened hp] at h
    cases h; rfl
  case pos =>
    obtain ⟨hr, -⟩ | ⟨hr, -⟩ | ⟨hr, -⟩ := DecUnit.close_phase_of_opened hp h
    · cases hr
    · exact absurd (Response.fail.inj hr) hsym
    · exact absurd (Response.fail.inj hr) htrailer

/-- An `init` that fails reserves nothing (rule R185). -/
theorem DecUnit.init_fail_frame {size : Word} (h : d.init c size = (d', .fail cls)) : d' = d := by
  by_cases hfit : decNeed c size.toNat ≤ c.memMax
  · rw [DecUnit.init_of_le hfit] at h; cases h
  · rw [DecUnit.init_of_gt (Nat.lt_of_not_le hfit)] at h; cases h; rfl

end Decoder

/-- An `encode` fails on its need alone, before the memory grows (rule R185). -/
theorem EncUnit.encode_fail_frame {c : Config} {e e' : EncUnit} {cls : FailClass} {source : List Byte}
    (h : e.encode c source = .ok (e', .fail cls)) : e' = e := by
  unfold EncUnit.encode at h
  dsimp only at h
  split at h
  · cases h; rfl
  obtain ⟨m0, -, h⟩ := bind_eq_ok_iff.1 h
  obtain ⟨m1, -, h⟩ := bind_eq_ok_iff.1 h
  obtain ⟨m2, -, h⟩ := bind_eq_ok_iff.1 h
  obtain ⟨bytes, -, h⟩ := bind_eq_ok_iff.1 h
  cases h

section Exec
variable {i : Instr} {s t : State} {cls : FailClass}

/-- A decoder command whose failure leaves its unit adds that response to the state and nothing else (rule R82). -/
theorem eq_respond_of_dec_fail {a : Except Fault (DecUnit × Response)} (ha : exec i s = answerDec s a) (hp : i.port = .dec)
    (h : exec i s = .next t) (hr : t.rsp i.port = s.rsp i.port ++ [.fail cls])
    (hkeep : ∀ d, a = .ok (d, .fail cls) → d = s.dec) : t = State.respond i.port (.fail cls) s := by
  rw [ha] at h
  obtain ⟨d, r, hd, rfl⟩ := answerDec_eq_next_iff.1 h
  rw [hp, State.respond_rsp] at hr
  obtain rfl : r = .fail cls := List.singleton_inj.1 (List.append_cancel_left hr)
  obtain rfl := hkeep d hd
  rw [hp]

/-- An encoder command whose failure leaves its unit adds that response to the state and nothing else (rule R82). -/
theorem eq_respond_of_enc_fail {a : Except Fault (EncUnit × Response)} (ha : exec i s = answerEnc s a) (hp : i.port = .enc)
    (h : exec i s = .next t) (hr : t.rsp i.port = s.rsp i.port ++ [.fail cls])
    (hkeep : ∀ e, a = .ok (e, .fail cls) → e = s.enc) : t = State.respond i.port (.fail cls) s := by
  rw [ha] at h
  obtain ⟨e, r, he, rfl⟩ := answerEnc_eq_next_iff.1 h
  rw [hp, State.respond_rsp] at hr
  obtain rfl : r = .fail cls := List.singleton_inj.1 (List.append_cancel_left hr)
  obtain rfl := hkeep e he
  rw [hp]

end Exec

/-- Settles O51: `new` and `release` never fail, and every other command that fails in one of the four classes leaves its
unit as it found it. -/
theorem otherFailuresChangeNothing : Obligations.OtherFailuresChangeNothing := by
  unfold Obligations.OtherFailuresChangeNothing
  intro i s t cls h hr hsym htrailer
  cases i with
  | decNew keepSize => exact eq_respond_of_dec_fail (exec_decNew ..) (Instr.port_decNew _) h hr fun _ hd => by cases hd
  | decInit size =>
    exact eq_respond_of_dec_fail (exec_decInit ..) (Instr.port_decInit _) h hr fun _ hd =>
      DecUnit.init_fail_frame (Except.ok.inj hd)
  | decPut chunk =>
    exact eq_respond_of_dec_fail (exec_decPut ..) (Instr.port_decPut _) h hr fun _ hd => DecUnit.put_fail_frame hd hsym
  | decEnd arg =>
    exact eq_respond_of_dec_fail (exec_decEnd ..) (Instr.port_decEnd _) h hr fun _ hd =>
      DecUnit.close_fail_frame hd hsym htrailer
  | decData arg =>
    exact eq_respond_of_dec_fail (exec_decData ..) (Instr.port_decData _) h hr fun _ hd => DecUnit.data_frame hd
  | decRelease arg =>
    exact eq_respond_of_dec_fail (exec_decRelease ..) (Instr.port_decRelease _) h hr fun _ hd => by cases hd
  | decStat reg =>
    exact eq_respond_of_dec_fail (exec_decStat ..) (Instr.port_decStat _) h hr fun _ hd =>
      DecUnit.stat_frame (Except.ok.inj hd)
  | encNew keepSize => exact eq_respond_of_enc_fail (exec_encNew ..) (Instr.port_encNew _) h hr fun _ he => by cases he
  | encEncode source =>
    exact eq_respond_of_enc_fail (exec_encEncode ..) (Instr.port_encEncode _) h hr fun _ he => EncUnit.encode_fail_frame he
  | encRelease arg =>
    exact eq_respond_of_enc_fail (exec_encRelease ..) (Instr.port_encRelease _) h hr fun _ he => by cases he
  | encStat reg =>
    exact eq_respond_of_enc_fail (exec_encStat ..) (Instr.port_encStat _) h hr fun _ he =>
      EncUnit.stat_frame (Except.ok.inj he)

section Sticky
variable {s : State}

/-- Outside phase OPEN `put` and `end` fail, and `DATA` and `STAT` write nothing in any phase (rules R128, R130, R184): each
of them only responds. -/
theorem State.Inv.exec_only_responds (hs : s.Inv) (hp : s.dec.phase ≠ .opened) {i : Instr}
    (hi : i.op = .decPut ∨ i.op = .decEnd ∨ i.op = .decData ∨ i.op = .decStat) :
    ∃ r, Machine.exec i s = .next (State.respond .dec r s) := by
  cases i with
  | decPut chunk => exact ⟨_, exec_of_not_opened hp (.inl rfl)⟩
  | decEnd arg => exact ⟨_, exec_of_not_opened hp (.inr rfl)⟩
  | decData arg =>
    obtain ⟨bytes, -, -, hdata⟩ := dataAnswersOutput arg s hs
    exact ⟨_, hdata⟩
  | decStat reg =>
    obtain ⟨d, r, hstat⟩ : ∃ d r, s.dec.stat reg = (d, r) := ⟨_, _, rfl⟩
    obtain rfl := DecUnit.stat_frame hstat
    exact ⟨r, by rw [exec_decStat, hstat, Machine.answerDec_ok]⟩
  | _ => simp [Instr.op] at hi

/-- Any sequence of them runs and leaves both units (rule R192): a response changes neither the invariant nor the phase. -/
theorem State.Inv.execAll_keeps_units {cmds : List Instr} (hs : s.Inv) (hp : s.dec.phase ≠ .opened)
    (hcmds : ∀ i ∈ cmds, i.op = .decPut ∨ i.op = .decEnd ∨ i.op = .decData ∨ i.op = .decStat) :
    ∃ t, execAll cmds s = .next t ∧ t.dec = s.dec ∧ t.enc = s.enc := by
  induction cmds generalizing s with
  | nil => exact ⟨s, rfl, rfl, rfl⟩
  | cons i cmds ih =>
    obtain ⟨hi, hrest⟩ := List.forall_mem_cons.1 hcmds
    obtain ⟨r, hexec⟩ := hs.exec_only_responds hp hi
    rw [execAll_cons hexec]
    exact ih (hs.exec hexec) hp hrest

end Sticky

/-- Settles O52, by induction on the commands. -/
theorem failureIsSticky : Obligations.FailureIsSticky := by
  unfold Obligations.FailureIsSticky
  intro cmds s hs hphase hcmds
  exact hs.execAll_keeps_units (Phase.ne_opened_iff.2 hphase.symm) hcmds

end Sys2Proof.Machine
end

section
/-! The step with nothing whole on any of the three command streams (rules R210, R224). -/

namespace Sys2Proof.Machine

/-- A stream that ends inside a header or inside a payload has nothing whole at its front (rule R224). -/
theorem front_of_short {bs : List Byte}
    (h : decode bs = .error .shortHeader ∨ ∃ n, decode bs = .error (.shortPayload n)) : front bs = .incomplete := by
  obtain hheader | ⟨n, hpayload⟩ := h
  · exact front_of_shortHeader hheader
  · rw [front, hpayload]

section Idle
variable {s : State}

/-- No port is served when neither the turn's nor the other one has anything whole (rule R224). -/
theorem State.served_eq_none (h : ∀ p, front (s.cmd p) = .incomplete) : s.served = none := by
  simp [State.served, State.not_ready_of_front_incomplete (h _)]

theorem State.routeOne_eq_none (h : front s.cmdIn = .incomplete) : s.routeOne = none := by
  rw [State.routeOne, h]

/-- With no port to serve and nothing to route a step is idle (rule R210). -/
theorem step_of_idle (hs : s.served = none) (hr : s.routeOne = none) : step s = .next s := by
  have hfetch : s.fetch = .idle := by simp [State.fetch, hs, hr]
  rw [step, hfetch]

end Idle

/-- Settles O44: each of the three streams has nothing whole at its front, so no port is served and nothing is routed. -/
theorem stepWaitsForWholeCommand : Obligations.StepWaitsForWholeCommand := by
  unfold Obligations.StepWaitsForWholeCommand
  intro s hshort
  have hports : ∀ p, front (s.cmd p) = .incomplete
    | .dec => front_of_short (hshort s.decCmd (.inl rfl))
    | .enc => front_of_short (hshort s.encCmd (.inr (.inl rfl)))
  have hinput : front s.cmdIn = .incomplete := front_of_short (hshort s.cmdIn (.inr (.inr rfl)))
  exact step_of_idle (State.served_eq_none hports) (State.routeOne_eq_none hinput)

end Sys2Proof.Machine
end
